-- ==== Sys2Proof/Word.lean ====
section
/-! DEFINITION. The widths of HUFFENG's values: bytes (symbols), host words, host offsets and node indices
(spec/00_scope.md R6, R9, R10; spec/20_memory.md R60; spec/10_state.md R39). -/

namespace Sys2Proof

/-- A byte: one symbol (`SYM_W = 8`) or eight stream bits (R6, R10). -/
abbrev Byte := BitVec 8

/-- A host word: what every access moves, and the width of every control register on the port (R60; 10_state.md section 2). -/
abbrev Word := BitVec 32

/-- A byte offset into the 64 KiB window (R60, R62). -/
abbrev Offset := BitVec 16

/-- The index of a `NODE` entry, the width of `LEFT` and `RIGHT` (R39). -/
abbrev NodeIx := BitVec 9

/-- An aggregate node frequency, `FREQ_W = 40` bits (R6, R39). -/
abbrev NodeFreq := BitVec 40

end Sys2Proof
end

