-- ==== Sys2Proof/Config.lean ====
section
/-! DEFINITION. The implementation parameters of spec/00_scope.md R6 at the values of "this hardware", and the one free
value of the model. The open parameters BUS_BINDING, BASE_ADDR and RST_BINDING are left out: no rule depends on them
(spec/92_eei_decisions.md, last table; log entry 8). -/

namespace Sys2Proof.Config

/-- `NSYM`, the number of symbol values (R6). -/
def nsym : Nat := 256
/-- `SYM_CAP`, the capacity of `SYMBUF` in symbols (R6). -/
def symCap : Nat := 4096
/-- `BIT_CAP`, the capacity of `BITBUF` in bits (R6). -/
def bitCap : Nat := 32768
/-- The capacity of `BITBUF` in bytes, `BIT_CAP / 8` (R43). -/
def bitBytes : Nat := 4096
/-- `NODE_CAP`, the number of `NODE` entries (R6). -/
def nodeCap : Nat := 512
/-- `LEN_MAX`, the largest code length a table entry can hold (R6). -/
def lenMax : Nat := 255

/-- FREE VALUE (R45, U2; log entry 3): what an `UNSPEC` byte lane of a host read answers. It is applied to a counter that
State holds and the read advances, so every lane of every read draws anew. Nothing constrains it. -/
opaque freeByte : Nat → Byte

end Sys2Proof.Config
end

