-- ==== Sys2Proof/Syntax.lean ====
section
/-! DEFINITION. What the outside world can hand to HUFFENG: the nine commands, the named locations of the window, the host
accesses and events, the answers, and the statements of the script language (spec/30_encoding.md R93, R97, R98;
spec/20_memory.md R60, R70; spec/70_reset_and_hazards.md R230). -/

namespace Sys2Proof

/-- The nine commands of R93, one constructor per row of spec/opcode_table.json. No command carries an operand (R94). -/
inductive Instr where
  | nop
  | clrerr
  | sreset
  | count
  | build
  | generate
  | pack
  | encode
  | decode
  deriving DecidableEq, Repr

/-- The class column of R93: NOP, CLRERR and SRESET are system commands, the other six operation commands (R16). -/
def Instr.isSystem : Instr → Bool
  | .nop => true
  | .clrerr => true
  | .sreset => true
  | .count => false
  | .build => false
  | .generate => false
  | .pack => false
  | .encode => false
  | .decode => false

/-- The mapped locations of the window, by the names of R70, R38, R40 and R97. An unmapped offset has no `Loc`. -/
inductive Loc where
  | cmd
  | status
  | errcode
  | errinfo
  | symlen
  | bitlen
  | nleaves
  | nnodes
  | root
  | maxlen
  | symcap
  | bitcap
  /-- `FREQ[sym]`. -/
  | freq (sym : Byte)
  /-- `SYMBUFW[n]`, the word of `SYMBUF[4n .. 4n+3]`. -/
  | symbufW (n : BitVec 10)
  /-- `BITBUFW[n]`, the word of `BITBUF[4n .. 4n+3]`. -/
  | bitbufW (n : BitVec 10)
  /-- `CODETAB[sym].LENW`. -/
  | lenw (sym : Byte)
  /-- `CODETAB[sym].CW[q]`. -/
  | cw (sym : Byte) (q : BitVec 3)
  /-- `NODE[i].W0` to `NODE[i].W3`. -/
  | nodeW (i : NodeIx) (k : BitVec 2)
  deriving DecidableEq, Repr

/-- A host access (R60): one aligned-or-not read or write of one 32-bit word. -/
inductive Access where
  | rd (off : Offset)
  | wr (off : Offset) (wdata : Word)
  deriving DecidableEq, Repr

/-- What makes the engine take a step (R8): a host access, or the reset input `rst` (R230). -/
inductive Event where
  | access (a : Access)
  | rst
  deriving DecidableEq, Repr

/-- The two responses of the host port (R60). -/
inductive Resp where
  | okay
  | slverr
  deriving DecidableEq, Repr

/-- The answer to one access (R60): read data is 0 on a refused read and absent on a write. -/
structure Answer where
  resp  : Resp
  rdata : Option Word
  deriving DecidableEq, Repr

/-- The statements of the script language (R97) and its pseudo-statements (R98). They abbreviate sequences of host
accesses; they are not hardware (D28). -/
inductive Stmt where
  | wr (off : Offset) (v : Word)
  | rd (off : Offset)
  | cmd (i : Instr)
  | putsym (syms : List Byte)
  | putbits (bits : List Bool)
  | putfreq (sym : Byte) (v : Word)
  | putcode (sym : Byte) (code : List Bool)
  | delcode (sym : Byte)
  | clrtab
  deriving DecidableEq, Repr

end Sys2Proof
end

