-- ==== Sys2Proof/WellFormed.lean ====
section
/-! DEFINITION. Well-formedness of syntax. A command has no operand to check (R94), so every `Instr` is well formed; a script
statement has length bounds (R97, R98, R99). -/

namespace Sys2Proof

/-- Every command is well formed: all operands are implicit and all 32 bits of its word are fixed (R91, R94). -/
def Instr.wellFormed : Instr → Bool
  | .nop => true
  | .clrerr => true
  | .sreset => true
  | .count => true
  | .build => true
  | .generate => true
  | .pack => true
  | .encode => true
  | .decode => true

/-- A pseudo-statement's lengths: a message fits `SYMBUF`, a bit-string fits `BITBUF`, a code has 1 to 255 bits (R98, R99). -/
def Stmt.wellFormed : Stmt → Bool
  | .wr _ _ => true
  | .rd _ => true
  | .cmd i => i.wellFormed
  | .putsym syms => decide (syms.length ≤ Config.symCap)
  | .putbits bits => decide (bits.length ≤ Config.bitCap)
  | .putfreq _ _ => true
  | .putcode _ code => decide (1 ≤ code.length) && decide (code.length ≤ Config.lenMax)
  | .delcode _ => true
  | .clrtab => true

end Sys2Proof
end

