-- ==== Sys2Proof/Decode.lean ====
section
/-! DEFINITION. The command decoder and encoder (spec/30_encoding.md R90 to R95) and the decoder of host offsets into the
locations of the address map (spec/20_memory.md R63, R70; spec/10_state.md R38, R40), each with its inverse. -/

namespace Sys2Proof

/-- Why a word is not a command (R91, R95). -/
inductive DecodeReject where
  /-- `RSV` is not 0: the word is illegal even when `OPC` is a valid code. -/
  | reservedBits (w : Word)
  /-- `OPC` is none of the nine codes of R93. -/
  | unknownOpcode (opc : Byte)
  deriving DecidableEq, Repr

/-- Field `RSV` of format CMD32, bits 31:8 (R91). -/
def fieldRsv (w : Word) : BitVec 24 := w.extractLsb' 8 24

/-- Field `OPC` of format CMD32, bits 7:0 (R91). -/
def fieldOpc (w : Word) : Byte := w.extractLsb' 0 8

/-- The opcode map of R93. -/
def opcodeMap : List (Byte × Instr) :=
  [(0x00, .nop), (0x01, .clrerr), (0x02, .sreset),
   (0x10, .count), (0x11, .build), (0x12, .generate), (0x13, .pack), (0x14, .encode),
   (0x20, .decode)]

/-- The command of an operation code, by the opcode map. -/
def decodeOpc (opc : Byte) : Except DecodeReject Instr :=
  match opcodeMap.find? (fun row => row.1 == opc) with
  | some row => .ok row.2
  | none => .error (.unknownOpcode opc)

/-- The decoder: a word is a command exactly when `RSV = 0` and `OPC` is one of the nine codes (R91). -/
def decode (w : Word) : Except DecodeReject Instr :=
  if fieldRsv w = 0 then decodeOpc (fieldOpc w) else .error (.reservedBits w)

/-- The word of each command (R93, column "word"). -/
def encode : Instr → Word
  | .nop => 0x00000000
  | .clrerr => 0x00000001
  | .sreset => 0x00000002
  | .count => 0x00000010
  | .build => 0x00000011
  | .generate => 0x00000012
  | .pack => 0x00000013
  | .encode => 0x00000014
  | .decode => 0x00000020

/-- The instruction the decoder reads from a table row's `nbits` bits `w`; a command is one 32-bit word (R90). -/
def decodeTableWord (nbits w : Nat) : Option Instr :=
  if nbits ≤ 32 then (decode (BitVec.ofNat 32 (w % 2 ^ nbits))).toOption else none

/-- Alignment of a host access: `off` is a multiple of 4 (R63). -/
def aligned (off : Offset) : Bool := off.toNat % 4 == 0

/-- The twelve control registers, at word index `a / 4` (R70). -/
def controlReg : Nat → Option Loc
  | 0 => some .cmd
  | 1 => some .status
  | 2 => some .errcode
  | 3 => some .errinfo
  | 4 => some .symlen
  | 5 => some .bitlen
  | 6 => some .nleaves
  | 7 => some .nnodes
  | 8 => some .root
  | 9 => some .maxlen
  | 10 => some .symcap
  | 11 => some .bitcap
  | _ => none

/-- Word `k` of the 64-byte `CODETAB` entry of `sym`: `LENW`, then `CW[0]` to `CW[7]`, then seven unmapped words (R38). -/
def codetabWord (sym : Byte) (k : Nat) : Option Loc :=
  if k = 0 then some (.lenw sym)
  else if k ≤ 8 then some (.cw sym (BitVec.ofNat 3 (k - 1)))
  else none

/-- The address map of R70, for an aligned byte offset `a`; `none` is unmapped. -/
def locate (a : Nat) : Option Loc :=
  if a < 0x0030 then controlReg (a / 4)
  else if a < 0x0400 then none
  else if a < 0x0800 then some (.freq (BitVec.ofNat 8 ((a - 0x0400) / 4)))
  else if a < 0x1000 then none
  else if a < 0x2000 then some (.symbufW (BitVec.ofNat 10 ((a - 0x1000) / 4)))
  else if a < 0x3000 then some (.bitbufW (BitVec.ofNat 10 ((a - 0x2000) / 4)))
  else if a < 0x4000 then none
  else if a < 0x8000 then codetabWord (BitVec.ofNat 8 ((a - 0x4000) / 64)) ((a - 0x4000) % 64 / 4)
  else if a < 0xA000 then some (.nodeW (BitVec.ofNat 9 ((a - 0x8000) / 16)) (BitVec.ofNat 2 ((a - 0x8000) % 16 / 4)))
  else none

/-- The location of a host access: alignment first (R63), then the address map (R64, R70). -/
def decodeOffset (off : Offset) : Option Loc :=
  if aligned off then locate off.toNat else none

/-- The byte offset of a location, the column "element to offset" of R70. -/
def Loc.byteOffset : Loc → Nat
  | .cmd => 0x0000
  | .status => 0x0004
  | .errcode => 0x0008
  | .errinfo => 0x000C
  | .symlen => 0x0010
  | .bitlen => 0x0014
  | .nleaves => 0x0018
  | .nnodes => 0x001C
  | .root => 0x0020
  | .maxlen => 0x0024
  | .symcap => 0x0028
  | .bitcap => 0x002C
  | .freq sym => 0x0400 + 4 * sym.toNat
  | .symbufW n => 0x1000 + 4 * n.toNat
  | .bitbufW n => 0x2000 + 4 * n.toNat
  | .lenw sym => 0x4000 + 64 * sym.toNat
  | .cw sym q => 0x4000 + 64 * sym.toNat + 4 + 4 * q.toNat
  | .nodeW i k => 0x8000 + 16 * i.toNat + 4 * k.toNat

/-- The offset of a location as the port carries it (R60, R97). -/
def Loc.offset (l : Loc) : Offset := BitVec.ofNat 16 l.byteOffset

/-- Whether the host may read a location: RO and RW ones (R64, R70). Only `CMD` is write-only. -/
def Loc.readable : Loc → Bool
  | .cmd => false
  | .status => true
  | .errcode => true
  | .errinfo => true
  | .symlen => true
  | .bitlen => true
  | .nleaves => true
  | .nnodes => true
  | .root => true
  | .maxlen => true
  | .symcap => true
  | .bitcap => true
  | .freq _ => true
  | .symbufW _ => true
  | .bitbufW _ => true
  | .lenw _ => true
  | .cw _ _ => true
  | .nodeW _ _ => true

/-- Whether the host may write a location: WO and RW ones (R64, R70). -/
def Loc.writable : Loc → Bool
  | .cmd => true
  | .status => false
  | .errcode => false
  | .errinfo => false
  | .symlen => true
  | .bitlen => true
  | .nleaves => false
  | .nnodes => false
  | .root => false
  | .maxlen => false
  | .symcap => false
  | .bitcap => false
  | .freq _ => true
  | .symbufW _ => true
  | .bitbufW _ => true
  | .lenw _ => true
  | .cw _ _ => true
  | .nodeW _ _ => false

/-- Value legality of a host write (R65): the length registers take values up to their buffer's capacity and `LENW` values
below 256; every other location takes any word. -/
def Loc.legalValue (l : Loc) (v : Word) : Bool :=
  match l with
  | .symlen => decide (v.toNat ≤ Config.symCap)
  | .bitlen => decide (v.toNat ≤ Config.bitCap)
  | .lenw _ => v.extractLsb' 8 24 == 0
  | _ => true

end Sys2Proof
end

