-- ==== Sys2Proof/Machine/State.lean ====
section
/-! DEFINITION. The state of HUFFENG as plain data (spec/10_state.md R20 to R45), the reasons a step can stop, and the state
after a hardware reset (R47, R230). Hidden state (R46) lives inside one command and is no field: it is the local data of
the meanings (`Merge`, `Decoder`, the arguments of `visit` and `packLoop`). -/

namespace Sys2Proof.Machine

/-- The bytes of `SYMBUF` or `BITBUF`: pairs (index, byte), indices strictly rising. An index that is not listed is `UNSPEC`
(R45), so the form is canonical and an all-`UNSPEC` buffer is the empty list. -/
abbrev Memory := List Host.Cell

/-- A table of `2^w` entries indexed by `w` bits: the entries in ascending index order, with their number. `FREQ` and `CODETAB`
are indexed by a symbol, `NODE` by a node index, `CW` by a word number. -/
structure Table (α : Type) (w : Nat) where
  vals : List α
  size : vals.length = 2 ^ w
  deriving DecidableEq, Repr

/-- The table whose every entry is `x`. -/
def Table.fill {α : Type} (w : Nat) (x : α) : Table α w where
  vals := List.replicate (2 ^ w) x
  size := List.length_replicate

/-- One `NODE` entry (R39). `SYM` is meaningful for a Leaf only and `LEFT`, `RIGHT` for an Internal only; the fields a kind
does not carry read 0 (R40). A Placeholder's frequency is always 0 (R126). -/
inductive Node where
  | free
  | leaf (sym : Byte) (freq : NodeFreq)
  | internal (freq : NodeFreq) (left right : NodeIx)
  | placeholder
  deriving DecidableEq, Repr

/-- One `CODETAB` entry (R37, R38): `LEN`, and the 256 stored bits `CODE` as the eight words `CW[0 .. 7]`. -/
structure CodeEntry where
  len : BitVec 8
  cw  : Table Word 3
  deriving DecidableEq, Repr

/-- The entry with every field 0: no code (R37). -/
def CodeEntry.empty : CodeEntry := { len := 0, cw := Table.fill 3 0 }

/-- The type of `FREQ` (R36). -/
abbrev FreqTable := Table Word 8
/-- The type of `CODETAB` (R37). -/
abbrev CodeTable := Table CodeEntry 8
/-- The type of `NODE`, the arena of the tree (R39). -/
abbrev Arena := Table Node 9

/-- Everything the spec gives the machine. The last three fields are the model's own: the host's accesses still to come, the
port's last answer, and the counter of free values. -/
structure State where
  /-- `ERRCODE[3:0]` (R26). `STATUS.ERR` is derived from it (R25). -/
  errcode   : BitVec 4
  /-- `ERRINFO` (R27). -/
  errinfo   : Word
  /-- `STATUS.TREE_VALID`, the one stored bit of `STATUS` (R25). -/
  treeValid : Bool
  /-- `SYMLEN` (R28). -/
  symlen    : Word
  /-- `BITLEN` (R29). -/
  bitlen    : Word
  /-- `NLEAVES` (R30). -/
  nleaves   : Word
  /-- `NNODES` (R31). -/
  nnodes    : Word
  /-- `ROOT` (R32). -/
  root      : Word
  /-- `MAXLEN` (R33). -/
  maxlen    : Word
  /-- `FREQ[0 .. 255]` (R36). -/
  freq      : FreqTable
  /-- `CODETAB[0 .. 255]` (R37). -/
  codetab   : CodeTable
  /-- `NODE[0 .. 511]` (R39). -/
  node      : Arena
  /-- `SYMBUF[0 .. 4095]` (R42). -/
  symbuf    : Memory
  /-- `BITBUF[0 .. 4095]` (R43). -/
  bitbuf    : Memory
  /-- The model's own: the host accesses and resets still to come, in the order the port receives them (R8, R75, U5). -/
  pending   : List Event
  /-- The model's own: the port's answer to the last access, none right after reset (R60). -/
  answer    : Option Answer
  /-- The model's own: how many free bytes have been drawn (log entry 3). -/
  draws     : Nat
  deriving DecidableEq, Repr

/-- Why the machine stops. -/
inductive Fault where
  /-- Raised by GENERATE and ENCODE when `TREE_VALID = 1` and the arena is no tree: a Free entry is reached from `ROOT`, or a
  path is longer than 255. R41 calls such a state unreachable and R211 an unrecoverable assertion failure. Safe. -/
  | treeAssertion
  /-- Raised by the port on any access while `ERRCODE` is 8 to 15, which no rule writes: "only hardware reset is defined to
  recover" (R211, U4). Safe. -/
  | reservedErrcode
  deriving DecidableEq, Repr

/-- Why a command is given no meaning. -/
inductive Refusal where
  /-- An arm of `exec` whose instruction has no meaning yet. Safe. -/
  | notModelled (mnemonic : String)
  /-- Raised by COUNT, PACK, ENCODE and DECODE when a byte of the input range is `UNSPEC`: "this spec gives such a command no
  meaning, and a model should refuse it" (R45, R212, U1). Safe. -/
  | unspecInput
  deriving DecidableEq, Repr

/-- The state after a hardware reset (R47, R230): every register and table 0, every buffer byte `UNSPEC`; the host has asked
for nothing yet (log entry 2). -/
def State.reset : State where
  errcode := 0
  errinfo := 0
  treeValid := false
  symlen := 0
  bitlen := 0
  nleaves := 0
  nnodes := 0
  root := 0
  maxlen := 0
  freq := Table.fill 8 0
  codetab := Table.fill 8 CodeEntry.empty
  node := Table.fill 9 Node.free
  symbuf := []
  bitbuf := []
  pending := []
  answer := none
  draws := 0

end Sys2Proof.Machine
end

