-- ==== Sys2Proof/Machine/Ops.lean ====
section
/-! DEFINITION. The shared operations: one bit of a vector, the buffers' bytes, the tables' entries, raising an error and
acknowledging it, the pending-error gate, the resets (spec/00_scope.md R12, R13; spec/10_state.md R45, R47, R48;
spec/30_encoding.md R92; spec/60_exceptions.md R200, R204, R205, R206). -/

namespace Sys2Proof.Machine

/-- `v` with bit `k` set to `b` and every other bit unchanged (the form of `BitPut`, R68). -/
def putBit {n : Nat} (v : BitVec n) (k : Nat) (b : Bool) : BitVec n :=
  if b then v ||| (1#n <<< k) else v &&& ~~~(1#n <<< k)

/-- The vector whose bit `n - 1 - r` is element `r` of a bit-string, most significant bit first; positions the bit-string
does not reach are 0. Stream bits in a byte (R68, R69) and code elements in a `CW` word (R38) are laid out so. -/
def packBits (n : Nat) (bits : List Bool) : BitVec n :=
  (List.range n).foldl (fun v r => putBit v (n - 1 - r) (bits.getD r false)) 0#n

/-! ## The byte buffers -/

/-- The canonical form of a buffer of `cap` bytes: indices strictly rising and below `cap` (R42, R43). -/
abbrev Memory.wf (m : Memory) (cap : Nat) : Prop :=
  m.Pairwise (fun x y => x.1 < y.1) ∧ ∀ c ∈ m, c.1 < cap

/-- The byte at an index; `none` is `UNSPEC` (R45). -/
def Memory.read : Memory → Nat → Option Byte
  | [], _ => none
  | (k, v) :: rest, a => if k = a then some v else Memory.read rest a

/-- Store a byte, which becomes specified (R45), keeping the indices strictly rising. -/
def Memory.write : Memory → Nat → Byte → Memory
  | [], a, b => [(a, b)]
  | (k, v) :: rest, a, b =>
    if a < k then (a, b) :: (k, v) :: rest
    else if a = k then (a, b) :: rest
    else (k, v) :: Memory.write rest a b

/-- Store bytes at consecutive indices from `a`. -/
def Memory.writeBytes : Memory → Nat → List Byte → Memory
  | m, _, [] => m
  | m, a, b :: bs => Memory.writeBytes (m.write a b) (a + 1) bs

/-- Every byte of the buffer `UNSPEC` (R45). -/
def Memory.unspecAll : Memory := []

/-- The `n` values of `f` from `start` on, when all of them are specified. -/
def readSeq {α : Type} (f : Nat → Option α) : Nat → Nat → Option (List α)
  | _, 0 => some []
  | start, n + 1 =>
    match f start, readSeq f (start + 1) n with
    | some x, some xs => some (x :: xs)
    | _, _ => none

/-! ## The tables -/

/-- The entry at an index (R12: `FREQ[s]`, `CODETAB[s]`, `NODE[i]`, `CW[q]`). -/
def Table.get {α : Type} {w : Nat} (t : Table α w) (i : BitVec w) : α :=
  t.vals[i.toNat]'(by rw [t.size]; exact i.isLt)

/-- The table with the entry at one index replaced. -/
def Table.set {α : Type} {w : Nat} (t : Table α w) (i : BitVec w) (x : α) : Table α w where
  vals := t.vals.set i.toNat x
  size := by rw [List.length_set, t.size]

/-- All indices of `w` bits in ascending order. -/
def allIndices (w : Nat) : List (BitVec w) := (List.range (2 ^ w)).map (BitVec.ofNat w)

/-- All 256 symbol values in ascending order. -/
def allSymbols : List Byte := allIndices 8

/-- The entries of a table with their indices, in ascending order of index. -/
def Table.entries {α : Type} {w : Nat} (t : Table α w) : List (BitVec w × α) := (allIndices w).zip t.vals

/-- The empty code table: every field of every entry 0 (R37). -/
def emptyTable : CodeTable := Table.fill 8 CodeEntry.empty

/-- The cleared arena: every entry Free, all fields 0 (R39, R121). -/
def freeArena : Arena := Table.fill 9 Node.free

/-! ## The fields of a node (R39, R40): a field that the entry's kind does not carry is 0 -/

/-- `KIND`: 0 Free, 1 Leaf, 2 Internal, 3 Placeholder. -/
def Node.kind : Node → BitVec 2
  | .free => 0
  | .leaf _ _ => 1
  | .internal _ _ _ => 2
  | .placeholder => 3

/-- `SYM`, 0 unless Leaf. -/
def Node.sym : Node → Byte
  | .leaf s _ => s
  | _ => 0

/-- `FREQ`, the aggregate frequency; 0 for Free and Placeholder. -/
def Node.freq : Node → NodeFreq
  | .leaf _ f => f
  | .internal f _ _ => f
  | _ => 0

/-- `LEFT`, 0 unless Internal. -/
def Node.left : Node → NodeIx
  | .internal _ l _ => l
  | _ => 0

/-- `RIGHT`, 0 unless Internal. -/
def Node.right : Node → NodeIx
  | .internal _ _ r => r
  | _ => 0

/-! ## Errors: what takes the place of exceptions -/

/-- The errors a command can end with (R200). -/
inductive ErrKind where
  | emptyInput
  | truncatedStream
  | corruptStream
  | noCode
  | capacity
  | noTree
  | badCommand
  deriving DecidableEq, Repr

/-- The code held in `ERRCODE` for each error (R200). -/
def ErrKind.code : ErrKind → BitVec 4
  | .emptyInput => 1
  | .truncatedStream => 2
  | .corruptStream => 3
  | .noCode => 4
  | .capacity => 5
  | .noTree => 6
  | .badCommand => 7

/-- `raise E(info)` after the command's own clean-up: `ERRCODE <- code(E)`, `ERRINFO <- info`, and nothing else (R13, R204). -/
def raise (e : ErrKind) (info : Word) (s : State) : State :=
  { s with errcode := e.code, errinfo := info }

/-- The acknowledgement, the "return" from an error: `ERRCODE` and `ERRINFO` are zeroed and nothing else changes (R191, R206). -/
def acknowledge (s : State) : State :=
  { s with errcode := 0, errinfo := 0 }

/-- The pending-error gate: while `ERRCODE != 0` an operation command is ignored, changing no state (R92 step 3, R205). -/
def whenClear (s : State) (run : State → Host.Outcome State Fault Refusal) : Host.Outcome State Fault Refusal :=
  if s.errcode = 0 then run s else .next s

/-- A phase of an operation command: the state of its success, or (as an error) the state its `raise` left. -/
abbrev Phase := Except State State

/-- The state a phase leaves, whichever way it ended: a failed command is a next state too (R203). -/
def Phase.state : Phase → State
  | .ok t => t
  | .error t => t

/-! ## Resets -/

/-- Hardware reset (R47, R230): every piece of the engine's state at its reset value. What the host still has to send and the
count of free values drawn are the environment's, not the engine's. -/
def hardReset (s : State) : State :=
  { State.reset with pending := s.pending, draws := s.draws }

/-- SRESET's effect (R48, R192): every register, `FREQ`, `NODE` and `CODETAB` at their reset values; the two buffers keep
their bytes, specified or not. -/
def softReset (s : State) : State :=
  { s with
    errcode := 0, errinfo := 0, symlen := 0, bitlen := 0, nleaves := 0, nnodes := 0, root := 0, maxlen := 0
    treeValid := false
    freq := Table.fill 8 0
    codetab := emptyTable
    node := freeArena }

end Sys2Proof.Machine
end

