-- ==== Sys2Proof/Machine/Operands.lean ====
section
/-! DEFINITION. The implicit operands of the commands (spec/30_encoding.md R94; spec/10_state.md R22): the message, the bit
stream, the frequency mapping's keys and the codes of the table. -/

namespace Sys2Proof.Machine

/-- The message `SYMBUF[0 .. SYMLEN-1]` (R28, R67); `none` when a byte of it is `UNSPEC` (R45). -/
def State.message (s : State) : Option (List Byte) :=
  readSeq s.symbuf.read 0 s.symlen.toNat

/-- `BitGet(p)`: stream bit `p` is bit `7 - (p mod 8)` of byte `p div 8` (R68). -/
def bitGet (m : Memory) (p : Nat) : Option Bool :=
  (m.read (p / 8)).map (fun b => b.getLsbD (7 - p % 8))

/-- The stream bits `0 .. BITLEN-1` of `BITBUF` (R29, R68); `none` when one of them lies in an `UNSPEC` byte (R45). -/
def State.stream (s : State) : Option (List Bool) :=
  readSeq (bitGet s.bitbuf) 0 s.bitlen.toNat

/-- The symbols that are keys of the frequency mapping, ascending: those with `FREQ[s] != 0` (R36, R122). -/
def presentSymbols (freq : FreqTable) : List Byte :=
  (freq.entries.filter (fun e => e.2 != 0)).map (fun e => e.1)

/-- Element `j` of an entry's stored code: bit `31 - (j mod 32)` of `CW[j div 32]` (R38). -/
def CodeEntry.codeBit (e : CodeEntry) (j : Nat) : Bool :=
  (e.cw.get (BitVec.ofNat 3 (j / 32))).getLsbD (31 - j % 32)

/-- `code(s)`: the bit-string of length `LEN` of an entry (R12). -/
def CodeEntry.code (e : CodeEntry) : List Bool :=
  (List.range e.len.toNat).map e.codeBit

/-- The entry that holds the code `c`: `LEN = |c|`, element `j` at its place, every bit from `|c|` on 0 (R38, R142). -/
def CodeEntry.ofCode (c : List Bool) : CodeEntry :=
  { len := BitVec.ofNat 8 c.length
    cw := { vals := (List.range 8).map (fun q => packBits 32 (c.drop (32 * q))), size := rfl } }

/-- The code of a symbol in a table (R12). -/
def codeOf (t : CodeTable) (sym : Byte) : List Bool := (t.get sym).code

/-- The longest code of a table, 0 when it is empty (R33, R172). -/
def longestCode (t : CodeTable) : Nat :=
  t.entries.foldl (fun m e => max m e.2.len.toNat) 0

end Sys2Proof.Machine
end

