-- ==== Sys2Proof/Machine/CodeTable.lean ====
section
/-! DEFINITION. CodeTableGenerator, the GENERATE command (spec/42_code_table_generator.md R140 to R142). -/

namespace Sys2Proof.Machine

/-- `visit(i, c)` of R142, depth first and left before right: the (symbol, path) pairs of the leaves below node `i`, whose
own path is `c`. The fuel bounds the depth; `none` is the assertion failure of R211 (a Free entry is reached, or a path of
more than 255 edges), which no tree of R41 meets. -/
def visit (nodes : Arena) : Nat → NodeIx → List Bool → Option (List (Byte × List Bool))
  | 0, _, _ => none
  | fuel + 1, i, c =>
    match nodes.get i with
    | .free => none
    | .placeholder => some []
    | .leaf s _ => some [(s, c)]
    | .internal _ l r =>
      match visit nodes fuel l (c ++ [false]), visit nodes fuel r (c ++ [true]) with
      | some a, some b => some (a ++ b)
      | _, _ => none

/-- The depth a traversal may reach: a path has at most `LEN_MAX = 255` edges, so at most 256 nodes (R7, R142). -/
def visitFuel : Nat := Config.lenMax + 1

/-- The index `ROOT` names (R32). -/
def State.rootIx (s : State) : NodeIx := s.root.setWidth 9

/-- The leaves' codes as the traversal from `ROOT` records them (R142). -/
def State.leafCodes (s : State) : Option (List (Byte × List Bool)) :=
  visit s.node visitFuel s.rootIx []

/-- The table that records every (symbol, code) pair, over an empty table (R142). -/
def tableOf (codes : List (Byte × List Bool)) : CodeTable :=
  codes.foldl (fun t p => t.set p.1 (CodeEntry.ofCode p.2)) emptyTable

/-- `M`, the longest recorded code (R142). -/
def longestOf (codes : List (Byte × List Bool)) : Nat :=
  codes.foldl (fun m p => max m p.2.length) 0

/-- The state once the table of the recorded codes is stored: `CODETAB` and `MAXLEN` (R142). -/
def storeTable (codes : List (Byte × List Bool)) (s : State) : State :=
  { s with codetab := tableOf codes, maxlen := BitVec.ofNat 32 (longestOf codes) }

/-- GENERATE (R141): NoTreeError without a valid tree, else the table of the tree. -/
def execGenerate (s : State) : Host.Outcome State Fault Refusal :=
  whenClear s fun s =>
    if s.treeValid then
      match s.leafCodes with
      | none => .fault .treeAssertion
      | some codes => .next (storeTable codes s)
    else .next (raise .noTree 0 s)

end Sys2Proof.Machine
end

