-- ==== Sys2Proof/Machine/Decoder.lean ====
section
/-! DEFINITION. Decoder, the DECODE command (spec/44_decoder.md R170 to R175). -/

namespace Sys2Proof.Machine

/-- Whether an entry's whole code, length and every bit, equals the accumulator (R171). -/
def CodeEntry.matches (e : CodeEntry) (acc : List Bool) : Bool :=
  e.len.toNat == acc.length && e.code == acc

/-- `match(a)`: the least symbol whose code is exactly `a` (R171). -/
def matchCode (t : CodeTable) (acc : List Bool) : Option Byte :=
  (t.entries.find? (fun e => e.2.matches acc)).map (fun e => e.1)

/-- The decoder's hidden state (R46 (c), R173): the accumulator, and the symbols emitted so far in order; the output count
`n` is their number. -/
structure Decoder where
  acc : List Bool
  out : List Byte
  deriving DecidableEq, Repr

/-- One decoder step for bit `v` at stream position `p` (R173). The error carries the stream position of the accumulator's
first bit. -/
def decodeStep (t : CodeTable) (M : Nat) (d : Decoder) (v : Bool) (p : Nat) :
    Except (ErrKind × Nat) Decoder :=
  let acc := d.acc ++ [v]
  match matchCode t acc with
  | some s =>
    if d.out.length = Config.symCap then .error (.capacity, p + 1 - acc.length)
    else .ok { acc := [], out := d.out ++ [s] }
  | none =>
    if M < acc.length then .error (.corruptStream, p + 1 - acc.length)
    else .ok { acc := acc, out := d.out }

/-- The steps for the bits from stream position `p` on (R172). -/
def decodeLoop (t : CodeTable) (M : Nat) : Nat → List Bool → Decoder → Except (ErrKind × Nat) Decoder
  | _, [], d => .ok d
  | p, v :: rest, d =>
    match decodeStep t M d v p with
    | .error e => .error e
    | .ok d' => decodeLoop t M (p + 1) rest d'

/-- The decoded symbols of a stream: after the last bit the accumulator must be empty, or the stream is truncated (R172,
R174). -/
def decodeStream (t : CodeTable) (bits : List Bool) : Except (ErrKind × Nat) (List Byte) :=
  match decodeLoop t (longestCode t) 0 bits { acc := [], out := [] } with
  | .error e => .error e
  | .ok d => if d.acc = [] then .ok d.out else .error (.truncatedStream, bits.length - d.acc.length)

/-- The clean-up and the error of a failed DECODE: `fail E(x)` of R172. -/
def decodeFail (e : ErrKind) (x : Nat) (s : State) : State :=
  raise e (BitVec.ofNat 32 x) { s with symlen := 0, symbuf := Memory.unspecAll }

/-- The DECODE phase on a specified stream (R172). -/
def runDecode (bits : List Bool) (s : State) : Phase :=
  let s := { s with maxlen := BitVec.ofNat 32 (longestCode s.codetab) }
  match decodeStream s.codetab bits with
  | .ok out =>
    .ok { s with symbuf := s.symbuf.writeBytes 0 out, symlen := BitVec.ofNat 32 out.length }
  | .error (e, x) => .error (decodeFail e x s)

/-- DECODE (R172). -/
def execDecode (s : State) : Host.Outcome State Fault Refusal :=
  whenClear s fun s =>
    match s.stream with
    | none => .refused .unspecInput
    | some bits => .next (runDecode bits s).state

end Sys2Proof.Machine
end

