-- ==== Sys2Proof/Machine/Frequency.lean ====
section
/-! DEFINITION. FrequencyTable, the COUNT command (spec/40_frequency_count.md R110, R112). -/

namespace Sys2Proof.Machine

/-- One turn of COUNT's loop: `FREQ[x] <- FREQ[x] + 1` (R112). -/
def countOne (freq : FreqTable) (x : Byte) : FreqTable :=
  freq.set x (freq.get x + 1)

/-- The counts of a message, from all entries 0 (R112). -/
def countSymbols (msg : List Byte) : FreqTable :=
  msg.foldl countOne (Table.fill 8 0)

/-- The COUNT phase on a specified message (R112): only `FREQ` changes. -/
def runCount (msg : List Byte) (s : State) : State :=
  { s with freq := countSymbols msg }

/-- COUNT (R112). -/
def execCount (s : State) : Host.Outcome State Fault Refusal :=
  whenClear s fun s =>
    match s.message with
    | none => .refused .unspecInput
    | some msg => .next (runCount msg s)

end Sys2Proof.Machine
end

