-- ==== Sys2Proof/Machine/Tree.lean ====
section
/-! DEFINITION. TreeBuilder, the BUILD command (spec/41_tree_builder.md R120 to R126). -/

namespace Sys2Proof.Machine

/-- `zext_40` of a count (R122). -/
def widen (c : Word) : NodeFreq := c.setWidth 40

/-- The queue order: `key(a) < key(b)` for the keys (`NODE[i].FREQ`, `i`), compared lexicographically (R123). -/
def keyLt (nodes : Arena) (a b : NodeIx) : Bool :=
  let fa := (nodes.get a).freq
  let fb := (nodes.get b).freq
  fa.ult fb || (fa == fb && a.ult b)

/-- `min_key(Q)` of the queue `x :: q` (R14, R123). -/
def minKey (nodes : Arena) (x : NodeIx) (q : List NodeIx) : NodeIx :=
  q.foldl (fun m y => if keyLt nodes y m then y else m) x

/-- Pop the node of the lowest key: it and the queue without it; `none` on the empty queue (R125). -/
def popMin (nodes : Arena) : List NodeIx → Option (NodeIx × List NodeIx)
  | [] => none
  | x :: q => some (minKey nodes x q, (x :: q).erase (minKey nodes x q))

/-- The hidden state of BUILD (R46 (a), (d)): the arena so far, the queue `Q` and the next free index `n`. -/
structure Merge where
  nodes : Arena
  queue : List NodeIx
  next  : Nat
  deriving DecidableEq, Repr

/-- Leaf seeding (R122): one Leaf per present symbol, ascending, at consecutive indices from `j`. -/
def seedLeaves (freq : FreqTable) : Arena → Nat → List Byte → Arena
  | nodes, _, [] => nodes
  | nodes, j, s :: rest =>
    seedLeaves freq (nodes.set (BitVec.ofNat 9 j) (.leaf s (widen (freq.get s)))) (j + 1) rest

/-- One turn of the merge loop (R125): pop the two lowest keys, first popped left, and push their Internal node; `none`
when fewer than two nodes are left. -/
def mergeOnce (m : Merge) : Option Merge :=
  match popMin m.nodes m.queue with
  | none => none
  | some (a, q1) =>
    match popMin m.nodes q1 with
    | none => none
    | some (b, q2) =>
      some
        { nodes := m.nodes.set (BitVec.ofNat 9 m.next)
            (.internal ((m.nodes.get a).freq + (m.nodes.get b).freq) a b)
          queue := q2 ++ [BitVec.ofNat 9 m.next]
          next := m.next + 1 }

/-- `while |Q| > 1` (R125); the loop runs `k - 1` times, so `k` turns of fuel are enough. -/
def mergeLoop : Nat → Merge → Merge
  | 0, m => m
  | fuel + 1, m =>
    match mergeOnce m with
    | none => m
    | some m' => mergeLoop fuel m'

/-- The queue and arena BUILD starts merging from: the `k` leaves on a cleared arena (R121, R122, R125). -/
def seedMerge (freq : FreqTable) : Merge :=
  { nodes := seedLeaves freq freeArena 0 (presentSymbols freq)
    queue := (List.range (presentSymbols freq).length).map (BitVec.ofNat 9)
    next := (presentSymbols freq).length }

/-- The one-symbol wrapper (R126): the Placeholder at 1 and the Internal node over the Leaf (left) and it (right) at 2. -/
def wrapSingle (nodes : Arena) : Arena :=
  (nodes.set 1 .placeholder).set 2 (.internal ((nodes.get 0).freq + 0) 0 1)

/-- The arena and `NNODES` that BUILD leaves for a non-empty `FREQ` (R125, R126). -/
def buildArena (freq : FreqTable) : Arena × Nat :=
  if (presentSymbols freq).length = 1 then (wrapSingle (seedMerge freq).nodes, 3)
  else
    let m := mergeLoop (presentSymbols freq).length (seedMerge freq)
    (m.nodes, m.next)

/-- What BUILD leaves of the tree when there is no symbol (R124). -/
def clearTree (s : State) : State :=
  { s with node := freeArena, nleaves := 0, nnodes := 0, root := 0, treeValid := false }

/-- The BUILD phase (R121): EmptyInputError on an all-zero `FREQ` (R124), else the tree. -/
def runBuild (s : State) : Phase :=
  if presentSymbols s.freq = [] then .error (raise .emptyInput 0 (clearTree s))
  else
    let t := buildArena s.freq
    .ok { s with
      node := t.1
      nleaves := BitVec.ofNat 32 (presentSymbols s.freq).length
      nnodes := BitVec.ofNat 32 t.2
      root := BitVec.ofNat 32 (t.2 - 1)
      treeValid := true }

/-- BUILD (R121). -/
def execBuild (s : State) : Host.Outcome State Fault Refusal :=
  whenClear s fun s => .next (runBuild s).state

end Sys2Proof.Machine
end

