-- ==== Sys2Proof/Machine/Encoder.lean ====
section
/-! DEFINITION. Encoder, the PACK and ENCODE commands (spec/43_encoder_bit_packer.md R151, R152, R156). -/

namespace Sys2Proof.Machine

/-- PACK's loop over the symbols from index `i` on (R152): for each, NoCodeError before CapacityError, then append its code.
The error carries the index of the symbol. -/
def packLoop (t : CodeTable) : Nat → List Byte → List Bool → Except (ErrKind × Nat) (List Bool)
  | _, [], out => .ok out
  | i, s :: rest, out =>
    if (t.get s).len = 0 then .error (.noCode, i)
    else if Config.bitCap < out.length + (t.get s).len.toNat then .error (.capacity, i)
    else packLoop t (i + 1) rest (out ++ codeOf t s)

/-- The bytes that hold a bit-string, most significant bit first, the padding bits 0 (R68, R69, R152). -/
def streamBytes (out : List Bool) : List Byte :=
  (List.range ((out.length + 7) / 8)).map (fun b => packBits 8 (out.drop (8 * b)))

/-- The clean-up and the error of a failed PACK: `fail E(i)` of R152. -/
def packFail (e : ErrKind) (i : Nat) (s : State) : State :=
  raise e (BitVec.ofNat 32 i) { s with bitlen := 0, bitbuf := Memory.unspecAll }

/-- The PACK phase on a specified message (R152). -/
def runPack (msg : List Byte) (s : State) : Phase :=
  match packLoop s.codetab 0 msg [] with
  | .ok out =>
    .ok { s with bitbuf := s.bitbuf.writeBytes 0 (streamBytes out), bitlen := BitVec.ofNat 32 out.length }
  | .error (e, i) => .error (packFail e i s)

/-- PACK (R152). -/
def execPack (s : State) : Host.Outcome State Fault Refusal :=
  whenClear s fun s =>
    match s.message with
    | none => .refused .unspecInput
    | some msg => .next (runPack msg s).state

/-- What ENCODE adds to a BUILD that raised EmptyInputError: an empty table, `MAXLEN` and `BITLEN` 0 (R156). -/
def encodeEmpty (s : State) : State :=
  { s with codetab := emptyTable, maxlen := 0, bitlen := 0 }

/-- ENCODE (R156): COUNT, BUILD, GENERATE and PACK in this order on one specified message; a failed BUILD ends it. The gate
is applied once, to ENCODE as a whole. -/
def execEncode (s : State) : Host.Outcome State Fault Refusal :=
  whenClear s fun s =>
    match s.message with
    | none => .refused .unspecInput
    | some msg =>
      match runBuild (runCount msg s) with
      | .error t => .next (encodeEmpty t)
      | .ok t =>
        match t.leafCodes with
        | none => .fault .treeAssertion
        | some codes => .next (runPack msg (storeTable codes t)).state

end Sys2Proof.Machine
end

