-- ==== Sys2Proof/Machine/System.lean ====
section
/-! DEFINITION. The system commands NOP, CLRERR and SRESET (spec/45_system_commands.md R190 to R192). They execute whether or
not an error is pending. -/

namespace Sys2Proof.Machine

/-- NOP: no state changes (R190). -/
def execNop (s : State) : Host.Outcome State Fault Refusal := .next s

/-- CLRERR: `ERRCODE <- 0; ERRINFO <- 0` (R191). -/
def execClrerr (s : State) : Host.Outcome State Fault Refusal := .next (acknowledge s)

/-- SRESET: the reset state, but the two buffers keep their bytes (R192). -/
def execSreset (s : State) : Host.Outcome State Fault Refusal := .next (softReset s)

end Sys2Proof.Machine
end

