-- ==== Sys2Proof/Machine/Flags.lean ====
section
/-! DEFINITION. The status flags and the words the host reads back: `STATUS` (spec/10_state.md R23, R25), the four words of a
`NODE` entry (R40) and the words of the two buffers (spec/20_memory.md R66). -/

namespace Sys2Proof.Machine

/-- `STATUS.ERR`: 1 exactly when `ERRCODE != 0`; not separate storage (R25). -/
def State.err (s : State) : Bool := s.errcode != 0

/-- `STATUS.BUSY`: always 0, because a command completes before the next access is accepted (R25, R61). -/
def State.busy (_ : State) : Bool := false

/-- The word of `STATUS`: bit 0 `ERR`, bit 1 `TREE_VALID`, bit 2 `BUSY`, bits 31:3 read 0 (R25). -/
def State.status (s : State) : Word :=
  0#29 ++ BitVec.ofBool s.busy ++ BitVec.ofBool s.treeValid ++ BitVec.ofBool s.err

/-- Word `k` of a `NODE` entry on the host port (R40). -/
def Node.word (n : Node) (k : BitVec 2) : Word :=
  match k.toNat with
  | 0 => 0#16 ++ n.sym ++ 0#6 ++ n.kind
  | 1 => n.freq.extractLsb' 0 32
  | 2 => 0#24 ++ n.freq.extractLsb' 32 8
  | _ => 0#7 ++ n.right ++ 0#7 ++ n.left

/-- One byte lane of a buffer word: the byte, or the free value number `draw` where the byte is `UNSPEC` (R45, U2). -/
def lane (m : Memory) (a draw : Nat) : Byte := (m.read a).getD (Config.freeByte draw)

/-- The word of a buffer at byte index `a`, little-endian (R66); each `UNSPEC` lane is a free value of its own (U2). -/
def bufferWord (m : Memory) (a draws : Nat) : Word :=
  lane m (a + 3) (draws + 3) ++ lane m (a + 2) (draws + 2) ++ lane m (a + 1) (draws + 1) ++ lane m a draws

/-- Whether one of the four lanes of a buffer word is `UNSPEC` (R45). -/
def bufferUnspec (m : Memory) (a : Nat) : Bool :=
  (m.read a).isNone || (m.read (a + 1)).isNone || (m.read (a + 2)).isNone || (m.read (a + 3)).isNone

/-- The four bytes a host write stores, lowest index first (R66, R73). -/
def wordBytes (v : Word) : List Byte :=
  [v.extractLsb' 0 8, v.extractLsb' 8 8, v.extractLsb' 16 8, v.extractLsb' 24 8]

end Sys2Proof.Machine
end

