-- ==== Sys2Proof/Machine/Port.lean ====
section
/-! DEFINITION. The host port: reads, writes, the command register and the reset input (spec/20_memory.md R60 to R73;
spec/30_encoding.md R92, R95; spec/70_reset_and_hazards.md R230). One access, with the whole execution of the command it
triggers, is one atomic step (R8, R61). -/

namespace Sys2Proof.Machine

/-! ## Answers (R60) -/

/-- `OKAY` to a read, with its data. -/
def Answer.read (v : Word) : Answer := { resp := .okay, rdata := some v }
/-- `OKAY` to a write; a write has no read data. -/
def Answer.written : Answer := { resp := .okay, rdata := none }
/-- `SLVERR` to a read; the read data is 0. -/
def Answer.readRefused : Answer := { resp := .slverr, rdata := some 0 }
/-- `SLVERR` to a write. -/
def Answer.writeRefused : Answer := { resp := .slverr, rdata := none }

/-- The state with the port's answer set. -/
def State.answered (s : State) (a : Answer) : State := { s with answer := some a }

/-! ## Host reads (R72) -/

/-- The byte index of the first byte of buffer word `n` (R70). -/
def wordBase (n : BitVec 10) : Nat := 4 * n.toNat

/-- The word at a location (R72). `CMD` is write-only and holds no state (R24). -/
def readLoc (s : State) : Loc → Word
  | .cmd => 0
  | .status => s.status
  | .errcode => s.errcode.setWidth 32
  | .errinfo => s.errinfo
  | .symlen => s.symlen
  | .bitlen => s.bitlen
  | .nleaves => s.nleaves
  | .nnodes => s.nnodes
  | .root => s.root
  | .maxlen => s.maxlen
  | .symcap => BitVec.ofNat 32 Config.symCap
  | .bitcap => BitVec.ofNat 32 Config.bitCap
  | .freq sym => s.freq.get sym
  | .symbufW n => bufferWord s.symbuf (wordBase n) s.draws
  | .bitbufW n => bufferWord s.bitbuf (wordBase n) s.draws
  | .lenw sym => (s.codetab.get sym).len.setWidth 32
  | .cw sym q => (s.codetab.get sym).cw.get q
  | .nodeW i k => (s.node.get i).word k

/-- Whether a read of a location covers an `UNSPEC` byte lane (R45). -/
def readUnspec (s : State) : Loc → Bool
  | .symbufW n => bufferUnspec s.symbuf (wordBase n)
  | .bitbufW n => bufferUnspec s.bitbuf (wordBase n)
  | _ => false

/-- The counter of free values after a read: four are spent when a lane is `UNSPEC` (U2; log entry 3). -/
def afterDraw (s : State) (l : Loc) : State :=
  if readUnspec s l then { s with draws := s.draws + 4 } else s

/-- `HostRead(off)` (R63, R64, R71, R72): no side effect on any state of the engine. -/
def hostRead (off : Offset) (s : State) : State :=
  match decodeOffset off with
  | none => s.answered Answer.readRefused
  | some l =>
    if l.readable then (afterDraw s l).answered (Answer.read (readLoc s l))
    else s.answered Answer.readRefused

/-! ## Host writes (R73) -/

/-- A `CODETAB` entry after a host write of `LENW`: `LEN <- v[7:0]` (R73). -/
def CodeEntry.setLen (e : CodeEntry) (v : Word) : CodeEntry := { e with len := v.extractLsb' 0 8 }

/-- A `CODETAB` entry after a host write of `CW[q]` (R73). -/
def CodeEntry.setWord (e : CodeEntry) (q : BitVec 3) (v : Word) : CodeEntry :=
  { e with cw := e.cw.set q v }

/-- Store a word at a location other than `CMD` (R73): nothing but the addressed location changes. Read-only locations keep
their value; the port refuses a write there (R64). -/
def writeLoc (s : State) (l : Loc) (v : Word) : State :=
  match l with
  | .symlen => { s with symlen := v }
  | .bitlen => { s with bitlen := v }
  | .freq sym => { s with freq := s.freq.set sym v }
  | .symbufW n => { s with symbuf := s.symbuf.writeBytes (wordBase n) (wordBytes v) }
  | .bitbufW n => { s with bitbuf := s.bitbuf.writeBytes (wordBase n) (wordBytes v) }
  | .lenw sym => { s with codetab := s.codetab.set sym ((s.codetab.get sym).setLen v) }
  | .cw sym q => { s with codetab := s.codetab.set sym ((s.codetab.get sym).setWord q v) }
  | _ => s

/-- An illegal command word (R92 step 1, R95): BadCommandError with the word, unless an error is pending. -/
def badCommand (w : Word) (s : State) : State :=
  if s.errcode = 0 then raise .badCommand w s else s

/-- An outcome's next state changed by `f`; a fault or a refusal stays. -/
def mapNext (f : State → State) : Host.Outcome State Fault Refusal → Host.Outcome State Fault Refusal
  | .next t => .next (f t)
  | .fault r => .fault r
  | .refused r => .refused r

/-- A write to `CMD` (R92): legality first, then the command; the write is answered `OKAY` whatever the outcome (R65, R203). -/
def writeCommand (w : Word) (s : State) : Host.Outcome State Fault Refusal :=
  match decode w with
  | .error _ => .next ((badCommand w s).answered Answer.written)
  | .ok i => mapNext (fun t => t.answered Answer.written) (exec i s)

/-- `HostWrite(off, v)` (R73): alignment, mapping and kind, value legality, then the effect (R64). -/
def hostWrite (off : Offset) (v : Word) (s : State) : Host.Outcome State Fault Refusal :=
  match decodeOffset off with
  | none => .next (s.answered Answer.writeRefused)
  | some l =>
    if l = .cmd then writeCommand v s
    else if l.writable && l.legalValue v then .next ((writeLoc s l v).answered Answer.written)
    else .next (s.answered Answer.writeRefused)

/-! ## One event -/

/-- One host access (R60, R61). -/
def performAccess (a : Access) (s : State) : Host.Outcome State Fault Refusal :=
  match a with
  | .rd off => .next (hostRead off s)
  | .wr off v => hostWrite off v s

/-- One event at the engine's inputs (R8). Only hardware reset recovers from an `ERRCODE` of 8 to 15 (R211, U4). -/
def performEvent (e : Event) (s : State) : Host.Outcome State Fault Refusal :=
  match e with
  | .rst => .next (hardReset s)
  | .access a => if 7 < s.errcode.toNat then .fault .reservedErrcode else performAccess a s

/-- One step: the engine takes the next event off its inputs and performs it; with no event it holds its state (R8, R75,
R219). -/
def stepEvent (s : State) : Host.Outcome State Fault Refusal :=
  match s.pending with
  | [] => .next s
  | e :: rest => performEvent e { s with pending := rest }

/-- The host access that carries a command word of `nbits` bits: the write of it to `CMD` (R24, R90). -/
def commandEvent (nbits w : Nat) : Event :=
  .access (.wr Loc.cmd.offset (BitVec.ofNat 32 (w % 2 ^ nbits)))

end Sys2Proof.Machine
end

