-- ==== Sys2Proof/Machine/Step.lean ====
section
/-! DEFINITION. The step of the machine and the placing of a command where the next step takes it. HUFFENG fetches nothing
(spec/10_state.md R21): its program is the host's sequence of accesses, so a command word is "placed" as the host's next
write to `CMD` (log entry 1). -/

namespace Sys2Proof.Machine

/-- One step of the engine (R8). -/
def step (s : State) : Host.Outcome State Fault Refusal := stepEvent s

/-- `s` with the write of one command word to `CMD` as the host's next access. -/
def State.withFetchWord (s : State) (nbits w : Nat) : State :=
  { s with pending := commandEvent nbits w :: s.pending }

end Sys2Proof.Machine
end

