-- ==== Sys2Proof/Machine/Script.lean ====
section
/-! DEFINITION. The script language of spec/30_encoding.md section 6: the host accesses each statement and pseudo-statement
abbreviates (R97, R98) and the macros for the document's operations (R99). -/

namespace Sys2Proof.Machine

/-- `HostWrite` at a named location (R97). -/
def wrAt (l : Loc) (v : Word) : Access := .wr l.offset v

/-- `SYMBUFW[w]` of PUTSYM: bytes `4w .. 4w+3`, the lowest in the least significant lane, missing symbols `0x00` (R66, R98). -/
def symWord (syms : List Byte) (w : Nat) : Word :=
  syms.getD (4 * w + 3) 0 ++ syms.getD (4 * w + 2) 0 ++ syms.getD (4 * w + 1) 0 ++ syms.getD (4 * w) 0

/-- `BITBUFW[w]` of PUTBITS: byte `q` has stream bit `32w + 8q + r` at bit `7 - r`, the pad bits 0 (R68, R98). -/
def bitWord (bits : List Bool) (w : Nat) : Word :=
  packBits 8 (bits.drop (32 * w + 24)) ++ packBits 8 (bits.drop (32 * w + 16)) ++
    packBits 8 (bits.drop (32 * w + 8)) ++ packBits 8 (bits.drop (32 * w))

/-- `PUTSYM` (R98). -/
def expandPutsym (syms : List Byte) : List Access :=
  (List.range ((syms.length + 3) / 4)).map (fun w => wrAt (.symbufW (BitVec.ofNat 10 w)) (symWord syms w))
    ++ [wrAt .symlen (BitVec.ofNat 32 syms.length)]

/-- `PUTBITS` (R98). -/
def expandPutbits (bits : List Bool) : List Access :=
  (List.range ((bits.length + 31) / 32)).map (fun w => wrAt (.bitbufW (BitVec.ofNat 10 w)) (bitWord bits w))
    ++ [wrAt .bitlen (BitVec.ofNat 32 bits.length)]

/-- `PUTCODE` (R98): the `CW` words that hold code elements, then `LENW`. -/
def expandPutcode (sym : Byte) (code : List Bool) : List Access :=
  (List.range ((code.length + 31) / 32)).map
      (fun q => wrAt (.cw sym (BitVec.ofNat 3 q)) (packBits 32 (code.drop (32 * q))))
    ++ [wrAt (.lenw sym) (BitVec.ofNat 32 code.length)]

/-- The host accesses of a statement (R97, R98). -/
def expand : Stmt → List Access
  | .wr off v => [.wr off v]
  | .rd off => [.rd off]
  | .cmd i => [wrAt .cmd (encode i)]
  | .putsym syms => expandPutsym syms
  | .putbits bits => expandPutbits bits
  | .putfreq sym v => [wrAt (.freq sym) v]
  | .putcode sym code => expandPutcode sym code
  | .delcode sym => [wrAt (.lenw sym) 0]
  | .clrtab => allSymbols.map (fun s => wrAt (.lenw s) 0)

/-- `RD ERRCODE`, the last statement of the encode and decode macros (R99). -/
def rdErrcode : Stmt := .rd Loc.errcode.offset

/-- `encode(S)` (R99). -/
def macroEncode (syms : List Byte) : List Stmt := [.putsym syms, .cmd .encode, rdErrcode]

/-- `decode(bits, table)` (R99), the table given as the pairs of a symbol and its code. -/
def macroDecode (bits : List Bool) (table : List (Byte × List Bool)) : List Stmt :=
  [.clrtab] ++ table.map (fun p => .putcode p.1 p.2) ++ [.putbits bits, .cmd .decode, rdErrcode]

/-- `count(S)` (R99). -/
def macroCount (syms : List Byte) : List Stmt := [.putsym syms, .cmd .count]

/-- `build(F)` (R99): a frequency for every symbol, 0 for the absent ones. -/
def macroBuild (freq : FreqTable) : List Stmt :=
  allSymbols.map (fun s => .putfreq s (freq.get s)) ++ [.cmd .build]

/-- `generate(root)` on the tree the last BUILD left (R99). -/
def macroGenerate : List Stmt := [.cmd .generate]

/-- A script's events, in order (R97). -/
def scriptEvents (script : List Stmt) : List Event :=
  (script.flatMap expand).map Event.access

end Sys2Proof.Machine
end

