-- ==== Sys2Proof/Safety.lean ====
section
/-! DEFINITION. What claims about HUFFENG are stated in: the tree invariants of R41, the invariant of every state, the paths of
R140, the prefix-code property of R144, and what an access leaves alone. -/

namespace Sys2Proof.Machine

/-- `k`, the number of leaves of the last tree (R30). -/
def State.k (s : State) : Nat := s.nleaves.toNat

/-- `c` is a child of the Internal entry `p` (R39). -/
def IsChild (nodes : Arena) (c p : NodeIx) : Prop :=
  ∃ f l r, nodes.get p = .internal f l r ∧ (c = l ∨ c = r)

/-- The tree invariants of R41, with the counts of R30 to R32 and R126. -/
structure TreeInv (s : State) : Prop where
  /-- 1 to 256 distinct symbols (R30). -/
  leaves_pos : 1 ≤ s.k
  leaves_le : s.k ≤ 256
  /-- `2k - 1` entries when `k >= 2`, 3 when `k = 1` (R31). -/
  nnodes_eq : s.nnodes.toNat = if s.k = 1 then 3 else 2 * s.k - 1
  /-- `ROOT = NNODES - 1` (R32). -/
  root_eq : s.root.toNat + 1 = s.nnodes.toNat
  /-- Entries `0 .. NLEAVES-1` are Leaves. -/
  leaf : ∀ i : NodeIx, i.toNat < s.k → ∃ sym f, s.node.get i = .leaf sym f
  /-- Their symbols strictly ascend. -/
  leaf_ascending : ∀ i j : NodeIx, i.toNat < j.toNat → j.toNat < s.k →
    (s.node.get i).sym.toNat < (s.node.get j).sym.toNat
  /-- The only Placeholder is entry 1, exactly when `k = 1`. -/
  placeholder : ∀ i : NodeIx, s.node.get i = .placeholder ↔ s.k = 1 ∧ i = 1
  /-- Every other filled entry is an Internal with two different, older children and the exact sum of their frequencies. -/
  internal : ∀ i : NodeIx, s.k ≤ i.toNat → i.toNat < s.nnodes.toNat → s.node.get i ≠ .placeholder →
    ∃ f l r, s.node.get i = .internal f l r ∧ l.toNat < i.toNat ∧ r.toNat < i.toNat ∧ l ≠ r ∧
      f.toNat = (s.node.get l).freq.toNat + (s.node.get r).freq.toNat
  /-- Entries `NNODES .. NODE_CAP-1` are Free. -/
  free : ∀ i : NodeIx, s.nnodes.toNat ≤ i.toNat → s.node.get i = .free
  /-- Every index below `ROOT` is the child of exactly one Internal entry. -/
  parent : ∀ c : NodeIx, c.toNat < s.root.toNat → ∃ p, IsChild s.node c p ∧ ∀ p', IsChild s.node c p' → p' = p
  /-- `ROOT` is the child of none. -/
  root_orphan : ∀ p c : NodeIx, c.toNat = s.root.toNat → ¬ IsChild s.node c p

/-- What the tree registers hold while `TREE_VALID = 0`: no tree (R32, R124, R47). -/
def NoTree (s : State) : Prop :=
  s.nleaves = 0 ∧ s.nnodes = 0 ∧ s.root = 0 ∧ ∀ i, s.node.get i = .free

/-- The invariant of every reachable state: `ERRCODE` is a legal code (U4), `ERRINFO` is 0 without an error (R27), the length
registers stay within their buffers (R28, R29), `MAXLEN` fits (R33), the buffers keep their form, and the arena holds a tree
exactly as `TREE_VALID` says (R41). -/
structure Inv (s : State) : Prop where
  errcode_legal : s.errcode.toNat ≤ 7
  errinfo_clear : s.errcode = 0 → s.errinfo = 0
  symlen_le : s.symlen.toNat ≤ Config.symCap
  bitlen_le : s.bitlen.toNat ≤ Config.bitCap
  maxlen_le : s.maxlen.toNat ≤ Config.lenMax
  symbuf_wf : s.symbuf.wf Config.symCap
  bitbuf_wf : s.bitbuf.wf Config.bitBytes
  tree : s.treeValid = true → TreeInv s
  no_tree : s.treeValid = false → NoTree s

/-- `path(i) = c` in the tree at `root` (R140). -/
inductive PathTo (nodes : Arena) (root : NodeIx) : NodeIx → List Bool → Prop where
  | root : PathTo nodes root root []
  | left {n l r : NodeIx} {f : NodeFreq} {c : List Bool} :
      PathTo nodes root n c → nodes.get n = .internal f l r → PathTo nodes root l (c ++ [false])
  | right {n l r : NodeIx} {f : NodeFreq} {c : List Bool} :
      PathTo nodes root n c → nodes.get n = .internal f l r → PathTo nodes root r (c ++ [true])

/-- The prefix-code property of a table: no code of a symbol is a prefix of the code of another (R144). -/
def PrefixFree (t : CodeTable) : Prop :=
  ∀ x y : Byte, x ≠ y → (t.get x).len ≠ 0 → (t.get y).len ≠ 0 → ¬ codeOf t x <+: codeOf t y

/-- The queue of BUILD when it creates entry `n`: the entries below `n` that are no child of an entry below `n` (R125). -/
def InQueueAt (nodes : Arena) (n j : NodeIx) : Prop :=
  j.toNat < n.toNat ∧ ∀ p : NodeIx, p.toNat < n.toNat → ¬ IsChild nodes j p

/-- `key(a) < key(b)` (R123): the lower frequency, and at equal frequency the lower index. -/
def KeyLt (nodes : Arena) (a b : NodeIx) : Prop :=
  (nodes.get a).freq.toNat < (nodes.get b).freq.toNat ∨
    ((nodes.get a).freq.toNat = (nodes.get b).freq.toNat ∧ a.toNat < b.toNat)

/-- The symbols with a non-zero frequency, in ascending order: `L` of R122. -/
def keysOf (freq : FreqTable) : List Byte := allSymbols.filter (fun x => freq.get x != 0)

/-- The message `SYMBUF[0 .. SYMLEN-1]` is specified and is `msg` (R28, R45, R67). -/
def Message (s : State) (msg : List Byte) : Prop :=
  msg.length = s.symlen.toNat ∧ ∀ i (h : i < msg.length), s.symbuf.read i = some msg[i]

/-- Stream bits `0 .. BITLEN-1` are specified and are `bits`: bit `p` is bit `7 - (p mod 8)` of byte `p div 8` (R29, R45,
R68). -/
def Stream (s : State) (bits : List Bool) : Prop :=
  bits.length = s.bitlen.toNat ∧
    ∀ p (h : p < bits.length), ∃ b, s.bitbuf.read (p / 8) = some b ∧ b.getLsbD (7 - p % 8) = bits[p]

/-- `M` is the largest `LEN` of a table, 0 when every `LEN` is 0 (R33, R172). -/
def IsMaxLen (t : CodeTable) (M : Nat) : Prop :=
  (∀ x : Byte, (t.get x).len.toNat ≤ M) ∧ (M = 0 ∨ ∃ x : Byte, (t.get x).len.toNat = M)

/-- The code of a symbol is exactly the bit-string `a`, length and every bit (R38, R171). -/
def CodeIs (t : CodeTable) (x : Byte) (a : List Bool) : Prop :=
  (t.get x).len.toNat = a.length ∧
    ∀ j (h : j < a.length), ((t.get x).cw.get (BitVec.ofNat 3 (j / 32))).getLsbD (31 - j % 32) = a[j]

/-- `match(a) = x`: the least symbol whose code is exactly `a` (R171). -/
def IsMatch (t : CodeTable) (a : List Bool) (x : Byte) : Prop :=
  CodeIs t x a ∧ ∀ y : Byte, y.toNat < x.toNat → ¬ CodeIs t y a

/-- The decoder after the bits `bits` have gone through the steps of R173 without an error: the symbols emitted and the
accumulator. `M` is the longest code. -/
inductive Parse (t : CodeTable) (M : Nat) : List Byte → List Bool → List Bool → Prop where
  | start : Parse t M [] [] []
  | emit {out : List Byte} {acc bits : List Bool} {v : Bool} {x : Byte} :
      Parse t M out acc bits → IsMatch t (acc ++ [v]) x → out.length < Config.symCap →
      Parse t M (out ++ [x]) [] (bits ++ [v])
  | keep {out : List Byte} {acc bits : List Bool} {v : Bool} :
      Parse t M out acc bits → (∀ x, ¬ CodeIs t x (acc ++ [v])) → acc.length + 1 ≤ M →
      Parse t M out (acc ++ [v]) (bits ++ [v])

/-- The host's next access is `a`; what it sends afterwards is what it was going to send (R60, R75). -/
def State.ask (s : State) (a : Access) : State := { s with pending := .access a :: s.pending }

/-- An offset no location answers to (R63, R70). -/
def Unmapped (off : Offset) : Prop :=
  off.toNat % 4 ≠ 0 ∨ (0x0030 ≤ off.toNat ∧ off.toNat < 0x0400) ∨ (0x0800 ≤ off.toNat ∧ off.toNat < 0x1000) ∨
    (0x3000 ≤ off.toNat ∧ off.toNat < 0x4000) ∨
    (0x4000 ≤ off.toNat ∧ off.toNat < 0x8000 ∧ 0x24 ≤ off.toNat % 64) ∨ 0xA000 ≤ off.toNat

/-- A read the port refuses: misaligned, unmapped, or of the write-only `CMD` (R63, R64, R70). -/
def RefusedRead (off : Offset) : Prop := Unmapped off ∨ off.toNat = 0

/-- A write the port refuses: misaligned, unmapped, to a read-only location, or of an illegal value (R63 to R65, R70). -/
def RefusedWrite (off : Offset) (v : Word) : Prop :=
  Unmapped off ∨ (0x0004 ≤ off.toNat ∧ off.toNat < 0x0010) ∨ (0x0018 ≤ off.toNat ∧ off.toNat < 0x0030) ∨
    (0x8000 ≤ off.toNat ∧ off.toNat < 0xA000) ∨ (off.toNat = 0x0010 ∧ 4096 < v.toNat) ∨
    (off.toNat = 0x0014 ∧ 32768 < v.toNat) ∨
    (0x4000 ≤ off.toNat ∧ off.toNat < 0x8000 ∧ off.toNat % 64 = 0 ∧ 256 ≤ v.toNat)

end Sys2Proof.Machine
end

