-- ==== Sys2Proof/Certificates/Slice0/Obligations.lean ====
section
/-! DEFINITION. The statements about HUFFENG that the provers settle. Each docstring names the rule of spec/ it formalises, or
says that it rests on an inference of the spec or on a choice of the model. -/

open Sys2Proof Sys2Proof.Machine

/-! ## Encoding and address decoding -/

/-- R93: the nine words of the opcode map, each with its command and class (a sanity statement). -/
def Obligations.NineCommandWordsDecode : Prop :=
  decode 0x00000000#32 = .ok .nop ∧ decode 0x00000001#32 = .ok .clrerr ∧ decode 0x00000002#32 = .ok .sreset ∧
  decode 0x00000010#32 = .ok .count ∧ decode 0x00000011#32 = .ok .build ∧ decode 0x00000012#32 = .ok .generate ∧
  decode 0x00000013#32 = .ok .pack ∧ decode 0x00000014#32 = .ok .encode ∧ decode 0x00000020#32 = .ok .decode ∧
  (∀ i : Instr, i.isSystem = true ↔ i = .nop ∨ i = .clrerr ∨ i = .sreset)

/-- R91: a word is a legal command exactly when `RSV = 0` and `OPC` is one of the nine values; every bit of it is then fixed,
so it decodes to a command exactly when it is that command's word. -/
def Obligations.LegalCommandExactly : Prop :=
  (∀ w : Word, (∃ i, decode w = .ok i) ↔
    w.toNat / 256 = 0 ∧ w.toNat % 256 ∈ [0x00, 0x01, 0x02, 0x10, 0x11, 0x12, 0x13, 0x14, 0x20]) ∧
  (∀ (w : Word) (i : Instr), decode w = .ok i ↔ w &&& 0xFFFFFFFF#32 = encode i) ∧
  (∀ i : Instr, (encode i).toNat < 256)

/-- R70, R38, R40: decode and encode agree on the address map. Every location is reached by its own offset and by no other. -/
def Obligations.OffsetsAndLocationsAgree : Prop :=
  (∀ l : Loc, l.byteOffset < 65536 ∧ decodeOffset l.offset = some l) ∧
  (∀ (off : Offset) (l : Loc), decodeOffset off = some l → off.toNat = l.byteOffset)

/-- R63, R70, R38: exactly the misaligned offsets and the gaps of the map have no location. -/
def Obligations.UnmappedOffsetsExactly : Prop :=
  ∀ off : Offset, decodeOffset off = none ↔ Unmapped off

/-! ## The step and the host port -/

/-- A step runs the decoded command: when the host's next access writes a word to `CMD` that decodes to `i`, the step is
`exec i` of the state without that access, with the port's answer set to `OKAY` (R24, R92, R65). `ERRCODE <= 7` is the
invariant's (U4; log entry 6). -/
def Obligations.StepRunsTheDecodedCommand : Prop :=
  ∀ (s : State) (w : Word) (i : Instr), s.errcode.toNat ≤ 7 → decode w = .ok i →
    step (s.ask (.wr 0#16 w)) =
      match exec i s with
      | .next t => .next { t with answer := some ⟨.okay, none⟩ }
      | .fault r => .fault r
      | .refused r => .refused r

/-- R219: between host accesses the engine simply holds its state. -/
def Obligations.IdleEngineHoldsItsState : Prop :=
  ∀ s : State, s.pending = [] → step s = .next s

/-- R210: a host access that is misaligned, unmapped, not permitted, or carries an illegal value is answered `SLVERR` and
changes no state (read data 0, R60). -/
def Obligations.RefusedAccessChangesNothing : Prop :=
  ∀ (s : State) (off : Offset) (v : Word), s.errcode.toNat ≤ 7 →
    (RefusedRead off → step (s.ask (.rd off)) = .next { s with answer := some ⟨.slverr, some 0⟩ }) ∧
    (RefusedWrite off v → step (s.ask (.wr off v)) = .next { s with answer := some ⟨.slverr, none⟩ })

/-- R64, R65, R71: every other read is answered `OKAY` and has no side effect on the engine (the counter of free values is
the model's own, log entry 3); every other write is answered `OKAY`, a write to `CMD` whatever the word. -/
def Obligations.AcceptedAccessIsAnsweredOkay : Prop :=
  ∀ (s : State) (off : Offset) (v : Word), s.errcode.toNat ≤ 7 →
    (¬ RefusedRead off → ∃ w d, step (s.ask (.rd off)) = .next { s with answer := some ⟨.okay, some w⟩, draws := d }) ∧
    (¬ RefusedWrite off v → off.toNat ≠ 0 →
      ∃ t, step (s.ask (.wr off v)) = .next t ∧ t.answer = some ⟨.okay, none⟩) ∧
    (∀ t, step (s.ask (.wr 0#16 v)) = .next t → t.answer = some ⟨.okay, none⟩)

/-- R25: `STATUS` reads `ERR` (exactly when `ERRCODE != 0`) in bit 0, `TREE_VALID` in bit 1, `BUSY = 0` in bit 2, and 0 in
bits 31:3. -/
def Obligations.StatusReadsItsFlags : Prop :=
  ∀ s : State, s.errcode.toNat ≤ 7 →
    ∃ w : Word, step (s.ask (.rd 0x0004#16)) = .next { s with answer := some ⟨.okay, some w⟩ } ∧
      (w.getLsbD 0 = true ↔ s.errcode ≠ 0) ∧ w.getLsbD 1 = s.treeValid ∧ ∀ j, 2 ≤ j → w.getLsbD j = false

/-- R72, R26 to R35: the other eleven readable control registers return their value, zero-extended. -/
def Obligations.ControlRegistersReadTheirValue : Prop :=
  ∀ s : State, s.errcode.toNat ≤ 7 → ∀ row ∈
    [(0x0008#16, s.errcode.setWidth 32), (0x000C#16, s.errinfo), (0x0010#16, s.symlen), (0x0014#16, s.bitlen),
     (0x0018#16, s.nleaves), (0x001C#16, s.nnodes), (0x0020#16, s.root), (0x0024#16, s.maxlen),
     (0x0028#16, 0x00001000#32), (0x002C#16, 0x00008000#32)],
    step (s.ask (.rd row.1)) = .next { s with answer := some ⟨.okay, some row.2⟩ }

/-- R72, R36, R38: a `FREQ`, `LENW` or `CW` word reads the stored entry. -/
def Obligations.FreqAndCodetabWordsRead : Prop :=
  ∀ (s : State) (x : Byte) (q : BitVec 3), s.errcode.toNat ≤ 7 →
    step (s.ask (.rd (BitVec.ofNat 16 (0x0400 + 4 * x.toNat)))) =
      .next { s with answer := some ⟨.okay, some (s.freq.get x)⟩ } ∧
    step (s.ask (.rd (BitVec.ofNat 16 (0x4000 + 64 * x.toNat)))) =
      .next { s with answer := some ⟨.okay, some (BitVec.ofNat 32 (s.codetab.get x).len.toNat)⟩ } ∧
    step (s.ask (.rd (BitVec.ofNat 16 (0x4000 + 64 * x.toNat + 4 + 4 * q.toNat)))) =
      .next { s with answer := some ⟨.okay, some ((s.codetab.get x).cw.get q)⟩ }

/-- R40: the four words of a `NODE` entry, for each kind. `KIND` in bits 1:0 and `SYM` in bits 15:8 of the first, `FREQ` over
the second and third, `LEFT` in bits 8:0 and `RIGHT` in bits 24:16 of the fourth; all others read 0. -/
def Obligations.NodeWordsHaveTheLayout : Prop :=
  ∀ (s : State) (i : NodeIx), s.errcode.toNat ≤ 7 →
    ∃ w0 w1 w2 w3 : Word,
      (∀ row ∈ [(0, w0), (4, w1), (8, w2), (12, w3)],
        step (s.ask (.rd (BitVec.ofNat 16 (0x8000 + 16 * i.toNat + row.1)))) =
          .next { s with answer := some ⟨.okay, some row.2⟩ }) ∧
      match s.node.get i with
      | .free => w0.toNat = 0 ∧ w1.toNat = 0 ∧ w2.toNat = 0 ∧ w3.toNat = 0
      | .leaf x f => w0.toNat = 1 + 256 * x.toNat ∧ w1.toNat = f.toNat % 2 ^ 32 ∧ w2.toNat = f.toNat / 2 ^ 32 ∧ w3.toNat = 0
      | .internal f l r =>
        w0.toNat = 2 ∧ w1.toNat = f.toNat % 2 ^ 32 ∧ w2.toNat = f.toNat / 2 ^ 32 ∧ w3.toNat = l.toNat + 65536 * r.toNat
      | .placeholder => w0.toNat = 3 ∧ w1.toNat = 0 ∧ w2.toNat = 0 ∧ w3.toNat = 0

/-- R66, R72, R45: a read of a buffer word answers `OKAY`, and each specified byte at index `4n + q` stands in bits
`8q+7 : 8q`; of an `UNSPEC` lane nothing is said, and with no `UNSPEC` lane not even the counter of free values moves. -/
def Obligations.BufferWordsReadLittleEndian : Prop :=
  ∀ (s : State) (n : BitVec 10), s.errcode.toNat ≤ 7 →
    ∀ row ∈ [(0x1000, s.symbuf), (0x2000, s.bitbuf)],
      ∃ (w : Word) (d : Nat),
        step (s.ask (.rd (BitVec.ofNat 16 (row.1 + 4 * n.toNat)))) =
          .next { s with answer := some ⟨.okay, some w⟩, draws := d } ∧
        (∀ q b, q < 4 → Memory.read row.2 (4 * n.toNat + q) = some b → w.extractLsb' (8 * q) 8 = b) ∧
        ((∀ q, q < 4 → Memory.read row.2 (4 * n.toNat + q) ≠ none) → d = s.draws)

/-- R66, R73: a write of a buffer word stores byte `q` of it at index `4n + q`, makes it specified, and changes nothing else:
every other byte of the buffer reads as before. -/
def Obligations.BufferWordsWriteLittleEndian : Prop :=
  ∀ (s : State) (n : BitVec 10) (v : Word), s.errcode.toNat ≤ 7 →
    (∃ m : Memory,
      step (s.ask (.wr (BitVec.ofNat 16 (0x1000 + 4 * n.toNat)) v)) =
        .next { s with symbuf := m, answer := some ⟨.okay, none⟩ } ∧
      (∀ q, q < 4 → m.read (4 * n.toNat + q) = some (v.extractLsb' (8 * q) 8)) ∧
      (∀ a, a < 4 * n.toNat ∨ 4 * n.toNat + 4 ≤ a → m.read a = s.symbuf.read a)) ∧
    (∃ m : Memory,
      step (s.ask (.wr (BitVec.ofNat 16 (0x2000 + 4 * n.toNat)) v)) =
        .next { s with bitbuf := m, answer := some ⟨.okay, none⟩ } ∧
      (∀ q, q < 4 → m.read (4 * n.toNat + q) = some (v.extractLsb' (8 * q) 8)) ∧
      (∀ a, a < 4 * n.toNat ∨ 4 * n.toNat + 4 ≤ a → m.read a = s.bitbuf.read a))

/-- R73, R65, R38: a legal write to a length register, a `FREQ` entry, a `LENW` or a `CW` word stores the word there and
changes nothing else (in particular not `MAXLEN`, not the tree). -/
def Obligations.HostWriteStoresOnlyItsLocation : Prop :=
  ∀ (s : State) (v : Word) (x : Byte) (q : BitVec 3), s.errcode.toNat ≤ 7 →
    (v.toNat ≤ 4096 → step (s.ask (.wr 0x0010#16 v)) = .next { s with symlen := v, answer := some ⟨.okay, none⟩ }) ∧
    (v.toNat ≤ 32768 → step (s.ask (.wr 0x0014#16 v)) = .next { s with bitlen := v, answer := some ⟨.okay, none⟩ }) ∧
    (∃ f : FreqTable,
      step (s.ask (.wr (BitVec.ofNat 16 (0x0400 + 4 * x.toNat)) v)) =
        .next { s with freq := f, answer := some ⟨.okay, none⟩ } ∧
      ∀ y, f.get y = if y = x then v else s.freq.get y) ∧
    (v.toNat < 256 → ∃ t : CodeTable,
      step (s.ask (.wr (BitVec.ofNat 16 (0x4000 + 64 * x.toNat)) v)) =
        .next { s with codetab := t, answer := some ⟨.okay, none⟩ } ∧
      (t.get x).len.toNat = v.toNat ∧ (t.get x).cw = (s.codetab.get x).cw ∧ ∀ y, y ≠ x → t.get y = s.codetab.get y) ∧
    (∃ t : CodeTable,
      step (s.ask (.wr (BitVec.ofNat 16 (0x4000 + 64 * x.toNat + 4 + 4 * q.toNat)) v)) =
        .next { s with codetab := t, answer := some ⟨.okay, none⟩ } ∧
      (t.get x).len = (s.codetab.get x).len ∧
      (∀ p, (t.get x).cw.get p = if p = q then v else (s.codetab.get x).cw.get p) ∧
      ∀ y, y ≠ x → t.get y = s.codetab.get y)

/-- R95 with R92 step 1: a word other than the nine executes nothing and raises BadCommandError, recording itself in
`ERRINFO`; while an error is pending nothing changes. -/
def Obligations.IllegalWordRaisesBadCommand : Prop :=
  (∀ w : Word, w ∈ [0x00#32, 0x01#32, 0x02#32, 0x10#32, 0x11#32, 0x12#32, 0x13#32, 0x14#32, 0x20#32] ↔
    ∃ i, decode w = .ok i) ∧
  ∀ (s : State) (w : Word), s.errcode.toNat ≤ 7 →
    w ∉ [0x00#32, 0x01#32, 0x02#32, 0x10#32, 0x11#32, 0x12#32, 0x13#32, 0x14#32, 0x20#32] →
    (s.errcode = 0 → step (s.ask (.wr 0#16 w)) =
      .next { s with errcode := 7, errinfo := w, answer := some ⟨.okay, none⟩ }) ∧
    (s.errcode ≠ 0 → step (s.ask (.wr 0#16 w)) = .next { s with answer := some ⟨.okay, none⟩ })

/-- R205, R92 step 3: while an error is pending every operation command is ignored, changing no state. -/
def Obligations.PendingErrorIgnoresOperations : Prop :=
  ∀ (s : State) (i : Instr), s.errcode ≠ 0 →
    i ∈ [Instr.count, .build, .generate, .pack, .encode, .decode] → exec i s = .next s

/-! ## System commands and reset -/

/-- R190: NOP changes no state. -/
def Obligations.NopChangesNothing : Prop :=
  encode .nop = 0x00000000#32 ∧ ∀ s : State, exec .nop s = .next s

/-- R191: CLRERR zeroes `ERRCODE` and `ERRINFO` (so `STATUS.ERR` reads 0) and changes nothing else; with no error pending it
changes nothing at all. -/
def Obligations.ClrerrClearsOnlyTheError : Prop :=
  encode .clrerr = 0x00000001#32 ∧ ∀ s : State, exec .clrerr s = .next { s with errcode := 0, errinfo := 0 } ∧
    ({ s with errcode := 0, errinfo := 0 } : State).status.getLsbD 0 = false ∧
    (Inv s → s.errcode = 0 → exec .clrerr s = .next s)

/-- R192, R48: SRESET zeroes every register, `TREE_VALID`, `FREQ`, `CODETAB` and `NODE`; `SYMBUF` and `BITBUF` keep their
bytes, and `STATUS` reads 0. -/
def Obligations.SresetKeepsOnlyTheBuffers : Prop :=
  encode .sreset = 0x00000002#32 ∧ ∀ s : State, ∃ t, exec .sreset s = .next t ∧
    t.errcode = 0 ∧ t.errinfo = 0 ∧ t.symlen = 0 ∧ t.bitlen = 0 ∧ t.nleaves = 0 ∧ t.nnodes = 0 ∧ t.root = 0 ∧
    t.maxlen = 0 ∧ t.treeValid = false ∧ t.status = 0 ∧
    (∀ x, t.freq.get x = 0 ∧ (t.codetab.get x).len = 0 ∧ ∀ q, (t.codetab.get x).cw.get q = 0) ∧
    (∀ i, t.node.get i = .free) ∧ t.symbuf = s.symbuf ∧ t.bitbuf = s.bitbuf ∧
    t.pending = s.pending ∧ t.answer = s.answer ∧ t.draws = s.draws

/-- R47: the reset value of every register and memory; every buffer byte is `UNSPEC`. -/
def Obligations.ResetValues : Prop :=
  State.reset.status = 0 ∧ State.reset.treeValid = false ∧ State.reset.errcode = 0 ∧ State.reset.errinfo = 0 ∧
  State.reset.symlen = 0 ∧ State.reset.bitlen = 0 ∧ State.reset.nleaves = 0 ∧ State.reset.nnodes = 0 ∧
  State.reset.root = 0 ∧ State.reset.maxlen = 0 ∧ readLoc State.reset .symcap = 4096 ∧ readLoc State.reset .bitcap = 32768 ∧
  (∀ x, State.reset.freq.get x = 0) ∧ (∀ i, State.reset.node.get i = .free) ∧
  (∀ x, (State.reset.codetab.get x).len = 0 ∧ ∀ q, (State.reset.codetab.get x).cw.get q = 0) ∧
  (∀ a, State.reset.symbuf.read a = none ∧ State.reset.bitbuf.read a = none)

/-- R230, R211: asserting `rst` puts the engine in the reset state from any state, even one whose `ERRCODE` no rule writes.
What the host still has to send, the empty answer and the counter of free values are the model's own (log entries 1, 3). -/
def Obligations.HardwareResetFromAnyState : Prop :=
  ∀ s : State, step { s with pending := .rst :: s.pending } =
    .next { State.reset with pending := s.pending, draws := s.draws }

/-- R233: on the reset state COUNT and PACK see an empty message, BUILD and ENCODE raise EmptyInputError, GENERATE raises
NoTreeError, and DECODE succeeds with `SYMLEN = 0`. -/
def Obligations.CommandsOnTheResetState : Prop :=
  exec .count State.reset = .next State.reset ∧ exec .pack State.reset = .next State.reset ∧
  exec .build State.reset = .next { State.reset with errcode := 1 } ∧
  exec .encode State.reset = .next { State.reset with errcode := 1 } ∧
  exec .generate State.reset = .next { State.reset with errcode := 6 } ∧
  exec .decode State.reset = .next State.reset

/-! ## COUNT -/

/-- R112: COUNT is the word 0x10; on a specified message it completes, `FREQ[x]` is afterwards the number of occurrences of
`x`, whatever `FREQ` held before, and nothing else changes; while an error is pending it changes nothing. -/
def Obligations.CountStoresTheOccurrences : Prop :=
  encode .count = 0x00000010#32 ∧
  (∀ (s : State) (msg : List Byte), s.errcode = 0 → Message s msg →
    ∃ f : FreqTable, exec .count s = .next { s with freq := f } ∧ ∀ x, (f.get x).toNat = msg.count x) ∧
  (∀ s : State, s.errcode ≠ 0 → exec .count s = .next s)

/-- The inference of 40_frequency_count.md section 2 ("COUNT is a function of the message only"): two messages that are
rearrangements of one another give the same `FREQ`, whatever else the states hold. -/
def Obligations.CountIgnoresTheOrder : Prop :=
  ∀ (s s' t t' : State) (msg msg' : List Byte), s.errcode = 0 → s'.errcode = 0 → Message s msg → Message s' msg' →
    msg.Perm msg' → exec .count s = .next t → exec .count s' = .next t' → t.freq = t'.freq

/-! ## BUILD -/

/-- R124: when no symbol has a non-zero count, BUILD leaves `NODE` all Free, the tree registers and `TREE_VALID` 0, and
raises EmptyInputError with information 0; nothing else changes. -/
def Obligations.BuildOfNothingRaisesEmptyInput : Prop :=
  ∀ s : State, s.errcode = 0 → (∀ x, s.freq.get x = 0) →
    ∃ a : Arena, (∀ i, a.get i = .free) ∧
      exec .build s = .next
        { s with node := a, nleaves := 0, nnodes := 0, root := 0, treeValid := false, errcode := 1, errinfo := 0 }

/-- R121, R30 to R32: when some count is non-zero BUILD completes: `NLEAVES` is the number `k` of such symbols, `NNODES` is 3
for `k = 1` and `2k - 1` otherwise, `ROOT = NNODES - 1`, `TREE_VALID = 1`, and nothing but these and `NODE` changes. -/
def Obligations.BuildCompletes : Prop :=
  ∀ s : State, s.errcode = 0 → (∃ x, s.freq.get x ≠ 0) →
    ∃ (a : Arena) (n : Nat), n = (if (keysOf s.freq).length = 1 then 3 else 2 * (keysOf s.freq).length - 1) ∧
      exec .build s = .next
        { s with
          node := a, nleaves := BitVec.ofNat 32 (keysOf s.freq).length, nnodes := BitVec.ofNat 32 n
          root := BitVec.ofNat 32 (n - 1), treeValid := true }

/-- R122: BUILD makes one Leaf per symbol with a non-zero count, in ascending symbol order, at indices `0 .. k-1`, with the
zero-extended count; every node created later takes the next free index, so entries `k .. NNODES-1` are no Leaves and the
rest stay Free. -/
def Obligations.BuildSeedsTheLeavesInOrder : Prop :=
  ∀ s t : State, s.errcode = 0 → (∃ x, s.freq.get x ≠ 0) → exec .build s = .next t →
    (∀ j (h : j < (keysOf s.freq).length), ∃ f : NodeFreq,
      t.node.get (BitVec.ofNat 9 j) = .leaf (keysOf s.freq)[j] f ∧ f.toNat = (s.freq.get (keysOf s.freq)[j]).toNat) ∧
    (∀ i : NodeIx, (keysOf s.freq).length ≤ i.toNat → i.toNat < t.nnodes.toNat →
      t.node.get i = .placeholder ∨ ∃ f l r, t.node.get i = .internal f l r) ∧
    (∀ i : NodeIx, t.nnodes.toNat ≤ i.toNat → t.node.get i = .free)

/-- R125 with the order of R123: with two or more symbols, every later entry `n` is the Internal node of the two lowest keys
of the queue at that moment, the first popped on the left, its frequency their exact sum; at the end only `ROOT = 2k - 2` is
left in the queue. -/
def Obligations.BuildMergesTheTwoLowestKeys : Prop :=
  ∀ s t : State, s.errcode = 0 → 2 ≤ (keysOf s.freq).length → exec .build s = .next t →
    t.nnodes.toNat = 2 * (keysOf s.freq).length - 1 ∧ t.root.toNat = 2 * (keysOf s.freq).length - 2 ∧
    (∀ n : NodeIx, (keysOf s.freq).length ≤ n.toNat → n.toNat < t.nnodes.toNat →
      ∃ f a b, t.node.get n = .internal f a b ∧
        f.toNat = (t.node.get a).freq.toNat + (t.node.get b).freq.toNat ∧
        InQueueAt t.node n a ∧ InQueueAt t.node n b ∧ KeyLt t.node a b ∧
        ∀ j, InQueueAt t.node n j → j ≠ a → j ≠ b → KeyLt t.node b j) ∧
    (∀ j : NodeIx, InQueueAt t.node (BitVec.ofNat 9 t.nnodes.toNat) j ↔ j.toNat = t.root.toNat)

/-- R126: with one symbol, entry 1 is the Placeholder and entry 2 the Internal node over the Leaf (left) and it (right), of
the Leaf's frequency; `ROOT = 2` and `NNODES = 3`. GENERATE then gives the symbol the code "0" and no other symbol an entry. -/
def Obligations.BuildWrapsASingleSymbol : Prop :=
  ∀ (s t : State) (x : Byte), s.errcode = 0 → keysOf s.freq = [x] → exec .build s = .next t →
    ∃ f : NodeFreq, f.toNat = (s.freq.get x).toNat ∧ t.node.get 0 = .leaf x f ∧ t.node.get 1 = .placeholder ∧
      t.node.get 2 = .internal f 0 1 ∧ t.root = 2 ∧ t.nnodes = 3 ∧
      ∃ u, exec .generate t = .next u ∧ CodeIs u.codetab x [false] ∧ ∀ y, y ≠ x → (u.codetab.get y).len = 0

/-- The inference of 10_state.md section 3 ("Tree invariants that hold whenever `TREE_VALID = 1`"): whatever the arena held,
a BUILD that succeeds leaves a tree with all of them. -/
def Obligations.BuildEstablishesTheTreeInvariants : Prop :=
  ∀ s t : State, s.errcode = 0 → (∃ x, s.freq.get x ≠ 0) → exec .build s = .next t → t.treeValid = true ∧ TreeInv t

/-- The inference in 41_tree_builder.md section 3 ("`NODE[ROOT].FREQ` equals the sum of all `FREQ[s]`"): no sum wraps, even
for host-written counts. -/
def Obligations.RootFrequencyIsTheTotal : Prop :=
  ∀ s t : State, s.errcode = 0 → (∃ x, s.freq.get x ≠ 0) → exec .build s = .next t →
    (t.node.get t.rootIx).freq.toNat = (allSymbols.map (fun x => (s.freq.get x).toNat)).sum

/-! ## GENERATE -/

/-- R141: without a valid tree GENERATE raises NoTreeError with information 0 and changes nothing else. -/
def Obligations.GenerateWithoutATreeRaisesNoTree : Prop :=
  ∀ s : State, s.errcode = 0 → s.treeValid = false →
    exec .generate s = .next { s with errcode := 6, errinfo := 0 }

/-- R140, R142: on a tree GENERATE completes; the code of every reachable Leaf's symbol is the Leaf's one path from `ROOT` (left
0, right 1), no other symbol has an entry, every stored bit from `LEN` on is 0, `MAXLEN` is the longest length, and nothing but
`CODETAB` and `MAXLEN` changes. -/
def Obligations.GenerateStoresThePaths : Prop :=
  ∀ s : State, s.errcode = 0 → s.treeValid = true → TreeInv s →
    ∃ (t : CodeTable) (M : Nat), exec .generate s = .next { s with codetab := t, maxlen := BitVec.ofNat 32 M } ∧
      IsMaxLen t M ∧
      (∀ (x : Byte) (c : List Bool), ((t.get x).len ≠ 0 ∧ CodeIs t x c) ↔
        ∃ i f, s.node.get i = .leaf x f ∧ PathTo s.node s.rootIx i c) ∧
      (∀ (x : Byte) (j : Nat), (t.get x).len.toNat ≤ j → j < 256 →
        ((t.get x).cw.get (BitVec.ofNat 3 (j / 32))).getLsbD (31 - j % 32) = false) ∧
      (∀ (i : NodeIx) (c d : List Bool), PathTo s.node s.rootIx i c → PathTo s.node s.rootIx i d → c = d)

/-- R144: after GENERATE on a tree, no code is a prefix of another symbol's code; the entries are `NLEAVES` many, and after a
BUILD they are exactly the symbols with a non-zero count. -/
def Obligations.GeneratedTableIsAPrefixCode : Prop :=
  (∀ s t : State, s.errcode = 0 → s.treeValid = true → TreeInv s → exec .generate s = .next t →
    PrefixFree t.codetab ∧
    (allSymbols.filter (fun x => (t.codetab.get x).len != 0)).length = s.nleaves.toNat) ∧
  (∀ s t u : State, s.errcode = 0 → (∃ x, s.freq.get x ≠ 0) → exec .build s = .next t → exec .generate t = .next u →
    ∀ x, (u.codetab.get x).len ≠ 0 ↔ s.freq.get x ≠ 0)

/-- The bound derived in 42_code_table_generator.md section 3: the symbol of every Leaf gets a code of length at least 1, at
most `NLEAVES - 1` for two or more leaves, and exactly 1 for one leaf. -/
def Obligations.GeneratedLengthsAreBounded : Prop :=
  ∀ s t : State, s.errcode = 0 → s.treeValid = true → TreeInv s → exec .generate s = .next t →
    ∀ i x f, s.node.get i = .leaf x f →
      1 ≤ (t.codetab.get x).len.toNat ∧
      (t.codetab.get x).len.toNat ≤ (if s.nleaves.toNat = 1 then 1 else s.nleaves.toNat - 1)

/-- The inference of 42_code_table_generator.md section 3 ("every infinite bit sequence has exactly one generated code as a
prefix"), for finite bit-strings as long as the longest code. -/
def Obligations.GeneratedCodeIsComplete : Prop :=
  ∀ s t : State, s.errcode = 0 → s.treeValid = true → TreeInv s → 2 ≤ s.nleaves.toNat → exec .generate s = .next t →
    ∀ bits : List Bool, t.maxlen.toNat ≤ bits.length →
      ∃ x, ((t.codetab.get x).len ≠ 0 ∧ codeOf t.codetab x <+: bits) ∧
        ∀ y, (t.codetab.get y).len ≠ 0 → codeOf t.codetab y <+: bits → y = x

/-! ## PACK and ENCODE -/

/-- R152 (success), R151, R69: when every symbol of the message has a code and the codes fit `BITBUF`, PACK completes; stream
bit `p` is bit `p` of their concatenation in message order, the padding bits are 0, bytes beyond are as before, and nothing but
`BITBUF` and `BITLEN` changes. -/
def Obligations.PackConcatenatesTheCodes : Prop :=
  ∀ (s : State) (msg : List Byte), s.errcode = 0 → Message s msg → (∀ x ∈ msg, (s.codetab.get x).len ≠ 0) →
    (msg.flatMap (codeOf s.codetab)).length ≤ 32768 →
    ∃ m : Memory, exec .pack s = .next
        { s with bitbuf := m, bitlen := BitVec.ofNat 32 (msg.flatMap (codeOf s.codetab)).length } ∧
      (∀ p (h : p < (msg.flatMap (codeOf s.codetab)).length), ∃ b, m.read (p / 8) = some b ∧
        b.getLsbD (7 - p % 8) = (msg.flatMap (codeOf s.codetab))[p]) ∧
      (∀ p, (msg.flatMap (codeOf s.codetab)).length ≤ p → p < 8 * (((msg.flatMap (codeOf s.codetab)).length + 7) / 8) →
        ∃ b, m.read (p / 8) = some b ∧ b.getLsbD (7 - p % 8) = false) ∧
      (∀ a, ((msg.flatMap (codeOf s.codetab)).length + 7) / 8 ≤ a → m.read a = s.bitbuf.read a)

/-- R152 (errors), R207 (b): at the first symbol `i` that has no code, or whose code does not fit behind the codes before it,
PACK raises NoCodeError or CapacityError with information `i`, `BITLEN` is 0 and every byte of `BITBUF` is `UNSPEC`; the
missing code is tested first. -/
def Obligations.PackFailsAtTheFirstBadSymbol : Prop :=
  ∀ (s : State) (msg : List Byte) (i : Nat) (h : i < msg.length), s.errcode = 0 → Message s msg →
    (∀ x ∈ msg.take i, (s.codetab.get x).len ≠ 0) → ((msg.take i).flatMap (codeOf s.codetab)).length ≤ 32768 →
    ((s.codetab.get msg[i]).len = 0 → ∃ m : Memory, (∀ a, m.read a = none) ∧
      exec .pack s = .next { s with bitbuf := m, bitlen := 0, errcode := 4, errinfo := BitVec.ofNat 32 i }) ∧
    ((s.codetab.get msg[i]).len ≠ 0 →
      32768 < ((msg.take i).flatMap (codeOf s.codetab)).length + (s.codetab.get msg[i]).len.toNat →
      ∃ m : Memory, (∀ a, m.read a = none) ∧
        exec .pack s = .next { s with bitbuf := m, bitlen := 0, errcode := 5, errinfo := BitVec.ofNat 32 i })

/-- R156: ENCODE of a non-empty message runs COUNT, BUILD, GENERATE and PACK in this order, each on the state the one before
left, and ends as PACK does (without an error or with CapacityError); of an empty one it raises EmptyInputError and leaves
`FREQ` 0, no tree, an empty table, `MAXLEN` and `BITLEN` 0, and the buffers as they were; while an error is pending it changes
nothing. -/
def Obligations.EncodeRunsTheFourPhases : Prop :=
  (∀ (s : State) (msg : List Byte), s.errcode = 0 → s.symlen ≠ 0 → Message s msg →
    ∃ t1 t2 t3 t4, exec .count s = .next t1 ∧ exec .build t1 = .next t2 ∧ exec .generate t2 = .next t3 ∧
      exec .pack t3 = .next t4 ∧ exec .encode s = .next t4 ∧
      t4.symbuf = s.symbuf ∧ t4.symlen = s.symlen ∧ t4.treeValid = true ∧ (t4.errcode = 0 ∨ t4.errcode = 5)) ∧
  (∀ s : State, s.errcode = 0 → s.symlen = 0 →
    ∃ (f : FreqTable) (a : Arena) (c : CodeTable), (∀ x, f.get x = 0) ∧ (∀ i, a.get i = .free) ∧
      (∀ x, (c.get x).len = 0 ∧ ∀ q, (c.get x).cw.get q = 0) ∧
      exec .encode s = .next
        { s with
          freq := f, node := a, nleaves := 0, nnodes := 0, root := 0, treeValid := false, codetab := c, maxlen := 0
          bitlen := 0, errcode := 1, errinfo := 0 }) ∧
  (∀ s : State, s.errcode ≠ 0 → exec .encode s = .next s)

/-- The inference of 43_encoder_bit_packer.md section 3 ("Inside ENCODE, PACK never raises NoCodeError"). -/
def Obligations.EncodeNeverRaisesNoCode : Prop :=
  ∀ s t : State, s.errcode = 0 → exec .encode s = .next t → t.errcode = 0 ∨ t.errcode = 1 ∨ t.errcode = 5

/-- The inference of 43_encoder_bit_packer.md section 3 ("Determinism of ENCODE"): two states with the same message get the
same table, tree, `MAXLEN`, `BITLEN` and error, and on success the same stream bits, whatever else they held. -/
def Obligations.EncodeDependsOnTheMessageOnly : Prop :=
  ∀ (s s' t t' : State) (msg : List Byte), s.errcode = 0 → s'.errcode = 0 → Message s msg → Message s' msg →
    exec .encode s = .next t → exec .encode s' = .next t' →
    t.codetab = t'.codetab ∧ t.node = t'.node ∧ t.root = t'.root ∧ t.maxlen = t'.maxlen ∧ t.bitlen = t'.bitlen ∧
    t.freq = t'.freq ∧ t.errcode = t'.errcode ∧
    (t.errcode = 0 → ∀ p, p < t.bitlen.toNat → bitGet t.bitbuf p = bitGet t'.bitbuf p)

/-! ## DECODE -/

/-- R171: the look-up is an exact match against complete codes; the least symbol wins, and there is no match exactly when no
symbol has the code. -/
def Obligations.MatchIsExactAndLeast : Prop :=
  ∀ (t : CodeTable) (a : List Bool), a ≠ [] →
    (∀ x, matchCode t a = some x ↔ IsMatch t a x) ∧ (matchCode t a = none ↔ ∀ x, ¬ CodeIs t x a)

/-- R174: when the bits are exhausted with an empty accumulator DECODE succeeds with the emitted symbols in `SYMBUF` and their
number in `SYMLEN`, later bytes as before; with a non-empty accumulator it raises TruncatedStreamError at the stream position
of the accumulator's first bit, `SYMLEN` is 0 and `SYMBUF` all `UNSPEC`. `MAXLEN` is recomputed either way (R172). -/
def Obligations.DecodeEndsAtACodeBoundaryOrTruncated : Prop :=
  ∀ (s : State) (bits acc : List Bool) (out : List Byte) (M : Nat), s.errcode = 0 → Stream s bits →
    IsMaxLen s.codetab M → Parse s.codetab M out acc bits →
    (acc = [] → ∃ m : Memory,
      exec .decode s = .next
        { s with symbuf := m, symlen := BitVec.ofNat 32 out.length, maxlen := BitVec.ofNat 32 M } ∧
      (∀ i (h : i < out.length), m.read i = some out[i]) ∧ ∀ a, out.length ≤ a → m.read a = s.symbuf.read a) ∧
    (acc ≠ [] → ∃ m : Memory, (∀ a, m.read a = none) ∧
      exec .decode s = .next
        { s with
          symbuf := m, symlen := 0, maxlen := BitVec.ofNat 32 M, errcode := 2
          errinfo := BitVec.ofNat 32 (bits.length - acc.length) })

/-- R175: the bit that makes an unmatched accumulator longer than the longest code raises CorruptStreamError at the stream
position of the accumulator's first bit, whatever follows; `SYMLEN` is 0 and `SYMBUF` all `UNSPEC`. A stream that ends while the
unmatched accumulator has 1 to `M` bits gives TruncatedStreamError instead, and no other length can be left. -/
def Obligations.DecodeReportsACorruptStream : Prop :=
  (∀ (s : State) (seen rest acc : List Bool) (v : Bool) (out : List Byte) (M : Nat), s.errcode = 0 →
    Stream s (seen ++ v :: rest) → IsMaxLen s.codetab M → Parse s.codetab M out acc seen →
    (∀ x, ¬ CodeIs s.codetab x (acc ++ [v])) → M < acc.length + 1 →
    ∃ m : Memory, (∀ a, m.read a = none) ∧
      exec .decode s = .next
        { s with
          symbuf := m, symlen := 0, maxlen := BitVec.ofNat 32 M, errcode := 3
          errinfo := BitVec.ofNat 32 (seen.length - acc.length) }) ∧
  (∀ (s : State) (bits acc : List Bool) (out : List Byte) (M : Nat), s.errcode = 0 → Stream s bits →
    IsMaxLen s.codetab M → Parse s.codetab M out acc bits → acc ≠ [] →
    acc.length ≤ M ∧ ∃ t, exec .decode s = .next t ∧ t.errcode = 2)

/-- R173, R207 (d): a match that would be symbol number `SYM_CAP + 1` raises CapacityError at the stream position of its
code's first bit, whatever follows; `SYMLEN` is 0 and `SYMBUF` all `UNSPEC`. -/
def Obligations.DecodeReportsAFullSymbolBuffer : Prop :=
  ∀ (s : State) (seen rest acc : List Bool) (v : Bool) (out : List Byte) (x : Byte) (M : Nat), s.errcode = 0 →
    Stream s (seen ++ v :: rest) → IsMaxLen s.codetab M → Parse s.codetab M out acc seen →
    IsMatch s.codetab (acc ++ [v]) x → out.length = 4096 →
    ∃ m : Memory, (∀ a, m.read a = none) ∧
      exec .decode s = .next
        { s with
          symbuf := m, symlen := 0, maxlen := BitVec.ofNat 32 M, errcode := 5
          errinfo := BitVec.ofNat 32 (seen.length - acc.length) }

/-- R172: DECODE completes on every specified stream and every table, the ones that are no prefix codes too, without an error
or with one of its three; `SYMLEN` is then within `SYMBUF`, and nothing but `SYMBUF`, `SYMLEN`, `MAXLEN`, `ERRCODE` and
`ERRINFO` changes. -/
def Obligations.DecodeAlwaysCompletes : Prop :=
  ∀ (s : State) (bits : List Bool), s.errcode = 0 → Stream s bits →
    ∃ (m : Memory) (n i : Word) (M : Nat) (e : BitVec 4), exec .decode s = .next
        { s with symbuf := m, symlen := n, maxlen := BitVec.ofNat 32 M, errcode := e, errinfo := i } ∧
      IsMaxLen s.codetab M ∧ n.toNat ≤ 4096 ∧ (e = 0 ∨ e = 2 ∨ e = 3 ∨ e = 5) ∧ (e ≠ 0 → n = 0) ∧ (e = 0 → i = s.errinfo)

/-- The inference of 44_decoder.md section 4: with the table of a tree of two or more leaves CorruptStreamError cannot occur. -/
def Obligations.GeneratedTableNeverCorrupt : Prop :=
  ∀ s t u : State, s.errcode = 0 → s.treeValid = true → TreeInv s → 2 ≤ s.nleaves.toNat →
    exec .generate s = .next t → exec .decode t = .next u → u.errcode ≠ 3

/-- The round trip of 44_decoder.md section 5, the document's core guarantee: if ENCODE of a non-empty specified message ends
without an error, a DECODE right after it ends without an error and gives back the same length and the same symbols. -/
def Obligations.DecodeAfterEncodeGivesTheMessageBack : Prop :=
  ∀ (s t : State) (msg : List Byte), s.errcode = 0 → 1 ≤ msg.length → msg.length ≤ 4096 → Message s msg →
    exec .encode s = .next t → t.errcode = 0 →
    ∃ u, exec .decode t = .next u ∧ u.errcode = 0 ∧ u.symlen = s.symlen ∧ Message u msg

/-! ## Whole-machine statements -/

/-- The invariant holds at reset. -/
def Obligations.ResetMeetsTheInvariant : Prop := Inv State.reset

/-- Every step keeps the invariant, from every state that has it: `ERRCODE <= 7` (U4), `ERRINFO = 0` without an error (R27),
lengths within their buffers (R28, R29, R33), buffers in canonical form, and the tree of R41 whenever `TREE_VALID = 1`. -/
def Obligations.EveryStepKeepsTheInvariant : Prop :=
  ∀ s t : State, Inv s → step s = .next t → Inv t

/-- R45, U1: from a state of the invariant a step is no next state only when it is refused at a COUNT, PACK, ENCODE or DECODE
that no pending error turns away and a byte of whose input range is `UNSPEC`; every other event, and so every host access, is
answered, and no step faults (R61, R250). `UnspecifiedInputIsRefused` states the converse for `exec`. -/
def Obligations.StepsStopOnlyOnUnspecifiedInput : Prop :=
  ∀ s : State, Inv s →
    (∃ t, step s = .next t) ∨
    (step s = .refused .unspecInput ∧ s.errcode = 0 ∧ ∃ w rest, s.pending = .access (.wr 0#16 w) :: rest ∧
      ((w ∈ [0x10#32, 0x13#32, 0x14#32] ∧ ∃ i, i < s.symlen.toNat ∧ s.symbuf.read i = none) ∨
       (w = 0x20#32 ∧ ∃ b, b < (s.bitlen.toNat + 7) / 8 ∧ s.bitbuf.read b = none)))

/-- R45, R212: COUNT, PACK and ENCODE with an `UNSPEC` byte below `SYMLEN`, and DECODE with an `UNSPEC` byte that holds a
stream bit, are refused. -/
def Obligations.UnspecifiedInputIsRefused : Prop :=
  ∀ s : State, s.errcode = 0 →
    ((∃ i, i < s.symlen.toNat ∧ s.symbuf.read i = none) →
      exec .count s = .refused .unspecInput ∧ exec .pack s = .refused .unspecInput ∧
      exec .encode s = .refused .unspecInput) ∧
    ((∃ b, b < (s.bitlen.toNat + 7) / 8 ∧ s.bitbuf.read b = none) → exec .decode s = .refused .unspecInput)

/-- R39, R25, R30 to R32: the tree, its registers and `TREE_VALID` are written by BUILD, ENCODE, SRESET and reset only. -/
def Obligations.OnlyBuildersWriteTheTree : Prop :=
  ∀ s t : State, step s = .next t →
    (t.node ≠ s.node ∨ t.treeValid ≠ s.treeValid ∨ t.nleaves ≠ s.nleaves ∨ t.nnodes ≠ s.nnodes ∨ t.root ≠ s.root) →
    ∃ rest, s.pending = .rst :: rest ∨
      ∃ w ∈ [0x02#32, 0x11#32, 0x14#32], s.pending = .access (.wr 0#16 w) :: rest

/-- R33: `MAXLEN` is written by GENERATE, DECODE, ENCODE, SRESET and reset only; in particular no host write changes it. -/
def Obligations.OnlyTableCommandsWriteMaxlen : Prop :=
  ∀ s t : State, step s = .next t → t.maxlen ≠ s.maxlen →
    ∃ rest, s.pending = .rst :: rest ∨
      ∃ w ∈ [0x02#32, 0x12#32, 0x14#32, 0x20#32], s.pending = .access (.wr 0#16 w) :: rest

/-- R206, R205: a pending error, its code and its information, is changed by CLRERR, SRESET and reset only. -/
def Obligations.PendingErrorStaysUntilAcknowledged : Prop :=
  ∀ s t : State, s.errcode ≠ 0 → step s = .next t → (t.errcode ≠ s.errcode ∨ t.errinfo ≠ s.errinfo) →
    ∃ rest, s.pending = .rst :: rest ∨
      ∃ w ∈ [0x01#32, 0x02#32], s.pending = .access (.wr 0#16 w) :: rest

/-! ## The script language -/

/-- R98: the accesses of `PUTSYM` load the message: run one after another they leave `SYMBUF[i]` the `i`-th symbol and `SYMLEN`
their number, and change no other register, table or buffer, and no word of `SYMBUF` beyond the message. -/
def Obligations.PutsymLoadsTheMessage : Prop :=
  ∀ (s : State) (syms : List Byte), s.errcode.toNat ≤ 7 → (Stmt.putsym syms).wellFormed = true →
    s.pending = (expand (.putsym syms)).map .access →
    ∃ m : Memory, Sys2Proof.core.run (expand (.putsym syms)).length s = .next
        { s with symbuf := m, symlen := BitVec.ofNat 32 syms.length, pending := [], answer := some ⟨.okay, none⟩ } ∧
      (∀ i (h : i < syms.length), m.read i = some syms[i]) ∧
      (∀ a, 4 * ((syms.length + 3) / 4) ≤ a → m.read a = s.symbuf.read a)

/-- R98: the accesses of `PUTBITS` load the stream, element `p` as stream bit `p`, and its exact length. -/
def Obligations.PutbitsLoadsTheStream : Prop :=
  ∀ (s : State) (bits : List Bool), s.errcode.toNat ≤ 7 → (Stmt.putbits bits).wellFormed = true →
    s.pending = (expand (.putbits bits)).map .access →
    ∃ m : Memory, Sys2Proof.core.run (expand (.putbits bits)).length s = .next
        { s with bitbuf := m, bitlen := BitVec.ofNat 32 bits.length, pending := [], answer := some ⟨.okay, none⟩ } ∧
      (∀ p (h : p < bits.length), ∃ b, m.read (p / 8) = some b ∧ b.getLsbD (7 - p % 8) = bits[p]) ∧
      (∀ a, 4 * ((bits.length + 31) / 32) ≤ a → m.read a = s.bitbuf.read a)

/-- R98: the accesses of `PUTCODE` give the symbol exactly the code and leave every other entry and `MAXLEN` alone. -/
def Obligations.PutcodeStoresTheCode : Prop :=
  ∀ (s : State) (x : Byte) (code : List Bool), s.errcode.toNat ≤ 7 → (Stmt.putcode x code).wellFormed = true →
    s.pending = (expand (.putcode x code)).map .access →
    ∃ t : CodeTable, Sys2Proof.core.run (expand (.putcode x code)).length s = .next
        { s with codetab := t, pending := [], answer := some ⟨.okay, none⟩ } ∧
      CodeIs t x code ∧ ∀ y, y ≠ x → t.get y = s.codetab.get y
end

