-- ==== Sys2Proof/Laws/Bits.lean ====
section
/-! SUPPORT. The bits that `putBit` and `packBits` leave. -/

namespace Sys2Proof.Machine

theorem getLsbD_putBit {n : Nat} (v : BitVec n) (k : Nat) (b : Bool) (j : Nat) (hj : j < n) :
    (putBit v k b).getLsbD j = if j = k then b else v.getLsbD j := by
  unfold putBit
  by_cases h : j = k
  · subst h
    cases b <;> simp [hj]
  · cases b <;> by_cases hk : j < k
    · simp [h, hj, hk]
    · have : j - k ≠ 0 := by omega
      simp [h, hj, this]
    · simp [h, hj, hk]
    · have : j - k ≠ 0 := by omega
      simp [h, hj, this]

/-- The bits after the first `m` turns of `packBits`. -/
theorem getLsbD_packBits_turns (n : Nat) (bits : List Bool) (m : Nat) (hm : m ≤ n) (j : Nat) (hj : j < n) :
    ((List.range m).foldl (fun v r => putBit v (n - 1 - r) (bits.getD r false)) 0#n).getLsbD j =
      if n - 1 - j < m then bits.getD (n - 1 - j) false else false := by
  induction m with
  | zero => simp
  | succ m ih =>
    rw [List.range_succ, List.foldl_append, List.foldl_cons, List.foldl_nil, getLsbD_putBit _ _ _ _ hj, ih (by omega)]
    by_cases h : j = n - 1 - m
    · have h2 : n - 1 - j = m := by omega
      rw [if_pos h, h2, if_pos (by omega)]
    · rw [if_neg h]
      have h2 : n - 1 - j ≠ m := by omega
      by_cases h3 : n - 1 - j < m
      · rw [if_pos h3, if_pos (by omega)]
      · rw [if_neg h3, if_neg (by omega)]

/-- Bit `j` of a packed vector is element `n - 1 - j` of the bit-string, 0 where it has none. -/
theorem getLsbD_packBits (n : Nat) (bits : List Bool) (j : Nat) (hj : j < n) :
    (packBits n bits).getLsbD j = bits.getD (n - 1 - j) false := by
  unfold packBits
  rw [getLsbD_packBits_turns n bits n (Nat.le_refl n) j hj, if_pos (by omega)]

/-- The four bytes of a written word, lane by lane. -/
theorem wordBytes_getElem (v : Word) (q : Nat) (h : q < (wordBytes v).length) :
    (wordBytes v)[q] = v.extractLsb' (8 * q) 8 := by
  simp only [wordBytes, List.length_cons, List.length_nil] at h
  match q, h with
  | 0, _ => rfl
  | 1, _ => rfl
  | 2, _ => rfl
  | 3, _ => rfl

@[simp] theorem wordBytes_length (v : Word) : (wordBytes v).length = 4 := rfl

end Sys2Proof.Machine
end

