-- ==== Sys2Proof/Laws/Memory.lean ====
section
/-! SUPPORT. The laws of the byte buffers: read after write, the canonical form and who keeps it, equal reads give equal
buffers, and the runs of bytes. -/

namespace Sys2Proof.Machine

@[simp] theorem Memory.read_nil (a : Nat) : Memory.read [] a = none := rfl

@[simp] theorem Memory.read_unspecAll (a : Nat) : Memory.read Memory.unspecAll a = none := rfl

theorem Memory.unspecAll_wf (cap : Nat) : Memory.unspecAll.wf cap := by
  simp [Memory.wf, Memory.unspecAll]

/-- Reading after a write: the byte at its index, every other index as before. -/
theorem Memory.read_write (m : Memory) (a : Nat) (b : Byte) (a' : Nat) :
    (m.write a b).read a' = if a' = a then some b else m.read a' := by
  induction m with
  | nil => simp only [Memory.write, Memory.read]; grind
  | cons c m ih =>
    obtain ⟨k, v⟩ := c
    simp only [Memory.write]
    split
    · simp only [Memory.read]; grind
    · split
      · simp only [Memory.read]; grind
      · simp only [Memory.read, ih]; grind

theorem Memory.mem_write {m : Memory} {a : Nat} {b : Byte} {c : Host.Cell} (h : c ∈ m.write a b) :
    c = (a, b) ∨ c ∈ m := by
  induction m with
  | nil => simpa [Memory.write] using h
  | cons d m ih =>
    obtain ⟨k, v⟩ := d
    simp only [Memory.write] at h
    split at h
    · simpa using h
    · split at h
      · simp only [List.mem_cons] at h ⊢; tauto
      · simp only [List.mem_cons] at h ⊢
        rcases h with h | h
        · tauto
        · rcases ih h with h | h <;> tauto

/-- A write below the capacity keeps the canonical form. -/
theorem Memory.write_wf {m : Memory} {cap a : Nat} {b : Byte} (h : m.wf cap) (ha : a < cap) : (m.write a b).wf cap := by
  refine ⟨?_, fun c hc => ?_⟩
  · have h1 := h.1
    clear h
    induction m with
    | nil => simp [Memory.write]
    | cons d m ih =>
      obtain ⟨k, v⟩ := d
      rw [List.pairwise_cons] at h1
      simp only [Memory.write]
      split
      · rename_i hlt
        refine List.pairwise_cons.2 ⟨fun c hc => ?_, List.pairwise_cons.2 h1⟩
        rcases List.mem_cons.1 hc with rfl | hc
        · exact hlt
        · exact Nat.lt_trans hlt (h1.1 c hc)
      · split
        · rename_i _ heq
          exact List.pairwise_cons.2 ⟨fun c hc => heq ▸ h1.1 c hc, h1.2⟩
        · rename_i h2 h3
          refine List.pairwise_cons.2 ⟨fun c hc => ?_, ih h1.2⟩
          rcases Memory.mem_write hc with rfl | hc
          · show k < a; omega
          · exact h1.1 c hc
  · rcases Memory.mem_write hc with rfl | hc
    · exact ha
    · exact h.2 c hc

theorem Memory.writeBytes_wf {cap : Nat} (bs : List Byte) (m : Memory) (a : Nat) (h : m.wf cap) (ha : a + bs.length ≤ cap) :
    (m.writeBytes a bs).wf cap := by
  induction bs generalizing m a with
  | nil => exact h
  | cons b bs ih =>
    simp only [List.length_cons] at ha
    exact ih _ _ (Memory.write_wf h (by omega)) (by omega)

/-- Reading after a run of writes: byte `a' - a` of the run inside it, as before outside. -/
theorem Memory.read_writeBytes (bs : List Byte) (m : Memory) (a a' : Nat) :
    (m.writeBytes a bs).read a' =
      if h : a ≤ a' ∧ a' < a + bs.length then some (bs[a' - a]'(by omega)) else m.read a' := by
  induction bs generalizing m a with
  | nil =>
    rw [dif_neg (by simp)]; rfl
  | cons b bs ih =>
    simp only [Memory.writeBytes, ih, Memory.read_write, List.length_cons]
    by_cases h : a' = a
    · subst h; simp
    · by_cases h2 : a + 1 ≤ a' ∧ a' < a + 1 + bs.length
      · rw [dif_pos h2, dif_pos (by omega)]
        have : a' - a = (a' - (a + 1)) + 1 := by omega
        simp [this]
      · rw [dif_neg h2, dif_neg (by omega), if_neg h]

theorem Memory.read_of_lt_head {m : Memory} {a : Nat} (h : ∀ c ∈ m, a < c.1) : m.read a = none := by
  induction m with
  | nil => rfl
  | cons d m ih =>
    obtain ⟨k, v⟩ := d
    simp only [List.mem_cons, forall_eq_or_imp] at h
    rw [Memory.read, if_neg (by have := h.1; omega)]
    exact ih h.2

/-- The form is canonical: buffers in it that read alike are equal. -/
theorem Memory.eq_of_read_eq {m m' : Memory} {cap : Nat} (h : m.wf cap) (h' : m'.wf cap) (he : ∀ a, m.read a = m'.read a) :
    m = m' := by
  replace h := h.1
  replace h' := h'.1
  induction m generalizing m' with
  | nil =>
    cases m' with
    | nil => rfl
    | cons d m' => have := he d.1; simp [Memory.read] at this
  | cons c m ih =>
    obtain ⟨k, v⟩ := c
    cases m' with
    | nil => have := he k; simp [Memory.read] at this
    | cons d m' =>
      obtain ⟨k', v'⟩ := d
      rw [List.pairwise_cons] at h h'
      have hk : k = k' := by
        have e1 := he k
        have e2 := he k'
        simp only [Memory.read, if_true] at e1 e2
        by_contra hne
        rcases Nat.lt_or_gt_of_ne hne with hlt | hlt
        · rw [if_neg (by omega), Memory.read_of_lt_head (fun c hc => by have := h'.1 c hc; omega)] at e1
          simp at e1
        · rw [if_neg (by omega), Memory.read_of_lt_head (fun c hc => by have := h.1 c hc; omega)] at e2
          simp at e2
      subst hk
      have hv : v = v' := by have := he k; simpa [Memory.read] using this
      subst hv
      have : m = m' := by
        refine ih (fun a => ?_) h.2 h'.2
        by_cases ha : a = k
        · subst ha
          rw [Memory.read_of_lt_head h.1, Memory.read_of_lt_head h'.1]
        · have := he a
          rwa [Memory.read, Memory.read, if_neg (by omega), if_neg (by omega)] at this
      rw [this]

/-- `readSeq` gives a list exactly when every value is specified and is that element. -/
theorem readSeq_eq_some {α : Type} (f : Nat → Option α) (start n : Nat) (l : List α) :
    readSeq f start n = some l ↔ l.length = n ∧ ∀ i (h : i < l.length), f (start + i) = some l[i] := by
  induction n generalizing start l with
  | zero =>
    simp only [readSeq, Option.some.injEq]
    constructor
    · rintro rfl; simp
    · rintro ⟨h, -⟩; exact (List.length_eq_zero_iff.1 h).symm
  | succ n ih =>
    simp only [readSeq]
    cases l with
    | nil =>
      cases f start <;> cases readSeq f (start + 1) n <;> simp
    | cons x xs =>
      have ih' := ih (start + 1) xs
      cases h1 : f start with
      | none =>
        simp only [List.length_cons, false_iff, reduceCtorEq]
        rintro ⟨-, h⟩
        have := h 0 (by simp)
        simp [h1] at this
      | some y =>
        cases h2 : readSeq f (start + 1) n with
        | none =>
          simp only [List.length_cons, false_iff, reduceCtorEq]
          rintro ⟨hl, h⟩
          rw [h2] at ih'
          refine absurd (ih'.2 ⟨by omega, fun i hi => ?_⟩) (by simp)
          have := h (i + 1) (by simpa using hi)
          simpa [Nat.add_assoc, Nat.add_comm 1 i] using this
        | some ys =>
          rw [h2] at ih'
          simp only [Option.some.injEq, List.cons.injEq, List.length_cons, Nat.add_right_cancel_iff]
          constructor
          · rintro ⟨rfl, rfl⟩
            obtain ⟨hl, h⟩ := ih'.1 rfl
            refine ⟨hl, fun i hi => ?_⟩
            cases i with
            | zero => simpa using h1
            | succ i =>
              have := h i (by simpa using hi)
              simpa [Nat.add_assoc, Nat.add_comm 1 i] using this
          · rintro ⟨hl, h⟩
            have h0 := h 0 (by simp)
            simp only [Nat.add_zero, h1, List.getElem_cons_zero, Option.some.injEq] at h0
            refine ⟨h0, Option.some.inj (ih'.2 ⟨hl, fun i hi => ?_⟩)⟩
            have := h (i + 1) (by simpa using hi)
            simpa [Nat.add_assoc, Nat.add_comm 1 i] using this

/-- `readSeq` gives nothing exactly when one of the values is unspecified. -/
theorem readSeq_eq_none {α : Type} (f : Nat → Option α) (start n : Nat) :
    readSeq f start n = none ↔ ∃ i, i < n ∧ f (start + i) = none := by
  induction n generalizing start with
  | zero => simp [readSeq]
  | succ n ih =>
    have ih' := ih (start + 1)
    simp only [readSeq]
    cases h1 : f start with
    | none => simp only [true_iff]; exact ⟨0, by omega, by simpa using h1⟩
    | some y =>
      cases h2 : readSeq f (start + 1) n with
      | none =>
        rw [h2] at ih'
        obtain ⟨i, hi, he⟩ := ih'.1 rfl
        simp only [true_iff]
        exact ⟨i + 1, by omega, by rwa [Nat.add_comm i 1, ← Nat.add_assoc]⟩
      | some ys =>
        rw [h2] at ih'
        simp only [false_iff, reduceCtorEq] at ih' ⊢
        rintro ⟨i, hi, he⟩
        cases i with
        | zero => simp [h1] at he
        | succ i => exact ih' ⟨i, by omega, by rwa [Nat.add_assoc, Nat.add_comm 1 i]⟩

end Sys2Proof.Machine
end

