-- ==== Sys2Proof/Laws/Table.lean ====
section
/-! SUPPORT. The laws of tables: reading after writing, equality by entries, the entries in index order. -/

namespace Sys2Proof.Machine

variable {α : Type} {w : Nat}

@[simp] theorem Table.get_fill (x : α) (i : BitVec w) : (Table.fill w x).get i = x := by
  simp [Table.get, Table.fill]

@[simp] theorem Table.get_set_self (t : Table α w) (i : BitVec w) (x : α) : (t.set i x).get i = x := by
  simp [Table.get, Table.set]

theorem Table.get_set (t : Table α w) (i j : BitVec w) (x : α) :
    (t.set i x).get j = if j = i then x else t.get j := by
  by_cases h : j = i
  · subst h; simp
  · have : i.toNat ≠ j.toNat := fun e => h (BitVec.eq_of_toNat_eq e.symm)
    simp [Table.get, Table.set, h, this]

theorem Table.get_set_ne (t : Table α w) {i j : BitVec w} (x : α) (h : j ≠ i) : (t.set i x).get j = t.get j := by
  rw [Table.get_set, if_neg h]

/-- Two tables with the same entries are equal. -/
theorem Table.ext_get {t u : Table α w} (h : ∀ i, t.get i = u.get i) : t = u := by
  obtain ⟨tv, ts⟩ := t
  obtain ⟨uv, us⟩ := u
  have : tv = uv := by
    apply List.ext_getElem (by rw [ts, us])
    intro n h1 h2
    have hn : n < 2 ^ w := by rw [← ts]; exact h1
    have := h (BitVec.ofNat w n)
    simpa [Table.get, Nat.mod_eq_of_lt hn] using this
  subst this
  rfl

theorem length_allIndices : (allIndices w).length = 2 ^ w := by simp [allIndices]

theorem getElem_allIndices (n : Nat) (h : n < (allIndices w).length) : (allIndices w)[n] = BitVec.ofNat w n := by
  simp [allIndices]

@[simp] theorem mem_allIndices (i : BitVec w) : i ∈ allIndices w := by
  simp only [allIndices, List.mem_map, List.mem_range]
  exact ⟨i.toNat, i.isLt, by simp⟩

theorem allIndices_ascending : (allIndices w).Pairwise (fun a b => a.toNat < b.toNat) := by
  simp only [allIndices, List.pairwise_map]
  refine List.Pairwise.imp_of_mem ?_ List.pairwise_lt_range
  intro a b ha hb hab
  simp only [List.mem_range] at ha hb
  simpa [Nat.mod_eq_of_lt ha, Nat.mod_eq_of_lt hb] using hab

theorem allIndices_nodup : (allIndices w).Nodup :=
  allIndices_ascending.imp (fun h e => by subst e; omega)

/-- The entries of a table, index by index. -/
theorem Table.entries_eq_map (t : Table α w) : t.entries = (allIndices w).map (fun i => (i, t.get i)) := by
  apply List.ext_getElem
  · simp [Table.entries, length_allIndices, t.size]
  · intro n h1 h2
    have hn : n < 2 ^ w := by simpa [length_allIndices] using h2
    simp [Table.entries, getElem_allIndices, Table.get, Nat.mod_eq_of_lt hn]

end Sys2Proof.Machine
end

