-- ==== Sys2Proof/Laws/Operands.lean ====
section
/-! SUPPORT. The implicit operands, read in the terms claims use: the message, the stream, the keys of `FREQ`, the codes and
the longest code of a table. -/

namespace Sys2Proof.Machine

theorem message_eq_some {s : State} {msg : List Byte} : s.message = some msg ↔ Message s msg := by
  simp only [State.message, readSeq_eq_some, Message, Nat.zero_add]

theorem message_eq_none {s : State} : s.message = none ↔ ∃ i, i < s.symlen.toNat ∧ s.symbuf.read i = none := by
  simp only [State.message, readSeq_eq_none, Nat.zero_add]

theorem bitGet_eq_some {m : Memory} {p : Nat} {v : Bool} :
    bitGet m p = some v ↔ ∃ b, m.read (p / 8) = some b ∧ b.getLsbD (7 - p % 8) = v := by
  simp only [bitGet, Option.map_eq_some_iff]

theorem stream_eq_some {s : State} {bits : List Bool} : s.stream = some bits ↔ Stream s bits := by
  simp only [State.stream, readSeq_eq_some, Stream, Nat.zero_add, bitGet_eq_some]

/-- The stream is unspecified exactly when a byte that holds a stream bit is. -/
theorem stream_eq_none {s : State} :
    s.stream = none ↔ ∃ b, b < (s.bitlen.toNat + 7) / 8 ∧ s.bitbuf.read b = none := by
  simp only [State.stream, readSeq_eq_none, Nat.zero_add, bitGet, Option.map_eq_none_iff]
  constructor
  · rintro ⟨p, hp, h⟩; exact ⟨p / 8, by omega, h⟩
  · rintro ⟨b, hb, h⟩; exact ⟨8 * b, by omega, by rwa [show 8 * b / 8 = b by omega]⟩

/-- The keys the builder walks are the symbols with a non-zero count, ascending. -/
theorem presentSymbols_eq_keysOf (f : FreqTable) : presentSymbols f = keysOf f := by
  simp only [presentSymbols, keysOf, Table.entries_eq_map, List.filter_map, List.map_map, allSymbols]
  exact List.map_id _

theorem mem_keysOf {f : FreqTable} {x : Byte} : x ∈ keysOf f ↔ f.get x ≠ 0 := by
  simp [keysOf, allSymbols]

theorem keysOf_ascending (f : FreqTable) : (keysOf f).Pairwise (fun a b => a.toNat < b.toNat) :=
  allIndices_ascending.filter _

theorem keysOf_nodup (f : FreqTable) : (keysOf f).Nodup := allIndices_nodup.filter _

theorem keysOf_length_le (f : FreqTable) : (keysOf f).length ≤ 256 := by
  have := List.length_filter_le (fun x => f.get x != 0) allSymbols
  simpa [keysOf, allSymbols, length_allIndices] using this

theorem keysOf_eq_nil {f : FreqTable} : keysOf f = [] ↔ ∀ x, f.get x = 0 := by
  rw [List.eq_nil_iff_forall_not_mem]
  simp [mem_keysOf]

@[simp] theorem code_length (e : CodeEntry) : e.code.length = e.len.toNat := by simp [CodeEntry.code]

theorem code_getElem (e : CodeEntry) (j : Nat) (h : j < e.code.length) : e.code[j] = e.codeBit j := by
  simp [CodeEntry.code]

/-- A symbol's code is `a` exactly when its length and every one of its stored bits say so. -/
theorem codeIs_iff {t : CodeTable} {x : Byte} {a : List Bool} : CodeIs t x a ↔ codeOf t x = a := by
  constructor
  · rintro ⟨h1, h2⟩
    exact List.ext_getElem (by simpa [codeOf] using h1)
      (fun j h hj => (code_getElem (t.get x) j h).trans (h2 j hj))
  · rintro rfl
    exact ⟨by simp [codeOf], fun j hj => (code_getElem (t.get x) j hj).symm⟩

theorem matches_iff {t : CodeTable} {x : Byte} {a : List Bool} : (t.get x).matches a = true ↔ CodeIs t x a := by
  rw [codeIs_iff, CodeEntry.matches, codeOf, Bool.and_eq_true, beq_iff_eq, beq_iff_eq]
  exact ⟨fun h => h.2, fun h => ⟨by rw [← h, code_length], h⟩⟩

/-- The running maximum of a list is an upper bound that one of its members, or the start, reaches. -/
theorem foldl_max_spec {β : Type} (f : β → Nat) (l : List β) (m : Nat) :
    (∀ x ∈ l, f x ≤ l.foldl (fun m x => max m (f x)) m) ∧ m ≤ l.foldl (fun m x => max m (f x)) m ∧
      (l.foldl (fun m x => max m (f x)) m = m ∨ ∃ x ∈ l, l.foldl (fun m x => max m (f x)) m = f x) := by
  induction l generalizing m with
  | nil => simp
  | cons y l ih =>
    obtain ⟨h1, h2, h3⟩ := ih (max m (f y))
    simp only [List.foldl_cons, List.mem_cons, forall_eq_or_imp]
    refine ⟨⟨by omega, h1⟩, by omega, ?_⟩
    rcases h3 with h3 | ⟨x, hx, h3⟩
    · rcases Nat.le_total m (f y) with h | h
      · exact .inr ⟨y, .inl rfl, by rw [h3]; omega⟩
      · exact .inl (by rw [h3]; omega)
    · exact .inr ⟨x, .inr hx, h3⟩

theorem longestCode_isMaxLen (t : CodeTable) : IsMaxLen t (longestCode t) := by
  obtain ⟨h1, -, h3⟩ := foldl_max_spec (fun e : BitVec 8 × CodeEntry => e.2.len.toNat) t.entries 0
  rw [Table.entries_eq_map] at h1 h3
  refine ⟨fun x => ?_, ?_⟩
  · have := h1 (x, t.get x) (List.mem_map.2 ⟨x, mem_allIndices x, rfl⟩)
    rwa [longestCode, Table.entries_eq_map]
  · rw [longestCode, Table.entries_eq_map]
    rcases h3 with h3 | ⟨e, he, h3⟩
    · exact .inl h3
    · obtain ⟨x, -, rfl⟩ := List.mem_map.1 he
      exact .inr ⟨x, h3.symm⟩

theorem IsMaxLen.unique {t : CodeTable} {M N : Nat} (h : IsMaxLen t M) (h' : IsMaxLen t N) : M = N := by
  obtain ⟨h1, h2⟩ := h
  obtain ⟨h1', h2'⟩ := h'
  have a : M ≤ N := by rcases h2 with rfl | ⟨x, rfl⟩ <;> first | omega | exact h1' _
  have b : N ≤ M := by rcases h2' with rfl | ⟨x, rfl⟩ <;> first | omega | exact h1 _
  omega

theorem longestCode_le (t : CodeTable) : longestCode t ≤ 255 := by
  rcases (longestCode_isMaxLen t).2 with h | ⟨x, h⟩
  · omega
  · have := (t.get x).len.isLt; omega

/-- Element `j` of the entry made of a code: the code's, and 0 from its length on. -/
theorem codeBit_ofCode (c : List Bool) (j : Nat) (h : j < 256) : (CodeEntry.ofCode c).codeBit j = c.getD j false := by
  have hq : j / 32 % 8 = j / 32 := by omega
  simp only [CodeEntry.codeBit, CodeEntry.ofCode, Table.get, BitVec.toNat_ofNat, List.getElem_map, List.getElem_range]
  rw [getLsbD_packBits _ _ _ (by omega)]
  simp only [List.getD_eq_getElem?_getD, List.getElem?_drop]
  congr 2
  omega

/-- The entry made of a code of up to 255 bits holds exactly that code. -/
theorem code_ofCode (c : List Bool) (h : c.length ≤ 255) : (CodeEntry.ofCode c).code = c := by
  have hl : (CodeEntry.ofCode c).len.toNat = c.length := by
    simp [CodeEntry.ofCode]; omega
  refine List.ext_getElem (by rw [code_length, hl]) fun j h1 h2 => ?_
  rw [code_getElem, codeBit_ofCode c j (by omega)]
  simp [h2]

end Sys2Proof.Machine
end

