-- ==== Sys2Proof/Laws/CodeTable.lean ====
section
/-! SUPPORT. The paths of a tree, what the traversal of GENERATE gives and when it gives something, and the table it stores. -/

namespace Sys2Proof.Machine

/-! ## Paths -/

/-- A path continues a path. -/
theorem PathTo.trans {nodes : Arena} {r n j : NodeIx} {c e : List Bool} (h : PathTo nodes r n c) (h' : PathTo nodes n j e) :
    PathTo nodes r j (c ++ e) := by
  induction h' with
  | root => simpa using h
  | left _ hn ih => rw [← List.append_assoc]; exact ih.left hn
  | right _ hn ih => rw [← List.append_assoc]; exact ih.right hn

/-- A path is empty, or its first edge goes to a child of its start. -/
theorem pathTo_iff {nodes : Arena} {i j : NodeIx} {c : List Bool} : PathTo nodes i j c ↔
    (j = i ∧ c = []) ∨
      ∃ f l r, nodes.get i = .internal f l r ∧
        ((∃ d, c = false :: d ∧ PathTo nodes l j d) ∨ ∃ d, c = true :: d ∧ PathTo nodes r j d) := by
  constructor
  · intro h
    induction h with
    | root => exact .inl ⟨rfl, rfl⟩
    | @left n l r f c h hn ih =>
      rcases ih with ⟨rfl, rfl⟩ | ⟨f', l', r', hi, ⟨d, rfl, hd⟩ | ⟨d, rfl, hd⟩⟩
      · exact .inr ⟨f, l, r, hn, .inl ⟨[], rfl, .root⟩⟩
      · exact .inr ⟨f', l', r', hi, .inl ⟨d ++ [false], rfl, hd.left hn⟩⟩
      · exact .inr ⟨f', l', r', hi, .inr ⟨d ++ [false], rfl, hd.left hn⟩⟩
    | @right n l r f c h hn ih =>
      rcases ih with ⟨rfl, rfl⟩ | ⟨f', l', r', hi, ⟨d, rfl, hd⟩ | ⟨d, rfl, hd⟩⟩
      · exact .inr ⟨f, l, r, hn, .inr ⟨[], rfl, .root⟩⟩
      · exact .inr ⟨f', l', r', hi, .inl ⟨d ++ [true], rfl, hd.right hn⟩⟩
      · exact .inr ⟨f', l', r', hi, .inr ⟨d ++ [true], rfl, hd.right hn⟩⟩
  · rintro (⟨rfl, rfl⟩ | ⟨f, l, r, hi, ⟨d, rfl, hd⟩ | ⟨d, rfl, hd⟩⟩)
    · exact .root
    · exact PathTo.trans (c := [false]) (PathTo.left .root hi) hd
    · exact PathTo.trans (c := [true]) (PathTo.right .root hi) hd

/-- From a node that is no Internal only the empty path leads anywhere. -/
theorem pathTo_of_not_internal {nodes : Arena} {i j : NodeIx} {c : List Bool}
    (h : ∀ f l r, nodes.get i ≠ .internal f l r) : PathTo nodes i j c ↔ j = i ∧ c = [] := by
  rw [pathTo_iff]
  constructor
  · rintro (h' | ⟨f, l, r, hi, -⟩)
    · exact h'
    · exact absurd hi (h f l r)
  · exact .inl

/-! ## The traversal -/

/-- The traversal gives exactly the leaves below its start, each with its path behind the start's own. -/
theorem mem_visit {nodes : Arena} {fuel : Nat} {i : NodeIx} {c : List Bool} {L : List (Byte × List Bool)}
    (h : visit nodes fuel i c = some L) (x : Byte) (d : List Bool) :
    (x, d) ∈ L ↔ ∃ e j f, d = c ++ e ∧ PathTo nodes i j e ∧ nodes.get j = .leaf x f := by
  induction fuel generalizing i c L with
  | zero => simp [visit] at h
  | succ fuel ih =>
    unfold visit at h
    split at h
    · simp at h
    · rename_i hn
      obtain rfl := Option.some.inj h
      simp only [List.not_mem_nil, false_iff]
      rintro ⟨e, j, f, -, hp, hl⟩
      obtain ⟨rfl, -⟩ := (pathTo_of_not_internal (fun f l r h => by simp [hn] at h)).1 hp
      simp [hn] at hl
    · rename_i y f hn
      obtain rfl := Option.some.inj h
      simp only [List.mem_singleton, Prod.mk.injEq]
      constructor
      · rintro ⟨rfl, rfl⟩; exact ⟨[], i, f, by simp, .root, hn⟩
      · rintro ⟨e, j, g, rfl, hp, hl⟩
        obtain ⟨rfl, rfl⟩ := (pathTo_of_not_internal (fun f l r h => by simp [hn] at h)).1 hp
        rw [hn] at hl
        injection hl with h1
        exact ⟨h1.symm, by simp⟩
    · rename_i f l r hn
      split at h
      · rename_i a b ha hb
        obtain rfl := Option.some.inj h
        rw [List.mem_append, ih ha, ih hb]
        constructor
        · rintro (⟨e, j, g, rfl, hp, hl⟩ | ⟨e, j, g, rfl, hp, hl⟩)
          · exact ⟨false :: e, j, g, by simp, pathTo_iff.2 (.inr ⟨f, l, r, hn, .inl ⟨e, rfl, hp⟩⟩), hl⟩
          · exact ⟨true :: e, j, g, by simp, pathTo_iff.2 (.inr ⟨f, l, r, hn, .inr ⟨e, rfl, hp⟩⟩), hl⟩
        · rintro ⟨e, j, g, rfl, hp, hl⟩
          rcases pathTo_iff.1 hp with ⟨rfl, rfl⟩ | ⟨f', l', r', hi, hp⟩
          · simp [hn] at hl
          · rw [hn] at hi
            injection hi with _ h1 h2
            subst h1 h2
            rcases hp with ⟨e, rfl, hq⟩ | ⟨e, rfl, hq⟩
            · exact .inl ⟨e, j, g, by simp, hq, hl⟩
            · exact .inr ⟨e, j, g, by simp, hq, hl⟩
      · simp at h

/-- The traversal reaches the bottom when no entry below its start is Free, children are older than their parent, and all
Internal entries stand at `m` or later: a path then has at most `i - m + 1` edges. -/
theorem visit_isSome {nodes : Arena} {n m : Nat}
    (hfree : ∀ i : NodeIx, i.toNat < n → nodes.get i ≠ .free)
    (hint : ∀ (i : NodeIx) f l r, nodes.get i = .internal f l r → m ≤ i.toNat ∧ l.toNat < i.toNat ∧ r.toNat < i.toNat)
    (fuel : Nat) (i : NodeIx) (c : List Bool) (hi : i.toNat < n) (hf : 1 ≤ fuel) (hm : m ≤ i.toNat → i.toNat + 2 ≤ m + fuel) :
    (visit nodes fuel i c).isSome = true := by
  induction fuel generalizing i c with
  | zero => omega
  | succ fuel ih =>
    unfold visit
    split
    · rename_i h; exact absurd h (hfree i hi)
    · rfl
    · rfl
    · rename_i f l r hn
      obtain ⟨h1, h2, h3⟩ := hint i f l r hn
      have := hm h1
      have ha := ih l (c ++ [false]) (by omega) (by omega) (by omega)
      have hb := ih r (c ++ [true]) (by omega) (by omega) (by omega)
      obtain ⟨a, ha⟩ := Option.isSome_iff_exists.1 ha
      obtain ⟨b, hb⟩ := Option.isSome_iff_exists.1 hb
      simp only [ha, hb, Option.isSome_some]

/-! ## The table -/

/-- Storing codes leaves every symbol that has none as it was. -/
theorem get_foldl_set_of_not_mem (codes : List (Byte × List Bool)) (t : CodeTable) (x : Byte) (h : ∀ c, (x, c) ∉ codes) :
    (codes.foldl (fun t p => t.set p.1 (CodeEntry.ofCode p.2)) t).get x = t.get x := by
  induction codes generalizing t with
  | nil => rfl
  | cons p codes ih =>
    rw [List.foldl_cons, ih _ (fun c hc => h c (List.mem_cons_of_mem _ hc)), Table.get_set_ne]
    rintro rfl
    exact h p.2 (by simp)

/-- Storing codes gives a symbol with exactly one of them that code's entry. -/
theorem get_foldl_set_of_mem (codes : List (Byte × List Bool)) (t : CodeTable) (x : Byte) (c : List Bool)
    (h : (x, c) ∈ codes) (hu : ∀ d, (x, d) ∈ codes → d = c) :
    (codes.foldl (fun t p => t.set p.1 (CodeEntry.ofCode p.2)) t).get x = CodeEntry.ofCode c := by
  induction codes generalizing t with
  | nil => simp at h
  | cons p codes ih =>
    rw [List.foldl_cons]
    by_cases hm : ∃ d, (x, d) ∈ codes
    · obtain ⟨d, hd⟩ := hm
      obtain rfl := hu d (List.mem_cons_of_mem _ hd)
      exact ih _ hd (fun e he => hu e (List.mem_cons_of_mem _ he))
    · have hn : ∀ d, (x, d) ∉ codes := fun d hd => hm ⟨d, hd⟩
      rw [get_foldl_set_of_not_mem _ _ _ hn]
      rcases List.mem_cons.1 h with rfl | h
      · exact Table.get_set_self _ _ _
      · exact absurd h (hn c)

/-- A symbol without a recorded code has the empty entry (R142). -/
theorem tableOf_get_of_not_mem {codes : List (Byte × List Bool)} {x : Byte} (h : ∀ c, (x, c) ∉ codes) :
    (tableOf codes).get x = CodeEntry.empty := by
  rw [tableOf, get_foldl_set_of_not_mem _ _ _ h, emptyTable, Table.get_fill]

/-- A symbol with one recorded code has its entry (R142). -/
theorem tableOf_get_of_mem {codes : List (Byte × List Bool)} {x : Byte} {c : List Bool} (h : (x, c) ∈ codes)
    (hu : ∀ d, (x, d) ∈ codes → d = c) : (tableOf codes).get x = CodeEntry.ofCode c :=
  get_foldl_set_of_mem codes emptyTable x c h hu

/-- `M` bounds every recorded code, and one of them has that length (R142). -/
theorem longestOf_spec (codes : List (Byte × List Bool)) :
    (∀ p ∈ codes, p.2.length ≤ longestOf codes) ∧ (longestOf codes = 0 ∨ ∃ p ∈ codes, longestOf codes = p.2.length) := by
  obtain ⟨h1, -, h3⟩ := foldl_max_spec (fun p : Byte × List Bool => p.2.length) codes 0
  exact ⟨h1, h3⟩

/-- Every stored bit of an entry made of a code is 0 from the code's length on (R142). -/
theorem codeBit_ofCode_beyond (c : List Bool) (j : Nat) (h : j < 256) (hc : c.length ≤ j) :
    (CodeEntry.ofCode c).codeBit j = false := by
  rw [codeBit_ofCode c j h]
  simp [hc]

end Sys2Proof.Machine
end

