-- ==== Sys2Proof/Laws/Decoder.lean ====
section
/-! SUPPORT. The decoder: one step, the loop, the end of the stream, and what the phase can leave. -/

namespace Sys2Proof.Machine

/-- A symbol the look-up gives has exactly the accumulator as its code (R171). -/
theorem matchCode_sound {t : CodeTable} {a : List Bool} {x : Byte} (h : matchCode t a = some x) : CodeIs t x a := by
  simp only [matchCode, Option.map_eq_some_iff] at h
  obtain ⟨e, he, rfl⟩ := h
  have hm := List.mem_of_find?_eq_some he
  have hp := List.find?_some he
  rw [Table.entries_eq_map, List.mem_map] at hm
  obtain ⟨y, -, rfl⟩ := hm
  exact matches_iff.1 hp

/-- Everything one decoder step can do (R173). -/
theorem decodeStep_cases (t : CodeTable) (M : Nat) (d : Decoder) (v : Bool) (p : Nat) :
    (∃ x, matchCode t (d.acc ++ [v]) = some x ∧ d.out.length ≠ Config.symCap ∧
      decodeStep t M d v p = .ok { acc := [], out := d.out ++ [x] }) ∨
    (∃ x, matchCode t (d.acc ++ [v]) = some x ∧ d.out.length = Config.symCap ∧
      decodeStep t M d v p = .error (.capacity, p - d.acc.length)) ∨
    (matchCode t (d.acc ++ [v]) = none ∧ d.acc.length + 1 ≤ M ∧
      decodeStep t M d v p = .ok { acc := d.acc ++ [v], out := d.out }) ∨
    (matchCode t (d.acc ++ [v]) = none ∧ M < d.acc.length + 1 ∧
      decodeStep t M d v p = .error (.corruptStream, p - d.acc.length)) := by
  have hp : p + 1 - (d.acc ++ [v]).length = p - d.acc.length := by simp
  have hl : (d.acc ++ [v]).length = d.acc.length + 1 := by simp
  unfold decodeStep
  cases h : matchCode t (d.acc ++ [v]) with
  | some x =>
    by_cases hc : d.out.length = Config.symCap
    · exact .inr (.inl ⟨x, rfl, hc, by simp only [h, hc, if_true, hp]⟩)
    · exact .inl ⟨x, rfl, hc, by simp only [h, if_neg hc]⟩
  | none =>
    by_cases hc : M < (d.acc ++ [v]).length
    · exact .inr (.inr (.inr ⟨rfl, by omega, by simp only [h, if_pos hc, hp]⟩))
    · exact .inr (.inr (.inl ⟨rfl, by omega, by simp only [h, if_neg hc]⟩))

/-- The loop passes over a prefix that decodes. -/
theorem decodeLoop_append {t : CodeTable} {M p : Nat} {b1 b2 : List Bool} {d : Decoder} :
    decodeLoop t M p (b1 ++ b2) d =
      match decodeLoop t M p b1 d with
      | .error e => .error e
      | .ok d' => decodeLoop t M (p + b1.length) b2 d' := by
  induction b1 generalizing p d with
  | nil => simp [decodeLoop]
  | cons v b1 ih =>
    simp only [List.cons_append, decodeLoop]
    cases decodeStep t M d v p with
    | error e => rfl
    | ok d' => simp only [ih, List.length_cons]; simp only [Nat.add_assoc, Nat.add_comm 1]

/-- The loop's last step. -/
theorem decodeLoop_concat {t : CodeTable} {M p : Nat} {bits : List Bool} {v : Bool} {d : Decoder} :
    decodeLoop t M p (bits ++ [v]) d =
      match decodeLoop t M p bits d with
      | .error e => .error e
      | .ok d' => decodeStep t M d' v (p + bits.length) := by
  rw [decodeLoop_append]
  cases decodeLoop t M p bits d with
  | error e => rfl
  | ok d' =>
    simp only [decodeLoop]
    cases decodeStep t M d' v (p + bits.length) <;> rfl

/-- What the loop keeps true: no more than `SYM_CAP` symbols are emitted, and its errors are CapacityError and
CorruptStreamError. -/
theorem decodeLoop_inv {t : CodeTable} {M p : Nat} {bits : List Bool} {d : Decoder} (h : d.out.length ≤ Config.symCap) :
    (∀ d', decodeLoop t M p bits d = .ok d' → d'.out.length ≤ Config.symCap) ∧
      ∀ e x, decodeLoop t M p bits d = .error (e, x) → e = .capacity ∨ e = .corruptStream := by
  induction bits generalizing p d with
  | nil =>
    simp only [decodeLoop, Except.ok.injEq, reduceCtorEq, false_imp_iff, implies_true, and_true]
    rintro d' rfl
    exact h
  | cons v bits ih =>
    simp only [decodeLoop]
    rcases decodeStep_cases t M d v p with ⟨x, -, hc, he⟩ | ⟨x, -, -, he⟩ | ⟨-, -, he⟩ | ⟨-, -, he⟩ <;> rw [he]
    · refine ih ?_
      simp only [List.length_append, List.length_cons, List.length_nil]
      omega
    · simp only [reduceCtorEq, false_imp_iff, implies_true, Except.error.injEq, Prod.mk.injEq, true_and]
      rintro e x ⟨rfl, -⟩; exact .inl rfl
    · exact ih h
    · simp only [reduceCtorEq, false_imp_iff, implies_true, Except.error.injEq, Prod.mk.injEq, true_and]
      rintro e x ⟨rfl, -⟩; exact .inr rfl

/-- A decoded message fits `SYMBUF`, and DECODE's errors are its three (R172). -/
theorem decodeStream_inv (t : CodeTable) (bits : List Bool) :
    (∀ out, decodeStream t bits = .ok out → out.length ≤ Config.symCap) ∧
      ∀ e x, decodeStream t bits = .error (e, x) → e = .capacity ∨ e = .corruptStream ∨ e = .truncatedStream := by
  obtain ⟨h1, h2⟩ := decodeLoop_inv (t := t) (M := longestCode t) (p := 0) (bits := bits) (d := ⟨[], []⟩) (by simp)
  unfold decodeStream
  cases hd : decodeLoop t (longestCode t) 0 bits ⟨[], []⟩ with
  | error e =>
    simp only [reduceCtorEq, false_imp_iff, implies_true, Except.error.injEq, true_and]
    rintro e' x rfl
    rcases h2 _ _ hd with h | h
    · exact .inl h
    · exact .inr (.inl h)
  | ok d =>
    by_cases ha : d.acc = []
    · simp only [ha, if_true, Except.ok.injEq, reduceCtorEq, false_imp_iff, implies_true, and_true]
      rintro out rfl
      exact h1 _ hd
    · simp only [ha, if_false, Except.error.injEq, Prod.mk.injEq, reduceCtorEq, false_imp_iff, implies_true, true_and]
      rintro e x ⟨rfl, -⟩
      exact .inr (.inr rfl)

/-- What DECODE can leave: the message, or a failure with its clean-up; `MAXLEN` is recomputed either way (R172). -/
theorem runDecode_cases (bits : List Bool) (s : State) :
    (∃ out, decodeStream s.codetab bits = .ok out ∧ runDecode bits s = .ok
        { s with
          maxlen := BitVec.ofNat 32 (longestCode s.codetab), symbuf := s.symbuf.writeBytes 0 out
          symlen := BitVec.ofNat 32 out.length }) ∨
      ∃ e x, decodeStream s.codetab bits = .error (e, x) ∧ runDecode bits s =
        .error (decodeFail e x { s with maxlen := BitVec.ofNat 32 (longestCode s.codetab) }) := by
  unfold runDecode
  cases h : decodeStream s.codetab bits with
  | ok out => exact .inl ⟨out, rfl, by simp only [h]⟩
  | error e => exact .inr ⟨e.1, e.2, rfl, by simp only [h]⟩

/-- DECODE keeps the canonical form of `SYMBUF`. -/
theorem runDecode_wf (bits : List Bool) (s : State) (h : s.symbuf.wf Config.symCap) :
    (runDecode bits s).state.symbuf.wf Config.symCap := by
  rcases runDecode_cases bits s with ⟨out, ho, h1⟩ | ⟨e, x, -, h1⟩
  · rw [h1]
    have := (decodeStream_inv s.codetab bits).1 out ho
    exact Memory.writeBytes_wf _ _ _ h (by omega)
  · rw [h1]; exact Memory.unspecAll_wf _

end Sys2Proof.Machine
end

