-- ==== Sys2Proof/Laws/Encoder.lean ====
section
/-! SUPPORT. PACK's loop, the bytes it stores, and what the phase can leave. -/

namespace Sys2Proof.Machine

/-- The loop succeeds exactly when every symbol has a code and every code fits behind the ones before it; it then appends the
codes in order. -/
theorem packLoop_ok {t : CodeTable} {i : Nat} {msg : List Byte} {out res : List Bool} :
    packLoop t i msg out = .ok res ↔
      (∀ x ∈ msg, (t.get x).len ≠ 0) ∧ res = out ++ msg.flatMap (codeOf t) ∧ (msg ≠ [] → res.length ≤ Config.bitCap) := by
  induction msg generalizing i out with
  | nil => simp [packLoop, eq_comm (a := res)]
  | cons x msg ih =>
    have hlen : (codeOf t x).length = (t.get x).len.toNat := code_length _
    simp only [packLoop]
    split
    · rename_i h; simp [h]
    · rename_i h
      split
      · rename_i h2
        simp only [reduceCtorEq, List.mem_cons, List.flatMap_cons, false_iff, not_and]
        rintro - rfl h3
        have := h3 (by simp)
        simp only [List.length_append] at this
        omega
      · rename_i h2
        rw [ih]
        simp only [List.mem_cons, forall_eq_or_imp, List.flatMap_cons, List.append_assoc, ne_eq, h, not_false_eq_true, true_and,
          reduceCtorEq, forall_const]
        refine and_congr_right fun _ => and_congr_right fun hr => ⟨fun h3 => ?_, fun h3 _ => h3⟩
        rcases msg with _ | ⟨y, msg⟩
        · subst hr
          simp only [List.flatMap_nil, List.append_nil, List.length_append]
          omega
        · exact h3 (by simp)

/-- The loop passes over a prefix that packs. -/
theorem packLoop_append {t : CodeTable} {i : Nat} {m1 m2 : List Byte} {out : List Bool}
    (h1 : ∀ x ∈ m1, (t.get x).len ≠ 0) (h2 : (out ++ m1.flatMap (codeOf t)).length ≤ Config.bitCap) :
    packLoop t i (m1 ++ m2) out = packLoop t (i + m1.length) m2 (out ++ m1.flatMap (codeOf t)) := by
  induction m1 generalizing i out with
  | nil => simp
  | cons x m1 ih =>
    have hlen : (codeOf t x).length = (t.get x).len.toNat := code_length _
    simp only [List.mem_cons, forall_eq_or_imp] at h1
    simp only [List.flatMap_cons, List.length_append] at h2
    simp only [List.cons_append, packLoop, if_neg h1.1, if_neg (show ¬ Config.bitCap < out.length + (t.get x).len.toNat by omega)]
    rw [ih h1.2 (by simp only [List.length_append]; omega)]
    simp [Nat.add_assoc, Nat.add_comm 1]

@[simp] theorem streamBytes_length (out : List Bool) : (streamBytes out).length = (out.length + 7) / 8 := by
  simp [streamBytes]

/-- Bit `7 - r` of stored byte `b` is element `8b + r` of the bit-string, 0 beyond its end (R68, R69). -/
theorem getLsbD_streamBytes (out : List Bool) (b r : Nat) (hb : b < (streamBytes out).length) (hr : r < 8) :
    (streamBytes out)[b].getLsbD (7 - r) = out.getD (8 * b + r) false := by
  simp only [streamBytes, List.getElem_map, List.getElem_range]
  rw [getLsbD_packBits _ _ _ (by omega)]
  simp only [List.getD_eq_getElem?_getD, List.getElem?_drop]
  congr 2
  omega

/-- The stored bytes, read back as a byte of the buffer. -/
theorem read_streamBytes (m : Memory) (out : List Bool) (p : Nat) (hp : p < 8 * ((out.length + 7) / 8)) :
    ∃ b, (m.writeBytes 0 (streamBytes out)).read (p / 8) = some b ∧ b.getLsbD (7 - p % 8) = out.getD p false := by
  have hb : p / 8 < (streamBytes out).length := by rw [streamBytes_length]; omega
  refine ⟨(streamBytes out)[p / 8], ?_, ?_⟩
  · rw [Memory.read_writeBytes, dif_pos (by omega)]; simp
  · rw [getLsbD_streamBytes out _ _ hb (by omega)]
    congr 1
    omega

/-- Beyond the stored bytes the buffer is as before. -/
theorem read_streamBytes_beyond (m : Memory) (out : List Bool) (a : Nat) (ha : (out.length + 7) / 8 ≤ a) :
    (m.writeBytes 0 (streamBytes out)).read a = m.read a := by
  rw [Memory.read_writeBytes, dif_neg (by rw [streamBytes_length]; omega)]

/-- What PACK can leave: the packed codes, or a failure with its clean-up. -/
theorem runPack_cases (msg : List Byte) (s : State) :
    (∃ out, packLoop s.codetab 0 msg [] = .ok out ∧ runPack msg s = .ok
        { s with bitbuf := s.bitbuf.writeBytes 0 (streamBytes out), bitlen := BitVec.ofNat 32 out.length }) ∨
      ∃ e i, packLoop s.codetab 0 msg [] = .error (e, i) ∧ runPack msg s = .error (packFail e i s) := by
  unfold runPack
  cases packLoop s.codetab 0 msg [] with
  | ok out => exact .inl ⟨out, rfl, rfl⟩
  | error e => exact .inr ⟨e.1, e.2, rfl, rfl⟩

/-- A packed bit-string fits `BITBUF`. -/
theorem packLoop_length {t : CodeTable} {msg : List Byte} {out : List Bool} (h : packLoop t 0 msg [] = .ok out) :
    out.length ≤ Config.bitCap := by
  obtain ⟨-, h1, h2⟩ := packLoop_ok.1 h
  cases msg with
  | nil => subst h1; simp
  | cons x msg => exact h2 (by simp)

/-- PACK's errors are NoCodeError and CapacityError (R152). -/
theorem packLoop_error {t : CodeTable} {i j : Nat} {msg : List Byte} {out : List Bool} {e : ErrKind}
    (h : packLoop t i msg out = .error (e, j)) : e = .noCode ∨ e = .capacity := by
  induction msg generalizing i out with
  | nil => simp [packLoop] at h
  | cons x msg ih =>
    simp only [packLoop] at h
    split at h
    · simp only [Except.error.injEq, Prod.mk.injEq] at h; exact .inl h.1.symm
    · split at h
      · simp only [Except.error.injEq, Prod.mk.injEq] at h; exact .inr h.1.symm
      · exact ih h

/-- PACK keeps the canonical form of `BITBUF`. -/
theorem runPack_wf (msg : List Byte) (s : State) (h : s.bitbuf.wf Config.bitBytes) :
    (runPack msg s).state.bitbuf.wf Config.bitBytes := by
  rcases runPack_cases msg s with ⟨out, ho, h1⟩ | ⟨e, i, -, h1⟩
  · rw [h1]
    have := packLoop_length ho
    refine Memory.writeBytes_wf _ _ _ h ?_
    rw [streamBytes_length]
    simp only [Config.bitCap, Config.bitBytes] at *
    omega
  · rw [h1]; exact Memory.unspecAll_wf _

end Sys2Proof.Machine
end

