-- ==== Sys2Proof/Laws/Tree.lean ====
section
/-! SUPPORT. BUILD's order, its queue, the seeding of the leaves and one turn of the merge loop. -/

namespace Sys2Proof.Machine

/-- The machine's comparison is the order of R123. -/
theorem keyLt_iff {nodes : Arena} {a b : NodeIx} : keyLt nodes a b = true ↔ KeyLt nodes a b := by
  simp only [keyLt, KeyLt, BitVec.ult, Bool.or_eq_true, Bool.and_eq_true, decide_eq_true_eq, beq_iff_eq, BitVec.toNat_inj]

theorem KeyLt.irrefl {nodes : Arena} {a : NodeIx} : ¬ KeyLt nodes a a := by
  simp [KeyLt]

theorem KeyLt.trans {nodes : Arena} {a b c : NodeIx} (h : KeyLt nodes a b) (h' : KeyLt nodes b c) : KeyLt nodes a c := by
  simp only [KeyLt] at *
  omega

/-- The order is total: no two nodes tie (R123). -/
theorem KeyLt.total {nodes : Arena} {a b : NodeIx} (h : a ≠ b) : KeyLt nodes a b ∨ KeyLt nodes b a := by
  have : a.toNat ≠ b.toNat := fun e => h (BitVec.eq_of_toNat_eq e)
  simp only [KeyLt]
  omega

/-- `min_key` is in the queue and below every other node of it (R14). -/
theorem minKey_spec (nodes : Arena) (x : NodeIx) (q : List NodeIx) :
    minKey nodes x q ∈ x :: q ∧ ∀ y ∈ x :: q, y ≠ minKey nodes x q → KeyLt nodes (minKey nodes x q) y := by
  induction q generalizing x with
  | nil => simp [minKey]
  | cons z q ih =>
    simp only [minKey, List.foldl_cons] at ih ⊢
    obtain ⟨h1, h2⟩ := ih (if keyLt nodes z x then z else x)
    generalize hm : List.foldl (fun m y => if keyLt nodes y m then y else m) (if keyLt nodes z x then z else x) q = m at h1 h2
    by_cases hz : keyLt nodes z x = true
    · rw [if_pos hz] at h1 h2
      rw [keyLt_iff] at hz
      refine ⟨List.mem_cons_of_mem _ h1, fun y hy hne => ?_⟩
      rcases List.mem_cons.1 hy with rfl | hy
      · by_cases h : z = m
        · exact h ▸ hz
        · exact (h2 z (by simp) h).trans hz
      · exact h2 y hy hne
    · rw [if_neg hz] at h1 h2
      rw [keyLt_iff] at hz
      refine ⟨by rcases List.mem_cons.1 h1 with h | h <;> simp [h], fun y hy hne => ?_⟩
      rcases List.mem_cons.1 hy with rfl | hy
      · exact h2 y (by simp) hne
      · rcases List.mem_cons.1 hy with rfl | hy
        · by_cases hyx : y = x
          · exact h2 y (by simp [hyx]) hne
          · have hxy := (KeyLt.total hyx).resolve_left hz
            by_cases h : x = m
            · exact h ▸ hxy
            · exact (h2 x (by simp) h).trans hxy
        · exact h2 y (List.mem_cons_of_mem _ hy) hne

theorem popMin_eq_none {nodes : Arena} {q : List NodeIx} : popMin nodes q = none ↔ q = [] := by
  cases q <;> simp [popMin]

/-- A pop takes the node of the lowest key and leaves the others. -/
theorem popMin_some {nodes : Arena} {q q' : List NodeIx} {a : NodeIx} (h : popMin nodes q = some (a, q')) :
    a ∈ q ∧ q' = q.erase a ∧ ∀ y ∈ q, y ≠ a → KeyLt nodes a y := by
  cases q with
  | nil => simp [popMin] at h
  | cons x q =>
    simp only [popMin, Option.some.injEq, Prod.mk.injEq] at h
    obtain ⟨rfl, rfl⟩ := h
    exact ⟨(minKey_spec nodes x q).1, rfl, (minKey_spec nodes x q).2⟩

/-- One turn of the merge loop: it ends with fewer than two nodes, else the two lowest keys give the next entry (R125). -/
theorem mergeOnce_cases (m : Merge) :
    (mergeOnce m = none ∧ m.queue.length < 2) ∨
    ∃ a b, a ∈ m.queue ∧ b ∈ m.queue.erase a ∧ (∀ y ∈ m.queue, y ≠ a → KeyLt m.nodes a y) ∧
      (∀ y ∈ m.queue.erase a, y ≠ b → KeyLt m.nodes b y) ∧
      mergeOnce m = some
        { nodes := m.nodes.set (BitVec.ofNat 9 m.next) (.internal ((m.nodes.get a).freq + (m.nodes.get b).freq) a b)
          queue := (m.queue.erase a).erase b ++ [BitVec.ofNat 9 m.next]
          next := m.next + 1 } := by
  unfold mergeOnce
  cases h1 : popMin m.nodes m.queue with
  | none => rw [popMin_eq_none] at h1; exact .inl ⟨rfl, by simp [h1]⟩
  | some p =>
    obtain ⟨a, q1⟩ := p
    obtain ⟨ha, rfl, hlt⟩ := popMin_some h1
    simp only
    cases h2 : popMin m.nodes (m.queue.erase a) with
    | none =>
      rw [popMin_eq_none] at h2
      refine .inl ⟨rfl, ?_⟩
      have := List.length_erase_of_mem ha
      rw [h2] at this
      simp only [List.length_nil] at this
      omega
    | some p =>
      obtain ⟨b, q2⟩ := p
      obtain ⟨hb, rfl, hlt2⟩ := popMin_some h2
      exact .inr ⟨a, b, ha, hb, hlt, hlt2, rfl⟩

/-- A turn shortens the queue by one. -/
theorem mergeOnce_length {m m' : Merge} (h : mergeOnce m = some m') :
    m'.queue.length + 1 = m.queue.length ∧ m'.next = m.next + 1 := by
  rcases mergeOnce_cases m with ⟨h1, -⟩ | ⟨a, b, ha, hb, -, -, h1⟩
  · simp [h1] at h
  · rw [h1] at h
    obtain rfl := Option.some.inj h
    have e1 := List.length_erase_of_mem ha
    have e2 := List.length_erase_of_mem hb
    have p1 := List.length_pos_of_mem ha
    have p2 := List.length_pos_of_mem hb
    simp only [List.length_append, List.length_cons, List.length_nil, and_true]
    omega

/-- An invariant of the loop: what holds at its start and is kept by every turn holds at its end. -/
theorem mergeLoop_induction {P : Merge → Prop} (hstep : ∀ m m', P m → mergeOnce m = some m' → P m') :
    ∀ fuel m, P m → P (mergeLoop fuel m)
  | 0, _, h => h
  | fuel + 1, m, h => by
    unfold mergeLoop
    cases hm : mergeOnce m with
    | none => exact h
    | some m' => exact mergeLoop_induction hstep fuel m' (hstep m m' h hm)

/-- With enough fuel the loop ends with one node in the queue, after as many turns as the queue had nodes to spare. -/
theorem mergeLoop_length (fuel : Nat) (m : Merge) (h1 : 1 ≤ m.queue.length) (h2 : m.queue.length ≤ fuel + 1) :
    (mergeLoop fuel m).queue.length = 1 ∧ (mergeLoop fuel m).next + 1 = m.next + m.queue.length := by
  induction fuel generalizing m with
  | zero => exact ⟨by simp only [mergeLoop]; omega, by simp only [mergeLoop]; omega⟩
  | succ fuel ih =>
    unfold mergeLoop
    cases hm : mergeOnce m with
    | none =>
      rcases mergeOnce_cases m with ⟨-, hq⟩ | ⟨a, b, -, -, -, -, h⟩
      · simp only; omega
      · simp [hm] at h
    | some m' =>
      have hl := mergeOnce_length hm
      have hp : 1 ≤ m'.queue.length := by
        rcases mergeOnce_cases m with ⟨h, -⟩ | ⟨a, b, -, -, -, -, h⟩
        · simp [hm] at h
        · rw [hm] at h; obtain rfl := Option.some.inj h; simp
      have := ih m' hp (by omega)
      simp only
      omega

/-- The seeded leaves: consecutive entries from `j`, in the order of the symbols; every other entry as before (R122). -/
theorem seedLeaves_get (freq : FreqTable) (nodes : Arena) (j : Nat) (syms : List Byte) (hj : j + syms.length ≤ 512) (i : NodeIx) :
    (seedLeaves freq nodes j syms).get i =
      if h : j ≤ i.toNat ∧ i.toNat < j + syms.length then
        .leaf (syms[i.toNat - j]'(by omega)) (widen (freq.get (syms[i.toNat - j]'(by omega))))
      else nodes.get i := by
  induction syms generalizing nodes j with
  | nil => rw [dif_neg (by simp)]; rfl
  | cons x syms ih =>
    simp only [List.length_cons] at hj
    have hlen : (x :: syms).length = syms.length + 1 := rfl
    rw [seedLeaves, ih _ _ (by omega)]
    have hjt : (BitVec.ofNat 9 j).toNat = j := by rw [BitVec.toNat_ofNat]; omega
    by_cases h : i.toNat = j
    · have hi : i = BitVec.ofNat 9 j := BitVec.eq_of_toNat_eq (by rw [hjt, h])
      rw [dif_neg (by omega), dif_pos (by rw [hlen]; omega)]
      subst hi
      simp only [Table.get_set_self, hjt, Nat.sub_self, List.getElem_cons_zero]
    · have hi : i ≠ BitVec.ofNat 9 j := fun e => h (by rw [e, hjt])
      by_cases h2 : j + 1 ≤ i.toNat ∧ i.toNat < j + 1 + syms.length
      · rw [dif_pos h2, dif_pos (by rw [hlen]; omega)]
        have e : i.toNat - j = (i.toNat - (j + 1)) + 1 := by omega
        simp only [e, List.getElem_cons_succ]
      · rw [dif_neg h2, dif_neg (by rw [hlen]; omega), Table.get_set_ne _ _ hi]

/-- The frequency of a leaf is its count: the zero extension loses nothing (R7, R122). -/
@[simp] theorem widen_toNat (c : Word) : (widen c).toNat = c.toNat := by
  have := c.isLt
  simp only [widen, BitVec.toNat_setWidth]
  omega

/-- What BUILD can leave: EmptyInputError on a cleared tree, or the tree of the present symbols. -/
theorem runBuild_cases (s : State) :
    (keysOf s.freq = [] ∧ runBuild s = .error (raise .emptyInput 0 (clearTree s))) ∨
    (keysOf s.freq ≠ [] ∧ runBuild s = .ok
      { s with
        node := (buildArena s.freq).1, nleaves := BitVec.ofNat 32 (keysOf s.freq).length
        nnodes := BitVec.ofNat 32 (buildArena s.freq).2, root := BitVec.ofNat 32 ((buildArena s.freq).2 - 1)
        treeValid := true }) := by
  unfold runBuild
  rw [presentSymbols_eq_keysOf]
  by_cases h : keysOf s.freq = []
  · exact .inl ⟨h, if_pos h⟩
  · exact .inr ⟨h, if_neg h⟩

/-- How many entries BUILD fills (R31). -/
theorem buildArena_size (freq : FreqTable) (h : keysOf freq ≠ []) :
    (buildArena freq).2 = if (keysOf freq).length = 1 then 3 else 2 * (keysOf freq).length - 1 := by
  unfold buildArena
  rw [presentSymbols_eq_keysOf]
  have hpos : 1 ≤ (keysOf freq).length := List.length_pos_iff.2 h
  by_cases h1 : (keysOf freq).length = 1
  · simp [h1]
  · rw [if_neg h1, if_neg h1]
    have hq : (seedMerge freq).queue.length = (keysOf freq).length := by
      simp [seedMerge, presentSymbols_eq_keysOf]
    have hn : (seedMerge freq).next = (keysOf freq).length := by simp only [seedMerge, presentSymbols_eq_keysOf]
    have := (mergeLoop_length (keysOf freq).length (seedMerge freq) (by omega) (by omega)).2
    simp only
    omega

end Sys2Proof.Machine
end

