-- ==== Sys2Proof/Laws/Merge.lean ====
section
/-! SUPPORT. The invariant of BUILD's merge loop: what the arena, the queue and the sum of the frequencies are after every turn,
and what the arena is in the end. -/

namespace Sys2Proof.Machine

/-- What the children `a`, `b` of entry `n` were when it was created: the two lowest keys of the queue (R125). -/
def MergedLowest (nodes : Arena) (n a b : NodeIx) : Prop :=
  InQueueAt nodes n a ∧ InQueueAt nodes n b ∧ KeyLt nodes a b ∧ ∀ j, InQueueAt nodes n j → j ≠ a → j ≠ b → KeyLt nodes b j

/-- The merge loop's invariant, from the seeded arena `start` with `k` leaves whose counts add up to `total`. -/
structure MergeInv (start : Arena) (k total : Nat) (m : Merge) : Prop where
  le : k ≤ m.next
  count : m.queue.length + m.next = 2 * k
  nonempty : 1 ≤ m.queue.length
  nodup : m.queue.Nodup
  lt : ∀ q ∈ m.queue, q.toNat < m.next
  leaf : ∀ i : NodeIx, i.toNat < k → m.nodes.get i = start.get i
  internal : ∀ i : NodeIx, k ≤ i.toNat → i.toNat < m.next → ∃ f l r, m.nodes.get i = .internal f l r ∧
    l.toNat < i.toNat ∧ r.toNat < i.toNat ∧ l ≠ r ∧
    f.toNat = (m.nodes.get l).freq.toNat + (m.nodes.get r).freq.toNat ∧ MergedLowest m.nodes i l r
  free : ∀ i : NodeIx, m.next ≤ i.toNat → m.nodes.get i = .free
  queued : ∀ c : NodeIx, c.toNat < m.next → (c ∈ m.queue ↔ ∀ p, ¬ IsChild m.nodes c p)
  parent : ∀ c p p' : NodeIx, IsChild m.nodes c p → IsChild m.nodes c p' → p' = p
  sum : (m.queue.map (fun q => (m.nodes.get q).freq.toNat)).sum = total

/-- Storing an Internal node in a Free entry adds its two children and nothing else. -/
theorem isChild_set {nodes : Arena} {n c p : NodeIx} {f : NodeFreq} {a b : NodeIx} (hn : nodes.get n = .free) :
    IsChild (nodes.set n (.internal f a b)) c p ↔ (p = n ∧ (c = a ∨ c = b)) ∨ IsChild nodes c p := by
  unfold IsChild
  by_cases hp : p = n
  · subst hp
    simp only [Table.get_set_self, true_and, hn, reduceCtorEq, false_and, exists_false, or_false]
    constructor
    · rintro ⟨f', l, r, h, hc⟩
      injection h with _ h1 h2
      subst h1 h2
      exact hc
    · exact fun h => ⟨f, a, b, rfl, h⟩
  · simp only [Table.get_set_ne _ _ hp, hp, false_and, false_or]

/-- Taking one node out of a queue takes its value out of the sum. -/
theorem sum_erase {l : List NodeIx} {a : NodeIx} (g : NodeIx → Nat) (h : a ∈ l) :
    ((l.erase a).map g).sum + g a = (l.map g).sum := by
  have := (List.perm_cons_erase h).map g
  have := this.sum_eq
  rw [this]
  simp only [List.map_cons, List.sum_cons]
  omega

/-- The queue at entry `i` does not see entries from `i` on. -/
theorem InQueueAt.set {nodes : Arena} {n i j : NodeIx} {x : Node} (hn : i.toNat ≤ n.toNat) :
    InQueueAt (nodes.set n x) i j ↔ InQueueAt nodes i j := by
  unfold InQueueAt
  refine and_congr_right fun _ => forall_congr' fun p => imp_congr_right fun hp => ?_
  have : p ≠ n := fun e => by subst e; omega
  simp only [IsChild, Table.get_set_ne _ _ this]

/-- Every turn of the loop keeps the invariant; no sum wraps. -/
theorem MergeInv.step {start : Arena} {k total : Nat} {m m' : Merge} (hk : k ≤ 256) (ht : total < 2 ^ 40)
    (hstart : ∀ i : NodeIx, i.toNat < k → ∃ x f, start.get i = .leaf x f)
    (h : MergeInv start k total m) (hm : mergeOnce m = some m') : MergeInv start k total m' := by
  obtain ⟨hle, hcount, hne, hnd, hlt, hleaf, hint, hfree, hq, hpar, hsum⟩ := h
  rcases mergeOnce_cases m with ⟨h1, -⟩ | ⟨a, b, ha, hb, hlowa, hlowb, h1⟩
  · simp [h1] at hm
  rw [h1] at hm
  have hbq : b ∈ m.queue := List.mem_of_mem_erase hb
  have hba : b ≠ a := fun e => by
    subst e; exact (List.Nodup.not_mem_erase hnd) hb
  have e1 := List.length_erase_of_mem ha
  have e2 := List.length_erase_of_mem hb
  have p2 := List.length_pos_of_mem hb
  have hnext : m.next < 511 := by omega
  generalize hn : (BitVec.ofNat 9 m.next : NodeIx) = n at *
  have hnt : n.toNat = m.next := by rw [← hn, BitVec.toNat_ofNat]; omega
  have han := hlt a ha
  have hbn := hlt b hbq
  have hanode : a ≠ n := fun e => by rw [e, hnt] at han; omega
  have hbnode : b ≠ n := fun e => by rw [e, hnt] at hbn; omega
  have hnf : m.nodes.get n = .free := hfree n (by omega)
  have hnq : n ∉ m.queue := fun hc => by have := hlt n hc; omega
  obtain rfl := Option.some.inj hm
  -- frequencies of the queue
  have s1 : ((m.queue.erase a).map (fun q => (m.nodes.get q).freq.toNat)).sum + (m.nodes.get a).freq.toNat = (m.queue.map (fun q => (m.nodes.get q).freq.toNat)).sum := sum_erase _ ha
  have s2 : (((m.queue.erase a).erase b).map (fun q => (m.nodes.get q).freq.toNat)).sum + (m.nodes.get b).freq.toNat = ((m.queue.erase a).map (fun q => (m.nodes.get q).freq.toNat)).sum := sum_erase _ hb
  have hfadd : ((m.nodes.get a).freq + (m.nodes.get b).freq).toNat = (m.nodes.get a).freq.toNat + (m.nodes.get b).freq.toNat := by
    rw [BitVec.toNat_add, Nat.mod_eq_of_lt]
    omega
  generalize hf : (m.nodes.get a).freq + (m.nodes.get b).freq = f at *
  have hget : ∀ i : NodeIx, i ≠ n → (m.nodes.set n (.internal f a b)).get i = m.nodes.get i :=
    fun i hi => Table.get_set_ne _ _ hi
  have hnlt : ∀ i : NodeIx, i.toNat < m.next → i ≠ n := fun i hi e => by rw [e, hnt] at hi; omega
  have hnoch : ∀ p, ¬ IsChild m.nodes n p := by
    rintro p ⟨f', l, r, hp, hc⟩
    by_cases hpk : k ≤ p.toNat
    · by_cases hpn : p.toNat < m.next
      · obtain ⟨f2, l2, r2, hp2, hl2, hr2, -⟩ := hint p hpk hpn
        rw [hp] at hp2
        injection hp2 with _ x y
        subst x y
        rcases hc with rfl | rfl <;> omega
      · rw [hfree p (by omega)] at hp; simp at hp
    · obtain ⟨x, g, hx⟩ := hstart p (by omega)
      rw [hleaf p (by omega), hx] at hp; simp at hp
  have hinq : ∀ j : NodeIx, InQueueAt m.nodes n j ↔ j ∈ m.queue := by
    intro j
    unfold InQueueAt
    rw [hnt]
    constructor
    · rintro ⟨hj, hnoc⟩
      rw [hq j hj]
      intro p hc
      by_cases hp : p.toNat < m.next
      · exact hnoc p hp hc
      · obtain ⟨f', l, r, hp', -⟩ := hc
        rw [hfree p (by omega)] at hp'; simp at hp'
    · intro hj
      exact ⟨hlt j hj, fun p _ => (hq j (hlt j hj)).1 hj p⟩
  refine ⟨by simp only; omega, ?_, ?_, ?_, ?_, ?_, ?_, ?_, ?_, ?_, ?_⟩
  · simp only [List.length_append, List.length_cons, List.length_nil]; omega
  · simp
  · simp only
    rw [List.nodup_append]
    refine ⟨(hnd.erase a).erase b, by simp, ?_⟩
    intro x hx y hy
    rw [List.mem_singleton] at hy
    subst hy
    rintro rfl
    exact hnq (List.mem_of_mem_erase (List.mem_of_mem_erase hx))
  · intro q hqm
    simp only [List.mem_append, List.mem_singleton] at hqm
    rcases hqm with hqm | rfl
    · have := hlt q (List.mem_of_mem_erase (List.mem_of_mem_erase hqm)); simp only; omega
    · simp only; omega
  · intro i hi
    simp only
    rw [hget i (hnlt i (by omega))]; exact hleaf i hi
  · intro i hi1 hi2
    simp only at hi2 ⊢
    by_cases hin : i = n
    · subst hin
      refine ⟨f, a, b, by simp, by omega, by omega, fun e => hba e.symm, ?_, ?_⟩
      · rw [hget a hanode, hget b hbnode]; exact hfadd
      · have hkey : ∀ x y, x ≠ i → y ≠ i → (KeyLt (m.nodes.set i (.internal f a b)) x y ↔ KeyLt m.nodes x y) := by
          intro x y hx hy
          unfold KeyLt
          rw [hget x hx, hget y hy]
        refine ⟨(InQueueAt.set (Nat.le_refl _)).2 ((hinq a).2 ha), (InQueueAt.set (Nat.le_refl _)).2 ((hinq b).2 hbq),
          (hkey a b hanode hbnode).2 (hlowa b hbq hba), fun j hj hja hjb => ?_⟩
        have hjq := (hinq j).1 ((InQueueAt.set (Nat.le_refl _)).1 hj)
        exact (hkey b j hbnode (hnlt j (hlt j hjq))).2 (hlowb j ((List.mem_erase_of_ne hja).2 hjq) hjb)
    · have hi3 : i.toNat < m.next := by
        have : i.toNat ≠ n.toNat := fun e => hin (BitVec.eq_of_toNat_eq e)
        omega
      obtain ⟨g, l, r, h1, h2, h3, h4, h5, h6⟩ := hint i hi1 hi3
      have hln := hnlt l (by omega)
      have hrn := hnlt r (by omega)
      refine ⟨g, l, r, by rw [hget i hin, h1], h2, h3, h4, by rw [hget l hln, hget r hrn, h5], ?_⟩
      obtain ⟨q1, q2, q3, q4⟩ := h6
      have hkey : ∀ x y, x ≠ n → y ≠ n → (KeyLt (m.nodes.set n (.internal f a b)) x y ↔ KeyLt m.nodes x y) := by
        intro x y hx hy
        unfold KeyLt
        rw [hget x hx, hget y hy]
      refine ⟨(InQueueAt.set (by omega)).2 q1, (InQueueAt.set (by omega)).2 q2, (hkey l r hln hrn).2 q3, fun j hj hjl hjr => ?_⟩
      have hj' := (InQueueAt.set (by omega)).1 hj
      exact (hkey r j hrn (hnlt j (by have := hj'.1; omega))).2 (q4 j hj' hjl hjr)
  · intro i hi
    simp only at hi ⊢
    rw [hget i (fun e => by rw [e, hnt] at hi; omega)]
    exact hfree i (by omega)
  · intro c hc
    simp only at hc ⊢
    simp only [isChild_set hnf, not_or, List.mem_append, List.mem_singleton]
    by_cases hcn : c = n
    · subst hcn
      simp only [or_true, true_iff]
      exact fun p => ⟨fun ⟨_, h⟩ => by rcases h with h | h; exact hanode h.symm; exact hbnode h.symm, hnoch p⟩
    · have hc2 : c.toNat < m.next := by
        have : c.toNat ≠ n.toNat := fun e => hcn (BitVec.eq_of_toNat_eq e)
        omega
      simp only [hcn, or_false]
      constructor
      · intro hce
        have hcq := List.mem_of_mem_erase (List.mem_of_mem_erase hce)
        refine fun p => ⟨?_, (hq c hc2).1 hcq p⟩
        rintro ⟨-, rfl | rfl⟩
        · exact (List.Nodup.not_mem_erase hnd) (List.mem_of_mem_erase hce)
        · exact (List.Nodup.not_mem_erase (hnd.erase a)) hce
      · intro hno
        have hcq := (hq c hc2).2 (fun p => (hno p).2)
        have := (hno n).1
        simp only [true_and, not_or] at this
        exact (List.mem_erase_of_ne this.2).2 ((List.mem_erase_of_ne this.1).2 hcq)
  · intro c p p' g1 g2
    simp only [isChild_set hnf] at g1 g2
    rcases g1 with ⟨rfl, hc⟩ | hx <;> rcases g2 with ⟨rfl, hc'⟩ | hy
    · rfl
    · exfalso
      rcases hc with rfl | rfl
      · exact (hq c han).1 ha _ hy
      · exact (hq c hbn).1 hbq _ hy
    · exfalso
      rcases hc' with rfl | rfl
      · exact (hq c han).1 ha _ hx
      · exact (hq c hbn).1 hbq _ hx
    · exact hpar c p p' hx hy
  · simp only [List.map_append, List.map_cons, List.map_nil, List.sum_append, List.sum_cons, List.sum_nil, Table.get_set_self]
    have : ((m.queue.erase a).erase b).map (fun q => ((m.nodes.set n (.internal f a b)).get q).freq.toNat)
        = ((m.queue.erase a).erase b).map (fun q => (m.nodes.get q).freq.toNat) := by
      apply List.map_congr_left
      intro q hqm
      rw [hget q (hnlt q (hlt q (List.mem_of_mem_erase (List.mem_of_mem_erase hqm))))]
    rw [this]
    have hnf2 : (Node.internal f a b).freq = f := rfl
    rw [hnf2]
    omega

/-- The sum of all counts. -/
def countTotal (freq : FreqTable) : Nat := ((keysOf freq).map (fun x => (freq.get x).toNat)).sum

theorem sum_le_of_le {α : Type} (l : List α) (g : α → Nat) (b : Nat) (h : ∀ x ∈ l, g x ≤ b) : (l.map g).sum ≤ l.length * b := by
  induction l with
  | nil => simp
  | cons x l ih =>
    simp only [List.map_cons, List.sum_cons, List.length_cons]
    have h1 := h x (by simp)
    have h2 := ih (fun y hy => h y (List.mem_cons_of_mem _ hy))
    rw [Nat.add_mul]; omega

/-- 256 counts below 2^32 add up to less than 2^40 (R7 (b)). -/
theorem countTotal_lt (freq : FreqTable) : countTotal freq < 2 ^ 40 := by
  have h : ((keysOf freq).map (fun x => (freq.get x).toNat)).sum ≤ (keysOf freq).length * (2 ^ 32 - 1) :=
    sum_le_of_le (keysOf freq) _ (2 ^ 32 - 1) (fun x _ => by have := (freq.get x).isLt; omega)
  have := keysOf_length_le freq
  unfold countTotal
  have : (keysOf freq).length * (2 ^ 32 - 1) ≤ 256 * (2 ^ 32 - 1) := Nat.mul_le_mul_right _ this
  omega

theorem countTotal_eq (freq : FreqTable) : countTotal freq = (allSymbols.map (fun x => (freq.get x).toNat)).sum := by
  unfold countTotal keysOf
  induction allSymbols with
  | nil => rfl
  | cons x l ih =>
    rw [List.filter_cons]
    split
    · simp only [List.map_cons, List.sum_cons, ih]
    · rename_i h
      simp only [bne_iff_ne, ne_eq, not_not] at h
      simp only [List.map_cons, List.sum_cons, ih, h]; simp

/-- The seeded arena: the leaves, and Free entries behind them. -/
theorem seedMerge_nodes_get (freq : FreqTable) (i : NodeIx) : (seedMerge freq).nodes.get i =
    if h : i.toNat < (keysOf freq).length then .leaf (keysOf freq)[i.toNat] (widen (freq.get (keysOf freq)[i.toNat])) else .free := by
  have hl := keysOf_length_le freq
  simp only [seedMerge, presentSymbols_eq_keysOf]
  rw [seedLeaves_get _ _ _ _ (by omega)]
  by_cases h : i.toNat < (keysOf freq).length
  · rw [dif_pos (by omega), dif_pos h]; simp only [Nat.sub_zero]
  · rw [dif_neg (by omega), dif_neg h, freeArena, Table.get_fill]

/-- The invariant holds before the first turn. -/
theorem seedMerge_inv (freq : FreqTable) (h : keysOf freq ≠ []) :
    MergeInv (seedMerge freq).nodes (keysOf freq).length (countTotal freq) (seedMerge freq) := by
  have hl := keysOf_length_le freq
  have hpos : 1 ≤ (keysOf freq).length := List.length_pos_iff.2 h
  have hq : (seedMerge freq).queue = (List.range (keysOf freq).length).map (BitVec.ofNat 9) := by
    simp only [seedMerge, presentSymbols_eq_keysOf]
  have hn : (seedMerge freq).next = (keysOf freq).length := by simp only [seedMerge, presentSymbols_eq_keysOf]
  have hnoch : ∀ c p, ¬ IsChild (seedMerge freq).nodes c p := by
    rintro c p ⟨f, l, r, hp, -⟩
    rw [seedMerge_nodes_get] at hp
    split at hp <;> simp at hp
  have hmem : ∀ q : NodeIx, q ∈ (seedMerge freq).queue ↔ q.toNat < (keysOf freq).length := by
    intro q
    rw [hq, List.mem_map]
    constructor
    · rintro ⟨n, hn, rfl⟩
      rw [List.mem_range] at hn
      rw [BitVec.toNat_ofNat]; omega
    · intro hh; exact ⟨q.toNat, List.mem_range.2 hh, by simp⟩
  refine ⟨by omega, by rw [hq, hn]; simp; omega, by rw [hq]; simpa using hpos, ?_, fun q hh => by rw [hn]; exact (hmem q).1 hh,
    fun _ _ => rfl, fun i h1 h2 => by omega, fun i hi => ?_, fun c hc => ?_, fun c p p' h1 => absurd h1 (hnoch _ _), ?_⟩
  · rw [hq, List.nodup_map_iff_inj_on List.nodup_range]
    intro x hx y hy hxy
    rw [List.mem_range] at hx hy
    have := congrArg BitVec.toNat hxy
    simp only [BitVec.toNat_ofNat] at this
    omega
  · rw [seedMerge_nodes_get, dif_neg (by omega)]
  · rw [hn] at hc
    exact iff_of_true ((hmem c).2 hc) (fun p => hnoch _ _)
  · rw [hq, List.map_map, countTotal]
    congr 1
    apply List.ext_getElem
    · simp
    · intro j h1 h2
      simp only [List.length_map, List.length_range] at h1
      have : (BitVec.ofNat 9 j : NodeIx).toNat = j := by rw [BitVec.toNat_ofNat]; omega
      simp only [List.getElem_map, List.getElem_range, Function.comp_apply, seedMerge_nodes_get, this, h1, dif_pos, Node.freq, widen_toNat]

/-- The invariant holds after the last turn. -/
theorem mergeLoop_inv (freq : FreqTable) (h : keysOf freq ≠ []) :
    MergeInv (seedMerge freq).nodes (keysOf freq).length (countTotal freq)
      (mergeLoop (keysOf freq).length (seedMerge freq)) := by
  refine mergeLoop_induction (fun m m' hm hs => hm.step (keysOf_length_le freq) (countTotal_lt freq) (fun i hi => ?_) hs) _ _ (seedMerge_inv freq h)
  rw [seedMerge_nodes_get, dif_pos hi]
  exact ⟨_, _, rfl⟩

/-- With two or more symbols BUILD leaves what the merge loop leaves. -/
theorem buildArena_of_merge {freq : FreqTable} (h2 : (keysOf freq).length ≠ 1) :
   buildArena freq = ((mergeLoop (keysOf freq).length (seedMerge freq)).nodes, (mergeLoop (keysOf freq).length (seedMerge freq)).next) := by
  unfold buildArena; rw [presentSymbols_eq_keysOf, if_neg h2]

/-- With one symbol BUILD leaves the wrapper (R126). -/
theorem buildArena_of_single (freq : FreqTable) (h1 : (keysOf freq).length = 1) (i : NodeIx) : (buildArena freq).1.get i =
   if i = 2 then .internal (widen (freq.get (keysOf freq)[0])) 0 1 else if i = 1 then .placeholder else
   if i = 0 then .leaf (keysOf freq)[0] (widen (freq.get (keysOf freq)[0])) else .free := by
  unfold buildArena; rw [presentSymbols_eq_keysOf, if_pos h1]
  have h0 : (seedMerge freq).nodes.get 0 = .leaf (keysOf freq)[0] (widen (freq.get (keysOf freq)[0])) := by
    rw [seedMerge_nodes_get, dif_pos (by simp; omega)]; rfl
  simp only [wrapSingle, Table.get_set, h0, Node.freq]
  split
  · simp
  split
  · rfl
  split
  · rename_i h; rw [h, h0]
  · rename_i h
    rw [seedMerge_nodes_get, dif_neg]
    intro hc
    exact h (BitVec.eq_of_toNat_eq (by simp; omega))

end Sys2Proof.Machine
end

