-- ==== Sys2Proof/Laws/Paths.lean ====
section
/-! SUPPORT. What the tree invariants of R41 say about paths: every node is reached by exactly one path, paths are short, and
the traversal of GENERATE reaches the bottom. -/

namespace Sys2Proof.Machine

variable {s : State}

theorem TreeInv.nnodes_le (h : TreeInv s) : s.nnodes.toNat ≤ 511 := by
  have := h.nnodes_eq
  have := h.leaves_pos
  have := h.leaves_le
  split at * <;> omega

theorem TreeInv.rootIx_toNat (h : TreeInv s) : s.rootIx.toNat = s.root.toNat := by
  have := h.nnodes_le
  have := h.root_eq
  simp only [State.rootIx, BitVec.toNat_setWidth]
  omega

/-- An Internal entry stands behind the leaves (behind the Placeholder when there is one), and its children are two older
entries. -/
theorem TreeInv.of_internal (h : TreeInv s) {i l r : NodeIx} {f : NodeFreq} (hi : s.node.get i = .internal f l r) :
    (if s.k = 1 then 2 else s.k) ≤ i.toNat ∧ i.toNat ≤ s.root.toNat ∧ l.toNat < i.toNat ∧ r.toNat < i.toNat ∧ l ≠ r := by
  have h1 : s.k ≤ i.toNat := by
    by_contra hc
    obtain ⟨x, g, hl⟩ := h.leaf i (by omega)
    simp [hi] at hl
  have h2 : i.toNat < s.nnodes.toNat := by
    by_contra hc
    have := h.free i (by omega)
    simp [hi] at this
  obtain ⟨f', l', r', hi', hl, hr, hne, -⟩ := h.internal i h1 h2 (by simp [hi])
  rw [hi] at hi'
  injection hi' with _ x y
  subst x y
  have h3 := h.root_eq
  refine ⟨?_, by omega, hl, hr, hne⟩
  split
  · rename_i hk
    by_contra hc
    have hi1 : i = 1 := BitVec.eq_of_toNat_eq (by simp; omega)
    have := (h.placeholder i).2 ⟨hk, hi1⟩
    simp [hi] at this
  · exact h1

/-- A child lies below the root. -/
theorem TreeInv.child_lt (h : TreeInv s) {c p : NodeIx} (hc : IsChild s.node c p) : c.toNat < p.toNat ∧ p.toNat ≤ s.root.toNat := by
  obtain ⟨f, l, r, hp, hc⟩ := hc
  obtain ⟨-, h2, h3, h4, -⟩ := h.of_internal hp
  rcases hc with rfl | rfl <;> exact ⟨by assumption, h2⟩

theorem TreeInv.parent_unique (h : TreeInv s) {c p p' : NodeIx} (hc : IsChild s.node c p) (hc' : IsChild s.node c p') : p = p' := by
  obtain ⟨q, -, hu⟩ := h.parent c (by have := h.child_lt hc; omega)
  rw [hu p hc, hu p' hc']

theorem TreeInv.not_child_root (h : TreeInv s) (p : NodeIx) : ¬ IsChild s.node s.rootIx p :=
  h.root_orphan p _ h.rootIx_toNat

/-- A node has at most one path (R140). -/
theorem TreeInv.path_unique (h : TreeInv s) {i : NodeIx} {c d : List Bool} (hc : PathTo s.node s.rootIx i c)
    (hd : PathTo s.node s.rootIx i d) : c = d := by
  induction hc generalizing d with
  | root =>
    cases hd with
    | root => rfl
    | left _ hn => exact absurd ⟨_, _, _, hn, .inl rfl⟩ (h.not_child_root _)
    | right _ hn => exact absurd ⟨_, _, _, hn, .inr rfl⟩ (h.not_child_root _)
  | @left n l r f c hp hn ih =>
    have hcl : IsChild s.node l n := ⟨_, _, _, hn, .inl rfl⟩
    generalize hl : l = l' at hd
    cases hd with
    | root => subst hl; exact absurd hcl (h.not_child_root _)
    | left hp' hn' =>
      subst hl
      obtain rfl := h.parent_unique hcl ⟨_, _, _, hn', .inl rfl⟩
      rw [ih hp']
    | right hp' hn' =>
      subst hl
      obtain rfl := h.parent_unique hcl ⟨_, _, _, hn', .inr rfl⟩
      rw [hn] at hn'
      injection hn' with _ x y
      exact absurd y (h.of_internal hn).2.2.2.2.symm
  | @right n l r f c hp hn ih =>
    have hcr : IsChild s.node r n := ⟨_, _, _, hn, .inr rfl⟩
    generalize hl : r = r' at hd
    cases hd with
    | root => subst hl; exact absurd hcr (h.not_child_root _)
    | left hp' hn' =>
      subst hl
      obtain rfl := h.parent_unique hcr ⟨_, _, _, hn', .inl rfl⟩
      rw [hn] at hn'
      injection hn' with _ x y
      exact absurd x (h.of_internal hn).2.2.2.2
    | right hp' hn' =>
      subst hl
      obtain rfl := h.parent_unique hcr ⟨_, _, _, hn', .inr rfl⟩
      rw [ih hp']

/-- Every entry up to the root has a path. -/
theorem TreeInv.exists_path (h : TreeInv s) (i : NodeIx) (hi : i.toNat ≤ s.root.toNat) : ∃ c, PathTo s.node s.rootIx i c := by
  generalize hd : s.root.toNat - i.toNat = d
  induction d using Nat.strong_induction_on generalizing i with
  | _ d ih =>
    by_cases he : i.toNat = s.root.toNat
    · have : i = s.rootIx := BitVec.eq_of_toNat_eq (by rw [h.rootIx_toNat, he])
      exact ⟨[], this ▸ .root⟩
    · obtain ⟨p, hp, -⟩ := h.parent i (by omega)
      have hlt := h.child_lt hp
      obtain ⟨c, hc⟩ := ih (s.root.toNat - p.toNat) (by omega) p hlt.2 rfl
      obtain ⟨f, l, r, hn, rfl | rfl⟩ := hp
      · exact ⟨_, hc.left hn⟩
      · exact ⟨_, hc.right hn⟩

/-- A path goes down by at least one index per edge. -/
theorem TreeInv.path_length (h : TreeInv s) {i : NodeIx} {c : List Bool} (hc : PathTo s.node s.rootIx i c) :
    c.length + i.toNat ≤ s.root.toNat := by
  induction hc with
  | root => simp [h.rootIx_toNat]
  | left _ hn ih => have := h.of_internal hn; simp only [List.length_append, List.length_cons, List.length_nil]; omega
  | right _ hn ih => have := h.of_internal hn; simp only [List.length_append, List.length_cons, List.length_nil]; omega

/-- A path passes Internal entries only, so its length is at most their number (R7 (c)). -/
theorem TreeInv.path_length_le (h : TreeInv s) {i : NodeIx} {c : List Bool} (hc : PathTo s.node s.rootIx i c) :
    c.length ≤ if s.k = 1 then 1 else s.k - 1 := by
  have hk := h.nnodes_eq
  have hr := h.root_eq
  have hpos := h.leaves_pos
  cases hc with
  | root => simp
  | left hp hn =>
    have h1 := h.path_length hp
    have h2 := h.of_internal hn
    simp only [List.length_append, List.length_cons, List.length_nil]
    by_cases h3 : s.k = 1
    · rw [if_pos h3] at hk h2 ⊢; omega
    · rw [if_neg h3] at hk h2 ⊢; omega
  | right hp hn =>
    have h1 := h.path_length hp
    have h2 := h.of_internal hn
    simp only [List.length_append, List.length_cons, List.length_nil]
    by_cases h3 : s.k = 1
    · rw [if_pos h3] at hk h2 ⊢; omega
    · rw [if_neg h3] at hk h2 ⊢; omega

theorem TreeInv.path_length_le_255 (h : TreeInv s) {i : NodeIx} {c : List Bool} (hc : PathTo s.node s.rootIx i c) :
    c.length ≤ 255 := by
  have h1 := h.path_length_le hc
  have := h.leaves_le
  split at h1 <;> omega

/-- A path leads to one node. -/
theorem PathTo.functional {nodes : Arena} {r i j : NodeIx} {c : List Bool} (hi : PathTo nodes r i c) (hj : PathTo nodes r j c) :
    i = j := by
  induction c generalizing r with
  | nil =>
    rcases pathTo_iff.1 hi with ⟨rfl, -⟩ | ⟨_, _, _, _, ⟨d, h, -⟩ | ⟨d, h, -⟩⟩
    · rcases pathTo_iff.1 hj with ⟨rfl, -⟩ | ⟨_, _, _, _, ⟨d, h, -⟩ | ⟨d, h, -⟩⟩
      · rfl
      · simp at h
      · simp at h
    · simp at h
    · simp at h
  | cons v c ih =>
    rcases pathTo_iff.1 hi with ⟨-, h⟩ | ⟨f, l, r, hn, hi⟩
    · simp at h
    rcases pathTo_iff.1 hj with ⟨-, h⟩ | ⟨f', l', r', hn', hj⟩
    · simp at h
    rw [hn] at hn'
    injection hn' with _ x y
    subst x y
    cases v with
    | false =>
      rcases hi with ⟨d, h, hi⟩ | ⟨d, h, hi⟩
      · rcases hj with ⟨e, h', hj⟩ | ⟨e, h', hj⟩
        · simp only [List.cons.injEq, true_and] at h h'; subst h h'; exact ih hi hj
        · simp at h'
      · simp at h
    | true =>
      rcases hi with ⟨d, h, hi⟩ | ⟨d, h, hi⟩
      · simp at h
      · rcases hj with ⟨e, h', hj⟩ | ⟨e, h', hj⟩
        · simp at h'
        · simp only [List.cons.injEq, true_and] at h h'; subst h h'; exact ih hi hj

/-- A path splits at any of its nodes. -/
theorem PathTo.split {nodes : Arena} {r j : NodeIx} {c e : List Bool} (h : PathTo nodes r j (c ++ e)) :
    ∃ n, PathTo nodes r n c ∧ PathTo nodes n j e := by
  induction c generalizing r with
  | nil => exact ⟨r, .root, h⟩
  | cons v c ih =>
    rcases pathTo_iff.1 h with ⟨-, h⟩ | ⟨f, l, r', hn, ⟨d, h1, h2⟩ | ⟨d, h1, h2⟩⟩
    · simp at h
    · simp only [List.cons_append, List.cons.injEq] at h1
      obtain ⟨rfl, rfl⟩ := h1
      obtain ⟨n, ha, hb⟩ := ih h2
      exact ⟨n, pathTo_iff.2 (.inr ⟨f, l, r', hn, .inl ⟨c, rfl, ha⟩⟩), hb⟩
    · simp only [List.cons_append, List.cons.injEq] at h1
      obtain ⟨rfl, rfl⟩ := h1
      obtain ⟨n, ha, hb⟩ := ih h2
      exact ⟨n, pathTo_iff.2 (.inr ⟨f, l, r', hn, .inr ⟨c, rfl, ha⟩⟩), hb⟩

/-- The path to a leaf is a prefix of no path but its own: no leaf is an ancestor of another node. -/
theorem PathTo.leaf_prefix {nodes : Arena} {r i j : NodeIx} {c d : List Bool} {x : Byte} {f : NodeFreq}
    (hi : PathTo nodes r i c) (hl : nodes.get i = .leaf x f) (hj : PathTo nodes r j d) (hp : c <+: d) : i = j := by
  obtain ⟨e, rfl⟩ := hp
  obtain ⟨n, hn, he⟩ := hj.split
  obtain rfl := hi.functional hn
  exact ((pathTo_of_not_internal (fun f l r h => by simp [hl] at h)).1 he).1.symm

/-- A symbol has at most one leaf. -/
theorem TreeInv.leaf_unique (h : TreeInv s) {i j : NodeIx} {x : Byte} {f g : NodeFreq} (hi : s.node.get i = .leaf x f)
    (hj : s.node.get j = .leaf x g) : i = j := by
  have hlt : ∀ (a : NodeIx) y e, s.node.get a = .leaf y e → a.toNat < s.k := by
    intro a y e ha
    by_contra hc
    by_cases hn : a.toNat < s.nnodes.toNat
    · obtain ⟨f', l, r, hi', -⟩ := h.internal a (by omega) hn (by simp [ha])
      simp [ha] at hi'
    · have := h.free a (by omega)
      simp [ha] at this
  rcases Nat.lt_trichotomy i.toNat j.toNat with hlt' | he | hlt'
  · have := h.leaf_ascending i j hlt' (hlt j _ _ hj)
    simp [hi, hj, Node.sym] at this
  · exact BitVec.eq_of_toNat_eq he
  · have := h.leaf_ascending j i hlt' (hlt i _ _ hi)
    simp [hi, hj, Node.sym] at this

/-- On a tree the traversal gives the leaves' codes (R142, R211). -/
theorem TreeInv.leafCodes_some (h : TreeInv s) : ∃ codes, s.leafCodes = some codes := by
  have hk := h.nnodes_eq
  have hr := h.root_eq
  have hpos := h.leaves_pos
  have hle := h.leaves_le
  have hroot := h.rootIx_toNat
  refine Option.isSome_iff_exists.1 (visit_isSome (n := s.nnodes.toNat) (m := if s.k = 1 then 2 else s.k) ?_ ?_ _ _ _ ?_ ?_ ?_)
  · intro i hi hf
    by_cases hik : i.toNat < s.k
    · obtain ⟨x, f, hl⟩ := h.leaf i hik; simp [hf] at hl
    · obtain ⟨f, l, r, hn, -⟩ := h.internal i (by omega) hi (by simp [hf])
      simp [hf] at hn
  · intro i f l r hi
    obtain ⟨h1, -, h3, h4, -⟩ := h.of_internal hi
    exact ⟨h1, h3, h4⟩
  · omega
  · simp [visitFuel]
  · intro _
    simp only [visitFuel, Config.lenMax]
    by_cases h3 : s.k = 1
    · rw [if_pos h3] at hk ⊢; omega
    · rw [if_neg h3] at hk ⊢; omega

/-- The recorded codes are exactly the leaves' symbols with their paths (R140, R142). -/
theorem mem_leafCodes {codes : List (Byte × List Bool)} (hc : s.leafCodes = some codes) (x : Byte) (c : List Bool) :
    (x, c) ∈ codes ↔ ∃ i f, s.node.get i = .leaf x f ∧ PathTo s.node s.rootIx i c := by
  rw [mem_visit hc]
  constructor
  · rintro ⟨e, j, f, rfl, hp, hl⟩; exact ⟨j, f, hl, by simpa using hp⟩
  · rintro ⟨i, f, hl, hp⟩; exact ⟨c, i, f, by simp, hp, hl⟩

/-- What GENERATE stores for a leaf's symbol: its path (R140). -/
theorem TreeInv.codeOf_leaf (h : TreeInv s) {codes : List (Byte × List Bool)} (hc : s.leafCodes = some codes) {i : NodeIx} {x : Byte}
    {f : NodeFreq} {c : List Bool} (hl : s.node.get i = .leaf x f) (hp : PathTo s.node s.rootIx i c) :
    (tableOf codes).get x = CodeEntry.ofCode c ∧ codeOf (tableOf codes) x = c := by
  have h1 : (tableOf codes).get x = CodeEntry.ofCode c := by
    refine tableOf_get_of_mem ((mem_leafCodes hc x c).2 ⟨i, f, hl, hp⟩) fun d hd => ?_
    obtain ⟨j, g, hl', hp'⟩ := (mem_leafCodes hc x d).1 hd
    obtain rfl := h.leaf_unique hl hl'
    exact h.path_unique hp' hp
  refine ⟨h1, ?_⟩
  rw [codeOf, h1, code_ofCode _ (h.path_length_le_255 hp)]

/-- What GENERATE stores for a symbol without a leaf: no code (R142). -/
theorem codeOf_of_no_leaf {codes : List (Byte × List Bool)} (hc : s.leafCodes = some codes) {x : Byte}
    (hl : ∀ i f, s.node.get i ≠ .leaf x f) : (tableOf codes).get x = CodeEntry.empty := by
  refine tableOf_get_of_not_mem fun c hm => ?_
  obtain ⟨i, f, h, -⟩ := (mem_leafCodes hc x c).1 hm
  exact hl i f h

end Sys2Proof.Machine
end

