-- ==== Sys2Proof/Laws/PerInstr.lean ====
section
/-! SUPPORT. What holds of every command as syntax, one lemma per constructor. -/

/-- Encoding of a command: it is well formed, its word has `RSV = 0`, and the decoder reads it back (R91, R93). -/
def Sys2Proof.Laws.Encoding.Statement (i : Sys2Proof.Instr) : Prop :=
  i.wellFormed = true ∧ Sys2Proof.fieldRsv (Sys2Proof.encode i) = 0 ∧ Sys2Proof.decode (Sys2Proof.encode i) = .ok i

namespace Sys2Proof.Laws.Encoding

theorem nop : Statement .nop := ⟨rfl, rfl, rfl⟩
theorem clrerr : Statement .clrerr := ⟨rfl, rfl, rfl⟩
theorem sreset : Statement .sreset := ⟨rfl, rfl, rfl⟩
theorem count : Statement .count := ⟨rfl, rfl, rfl⟩
theorem build : Statement .build := ⟨rfl, rfl, rfl⟩
theorem generate : Statement .generate := ⟨rfl, rfl, rfl⟩
theorem pack : Statement .pack := ⟨rfl, rfl, rfl⟩
theorem encode : Statement .encode := ⟨rfl, rfl, rfl⟩
theorem decode : Statement .decode := ⟨rfl, rfl, rfl⟩

end Sys2Proof.Laws.Encoding
end

