-- ==== Sys2Proof/Laws/State.lean ====
section
/-! SUPPORT. One lemma per field per named update of the state, each true by unfolding, so that no proof unfolds a record
update. -/

namespace Sys2Proof.Machine

@[simp] theorem raise_errcode (e : ErrKind) (info : Word) (s : State) : (raise e info s).errcode = e.code := rfl
@[simp] theorem raise_errinfo (e : ErrKind) (info : Word) (s : State) : (raise e info s).errinfo = info := rfl
@[simp] theorem raise_treeValid (e : ErrKind) (info : Word) (s : State) : (raise e info s).treeValid = s.treeValid := rfl
@[simp] theorem raise_symlen (e : ErrKind) (info : Word) (s : State) : (raise e info s).symlen = s.symlen := rfl
@[simp] theorem raise_bitlen (e : ErrKind) (info : Word) (s : State) : (raise e info s).bitlen = s.bitlen := rfl
@[simp] theorem raise_nleaves (e : ErrKind) (info : Word) (s : State) : (raise e info s).nleaves = s.nleaves := rfl
@[simp] theorem raise_nnodes (e : ErrKind) (info : Word) (s : State) : (raise e info s).nnodes = s.nnodes := rfl
@[simp] theorem raise_root (e : ErrKind) (info : Word) (s : State) : (raise e info s).root = s.root := rfl
@[simp] theorem raise_maxlen (e : ErrKind) (info : Word) (s : State) : (raise e info s).maxlen = s.maxlen := rfl
@[simp] theorem raise_freq (e : ErrKind) (info : Word) (s : State) : (raise e info s).freq = s.freq := rfl
@[simp] theorem raise_codetab (e : ErrKind) (info : Word) (s : State) : (raise e info s).codetab = s.codetab := rfl
@[simp] theorem raise_node (e : ErrKind) (info : Word) (s : State) : (raise e info s).node = s.node := rfl
@[simp] theorem raise_symbuf (e : ErrKind) (info : Word) (s : State) : (raise e info s).symbuf = s.symbuf := rfl
@[simp] theorem raise_bitbuf (e : ErrKind) (info : Word) (s : State) : (raise e info s).bitbuf = s.bitbuf := rfl
@[simp] theorem raise_pending (e : ErrKind) (info : Word) (s : State) : (raise e info s).pending = s.pending := rfl
@[simp] theorem raise_answer (e : ErrKind) (info : Word) (s : State) : (raise e info s).answer = s.answer := rfl
@[simp] theorem raise_draws (e : ErrKind) (info : Word) (s : State) : (raise e info s).draws = s.draws := rfl

@[simp] theorem acknowledge_errcode (s : State) : (acknowledge s).errcode = 0 := rfl
@[simp] theorem acknowledge_errinfo (s : State) : (acknowledge s).errinfo = 0 := rfl
@[simp] theorem acknowledge_treeValid (s : State) : (acknowledge s).treeValid = s.treeValid := rfl
@[simp] theorem acknowledge_symlen (s : State) : (acknowledge s).symlen = s.symlen := rfl
@[simp] theorem acknowledge_bitlen (s : State) : (acknowledge s).bitlen = s.bitlen := rfl
@[simp] theorem acknowledge_nleaves (s : State) : (acknowledge s).nleaves = s.nleaves := rfl
@[simp] theorem acknowledge_nnodes (s : State) : (acknowledge s).nnodes = s.nnodes := rfl
@[simp] theorem acknowledge_root (s : State) : (acknowledge s).root = s.root := rfl
@[simp] theorem acknowledge_maxlen (s : State) : (acknowledge s).maxlen = s.maxlen := rfl
@[simp] theorem acknowledge_freq (s : State) : (acknowledge s).freq = s.freq := rfl
@[simp] theorem acknowledge_codetab (s : State) : (acknowledge s).codetab = s.codetab := rfl
@[simp] theorem acknowledge_node (s : State) : (acknowledge s).node = s.node := rfl
@[simp] theorem acknowledge_symbuf (s : State) : (acknowledge s).symbuf = s.symbuf := rfl
@[simp] theorem acknowledge_bitbuf (s : State) : (acknowledge s).bitbuf = s.bitbuf := rfl
@[simp] theorem acknowledge_pending (s : State) : (acknowledge s).pending = s.pending := rfl
@[simp] theorem acknowledge_answer (s : State) : (acknowledge s).answer = s.answer := rfl
@[simp] theorem acknowledge_draws (s : State) : (acknowledge s).draws = s.draws := rfl

@[simp] theorem softReset_errcode (s : State) : (softReset s).errcode = 0 := rfl
@[simp] theorem softReset_errinfo (s : State) : (softReset s).errinfo = 0 := rfl
@[simp] theorem softReset_treeValid (s : State) : (softReset s).treeValid = false := rfl
@[simp] theorem softReset_symlen (s : State) : (softReset s).symlen = 0 := rfl
@[simp] theorem softReset_bitlen (s : State) : (softReset s).bitlen = 0 := rfl
@[simp] theorem softReset_nleaves (s : State) : (softReset s).nleaves = 0 := rfl
@[simp] theorem softReset_nnodes (s : State) : (softReset s).nnodes = 0 := rfl
@[simp] theorem softReset_root (s : State) : (softReset s).root = 0 := rfl
@[simp] theorem softReset_maxlen (s : State) : (softReset s).maxlen = 0 := rfl
@[simp] theorem softReset_freq (s : State) : (softReset s).freq = Table.fill 8 0 := rfl
@[simp] theorem softReset_codetab (s : State) : (softReset s).codetab = emptyTable := rfl
@[simp] theorem softReset_node (s : State) : (softReset s).node = freeArena := rfl
@[simp] theorem softReset_symbuf (s : State) : (softReset s).symbuf = s.symbuf := rfl
@[simp] theorem softReset_bitbuf (s : State) : (softReset s).bitbuf = s.bitbuf := rfl
@[simp] theorem softReset_pending (s : State) : (softReset s).pending = s.pending := rfl
@[simp] theorem softReset_answer (s : State) : (softReset s).answer = s.answer := rfl
@[simp] theorem softReset_draws (s : State) : (softReset s).draws = s.draws := rfl

@[simp] theorem hardReset_errcode (s : State) : (hardReset s).errcode = 0 := rfl
@[simp] theorem hardReset_errinfo (s : State) : (hardReset s).errinfo = 0 := rfl
@[simp] theorem hardReset_treeValid (s : State) : (hardReset s).treeValid = false := rfl
@[simp] theorem hardReset_symlen (s : State) : (hardReset s).symlen = 0 := rfl
@[simp] theorem hardReset_bitlen (s : State) : (hardReset s).bitlen = 0 := rfl
@[simp] theorem hardReset_nleaves (s : State) : (hardReset s).nleaves = 0 := rfl
@[simp] theorem hardReset_nnodes (s : State) : (hardReset s).nnodes = 0 := rfl
@[simp] theorem hardReset_root (s : State) : (hardReset s).root = 0 := rfl
@[simp] theorem hardReset_maxlen (s : State) : (hardReset s).maxlen = 0 := rfl
@[simp] theorem hardReset_freq (s : State) : (hardReset s).freq = Table.fill 8 0 := rfl
@[simp] theorem hardReset_codetab (s : State) : (hardReset s).codetab = emptyTable := rfl
@[simp] theorem hardReset_node (s : State) : (hardReset s).node = freeArena := rfl
@[simp] theorem hardReset_symbuf (s : State) : (hardReset s).symbuf = [] := rfl
@[simp] theorem hardReset_bitbuf (s : State) : (hardReset s).bitbuf = [] := rfl
@[simp] theorem hardReset_pending (s : State) : (hardReset s).pending = s.pending := rfl
@[simp] theorem hardReset_answer (s : State) : (hardReset s).answer = none := rfl
@[simp] theorem hardReset_draws (s : State) : (hardReset s).draws = s.draws := rfl

@[simp] theorem answered_errcode (s : State) (a : Answer) : (s.answered a).errcode = s.errcode := rfl
@[simp] theorem answered_errinfo (s : State) (a : Answer) : (s.answered a).errinfo = s.errinfo := rfl
@[simp] theorem answered_treeValid (s : State) (a : Answer) : (s.answered a).treeValid = s.treeValid := rfl
@[simp] theorem answered_symlen (s : State) (a : Answer) : (s.answered a).symlen = s.symlen := rfl
@[simp] theorem answered_bitlen (s : State) (a : Answer) : (s.answered a).bitlen = s.bitlen := rfl
@[simp] theorem answered_nleaves (s : State) (a : Answer) : (s.answered a).nleaves = s.nleaves := rfl
@[simp] theorem answered_nnodes (s : State) (a : Answer) : (s.answered a).nnodes = s.nnodes := rfl
@[simp] theorem answered_root (s : State) (a : Answer) : (s.answered a).root = s.root := rfl
@[simp] theorem answered_maxlen (s : State) (a : Answer) : (s.answered a).maxlen = s.maxlen := rfl
@[simp] theorem answered_freq (s : State) (a : Answer) : (s.answered a).freq = s.freq := rfl
@[simp] theorem answered_codetab (s : State) (a : Answer) : (s.answered a).codetab = s.codetab := rfl
@[simp] theorem answered_node (s : State) (a : Answer) : (s.answered a).node = s.node := rfl
@[simp] theorem answered_symbuf (s : State) (a : Answer) : (s.answered a).symbuf = s.symbuf := rfl
@[simp] theorem answered_bitbuf (s : State) (a : Answer) : (s.answered a).bitbuf = s.bitbuf := rfl
@[simp] theorem answered_pending (s : State) (a : Answer) : (s.answered a).pending = s.pending := rfl
@[simp] theorem answered_answer (s : State) (a : Answer) : (s.answered a).answer = some a := rfl
@[simp] theorem answered_draws (s : State) (a : Answer) : (s.answered a).draws = s.draws := rfl

@[simp] theorem runCount_errcode (msg : List Byte) (s : State) : (runCount msg s).errcode = s.errcode := rfl
@[simp] theorem runCount_errinfo (msg : List Byte) (s : State) : (runCount msg s).errinfo = s.errinfo := rfl
@[simp] theorem runCount_treeValid (msg : List Byte) (s : State) : (runCount msg s).treeValid = s.treeValid := rfl
@[simp] theorem runCount_symlen (msg : List Byte) (s : State) : (runCount msg s).symlen = s.symlen := rfl
@[simp] theorem runCount_bitlen (msg : List Byte) (s : State) : (runCount msg s).bitlen = s.bitlen := rfl
@[simp] theorem runCount_nleaves (msg : List Byte) (s : State) : (runCount msg s).nleaves = s.nleaves := rfl
@[simp] theorem runCount_nnodes (msg : List Byte) (s : State) : (runCount msg s).nnodes = s.nnodes := rfl
@[simp] theorem runCount_root (msg : List Byte) (s : State) : (runCount msg s).root = s.root := rfl
@[simp] theorem runCount_maxlen (msg : List Byte) (s : State) : (runCount msg s).maxlen = s.maxlen := rfl
@[simp] theorem runCount_freq (msg : List Byte) (s : State) : (runCount msg s).freq = countSymbols msg := rfl
@[simp] theorem runCount_codetab (msg : List Byte) (s : State) : (runCount msg s).codetab = s.codetab := rfl
@[simp] theorem runCount_node (msg : List Byte) (s : State) : (runCount msg s).node = s.node := rfl
@[simp] theorem runCount_symbuf (msg : List Byte) (s : State) : (runCount msg s).symbuf = s.symbuf := rfl
@[simp] theorem runCount_bitbuf (msg : List Byte) (s : State) : (runCount msg s).bitbuf = s.bitbuf := rfl
@[simp] theorem runCount_pending (msg : List Byte) (s : State) : (runCount msg s).pending = s.pending := rfl
@[simp] theorem runCount_answer (msg : List Byte) (s : State) : (runCount msg s).answer = s.answer := rfl
@[simp] theorem runCount_draws (msg : List Byte) (s : State) : (runCount msg s).draws = s.draws := rfl

@[simp] theorem clearTree_errcode (s : State) : (clearTree s).errcode = s.errcode := rfl
@[simp] theorem clearTree_errinfo (s : State) : (clearTree s).errinfo = s.errinfo := rfl
@[simp] theorem clearTree_treeValid (s : State) : (clearTree s).treeValid = false := rfl
@[simp] theorem clearTree_symlen (s : State) : (clearTree s).symlen = s.symlen := rfl
@[simp] theorem clearTree_bitlen (s : State) : (clearTree s).bitlen = s.bitlen := rfl
@[simp] theorem clearTree_nleaves (s : State) : (clearTree s).nleaves = 0 := rfl
@[simp] theorem clearTree_nnodes (s : State) : (clearTree s).nnodes = 0 := rfl
@[simp] theorem clearTree_root (s : State) : (clearTree s).root = 0 := rfl
@[simp] theorem clearTree_maxlen (s : State) : (clearTree s).maxlen = s.maxlen := rfl
@[simp] theorem clearTree_freq (s : State) : (clearTree s).freq = s.freq := rfl
@[simp] theorem clearTree_codetab (s : State) : (clearTree s).codetab = s.codetab := rfl
@[simp] theorem clearTree_node (s : State) : (clearTree s).node = freeArena := rfl
@[simp] theorem clearTree_symbuf (s : State) : (clearTree s).symbuf = s.symbuf := rfl
@[simp] theorem clearTree_bitbuf (s : State) : (clearTree s).bitbuf = s.bitbuf := rfl
@[simp] theorem clearTree_pending (s : State) : (clearTree s).pending = s.pending := rfl
@[simp] theorem clearTree_answer (s : State) : (clearTree s).answer = s.answer := rfl
@[simp] theorem clearTree_draws (s : State) : (clearTree s).draws = s.draws := rfl

@[simp] theorem storeTable_errcode (codes : List (Byte × List Bool)) (s : State) : (storeTable codes s).errcode = s.errcode := rfl
@[simp] theorem storeTable_errinfo (codes : List (Byte × List Bool)) (s : State) : (storeTable codes s).errinfo = s.errinfo := rfl
@[simp] theorem storeTable_treeValid (codes : List (Byte × List Bool)) (s : State) : (storeTable codes s).treeValid = s.treeValid := rfl
@[simp] theorem storeTable_symlen (codes : List (Byte × List Bool)) (s : State) : (storeTable codes s).symlen = s.symlen := rfl
@[simp] theorem storeTable_bitlen (codes : List (Byte × List Bool)) (s : State) : (storeTable codes s).bitlen = s.bitlen := rfl
@[simp] theorem storeTable_nleaves (codes : List (Byte × List Bool)) (s : State) : (storeTable codes s).nleaves = s.nleaves := rfl
@[simp] theorem storeTable_nnodes (codes : List (Byte × List Bool)) (s : State) : (storeTable codes s).nnodes = s.nnodes := rfl
@[simp] theorem storeTable_root (codes : List (Byte × List Bool)) (s : State) : (storeTable codes s).root = s.root := rfl
@[simp] theorem storeTable_maxlen (codes : List (Byte × List Bool)) (s : State) : (storeTable codes s).maxlen = BitVec.ofNat 32 (longestOf codes) := rfl
@[simp] theorem storeTable_freq (codes : List (Byte × List Bool)) (s : State) : (storeTable codes s).freq = s.freq := rfl
@[simp] theorem storeTable_codetab (codes : List (Byte × List Bool)) (s : State) : (storeTable codes s).codetab = tableOf codes := rfl
@[simp] theorem storeTable_node (codes : List (Byte × List Bool)) (s : State) : (storeTable codes s).node = s.node := rfl
@[simp] theorem storeTable_symbuf (codes : List (Byte × List Bool)) (s : State) : (storeTable codes s).symbuf = s.symbuf := rfl
@[simp] theorem storeTable_bitbuf (codes : List (Byte × List Bool)) (s : State) : (storeTable codes s).bitbuf = s.bitbuf := rfl
@[simp] theorem storeTable_pending (codes : List (Byte × List Bool)) (s : State) : (storeTable codes s).pending = s.pending := rfl
@[simp] theorem storeTable_answer (codes : List (Byte × List Bool)) (s : State) : (storeTable codes s).answer = s.answer := rfl
@[simp] theorem storeTable_draws (codes : List (Byte × List Bool)) (s : State) : (storeTable codes s).draws = s.draws := rfl

@[simp] theorem packFail_errcode (e : ErrKind) (i : Nat) (s : State) : (packFail e i s).errcode = e.code := rfl
@[simp] theorem packFail_errinfo (e : ErrKind) (i : Nat) (s : State) : (packFail e i s).errinfo = BitVec.ofNat 32 i := rfl
@[simp] theorem packFail_treeValid (e : ErrKind) (i : Nat) (s : State) : (packFail e i s).treeValid = s.treeValid := rfl
@[simp] theorem packFail_symlen (e : ErrKind) (i : Nat) (s : State) : (packFail e i s).symlen = s.symlen := rfl
@[simp] theorem packFail_bitlen (e : ErrKind) (i : Nat) (s : State) : (packFail e i s).bitlen = 0 := rfl
@[simp] theorem packFail_nleaves (e : ErrKind) (i : Nat) (s : State) : (packFail e i s).nleaves = s.nleaves := rfl
@[simp] theorem packFail_nnodes (e : ErrKind) (i : Nat) (s : State) : (packFail e i s).nnodes = s.nnodes := rfl
@[simp] theorem packFail_root (e : ErrKind) (i : Nat) (s : State) : (packFail e i s).root = s.root := rfl
@[simp] theorem packFail_maxlen (e : ErrKind) (i : Nat) (s : State) : (packFail e i s).maxlen = s.maxlen := rfl
@[simp] theorem packFail_freq (e : ErrKind) (i : Nat) (s : State) : (packFail e i s).freq = s.freq := rfl
@[simp] theorem packFail_codetab (e : ErrKind) (i : Nat) (s : State) : (packFail e i s).codetab = s.codetab := rfl
@[simp] theorem packFail_node (e : ErrKind) (i : Nat) (s : State) : (packFail e i s).node = s.node := rfl
@[simp] theorem packFail_symbuf (e : ErrKind) (i : Nat) (s : State) : (packFail e i s).symbuf = s.symbuf := rfl
@[simp] theorem packFail_bitbuf (e : ErrKind) (i : Nat) (s : State) : (packFail e i s).bitbuf = Memory.unspecAll := rfl
@[simp] theorem packFail_pending (e : ErrKind) (i : Nat) (s : State) : (packFail e i s).pending = s.pending := rfl
@[simp] theorem packFail_answer (e : ErrKind) (i : Nat) (s : State) : (packFail e i s).answer = s.answer := rfl
@[simp] theorem packFail_draws (e : ErrKind) (i : Nat) (s : State) : (packFail e i s).draws = s.draws := rfl

@[simp] theorem encodeEmpty_errcode (s : State) : (encodeEmpty s).errcode = s.errcode := rfl
@[simp] theorem encodeEmpty_errinfo (s : State) : (encodeEmpty s).errinfo = s.errinfo := rfl
@[simp] theorem encodeEmpty_treeValid (s : State) : (encodeEmpty s).treeValid = s.treeValid := rfl
@[simp] theorem encodeEmpty_symlen (s : State) : (encodeEmpty s).symlen = s.symlen := rfl
@[simp] theorem encodeEmpty_bitlen (s : State) : (encodeEmpty s).bitlen = 0 := rfl
@[simp] theorem encodeEmpty_nleaves (s : State) : (encodeEmpty s).nleaves = s.nleaves := rfl
@[simp] theorem encodeEmpty_nnodes (s : State) : (encodeEmpty s).nnodes = s.nnodes := rfl
@[simp] theorem encodeEmpty_root (s : State) : (encodeEmpty s).root = s.root := rfl
@[simp] theorem encodeEmpty_maxlen (s : State) : (encodeEmpty s).maxlen = 0 := rfl
@[simp] theorem encodeEmpty_freq (s : State) : (encodeEmpty s).freq = s.freq := rfl
@[simp] theorem encodeEmpty_codetab (s : State) : (encodeEmpty s).codetab = emptyTable := rfl
@[simp] theorem encodeEmpty_node (s : State) : (encodeEmpty s).node = s.node := rfl
@[simp] theorem encodeEmpty_symbuf (s : State) : (encodeEmpty s).symbuf = s.symbuf := rfl
@[simp] theorem encodeEmpty_bitbuf (s : State) : (encodeEmpty s).bitbuf = s.bitbuf := rfl
@[simp] theorem encodeEmpty_pending (s : State) : (encodeEmpty s).pending = s.pending := rfl
@[simp] theorem encodeEmpty_answer (s : State) : (encodeEmpty s).answer = s.answer := rfl
@[simp] theorem encodeEmpty_draws (s : State) : (encodeEmpty s).draws = s.draws := rfl

@[simp] theorem decodeFail_errcode (e : ErrKind) (x : Nat) (s : State) : (decodeFail e x s).errcode = e.code := rfl
@[simp] theorem decodeFail_errinfo (e : ErrKind) (x : Nat) (s : State) : (decodeFail e x s).errinfo = BitVec.ofNat 32 x := rfl
@[simp] theorem decodeFail_treeValid (e : ErrKind) (x : Nat) (s : State) : (decodeFail e x s).treeValid = s.treeValid := rfl
@[simp] theorem decodeFail_symlen (e : ErrKind) (x : Nat) (s : State) : (decodeFail e x s).symlen = 0 := rfl
@[simp] theorem decodeFail_bitlen (e : ErrKind) (x : Nat) (s : State) : (decodeFail e x s).bitlen = s.bitlen := rfl
@[simp] theorem decodeFail_nleaves (e : ErrKind) (x : Nat) (s : State) : (decodeFail e x s).nleaves = s.nleaves := rfl
@[simp] theorem decodeFail_nnodes (e : ErrKind) (x : Nat) (s : State) : (decodeFail e x s).nnodes = s.nnodes := rfl
@[simp] theorem decodeFail_root (e : ErrKind) (x : Nat) (s : State) : (decodeFail e x s).root = s.root := rfl
@[simp] theorem decodeFail_maxlen (e : ErrKind) (x : Nat) (s : State) : (decodeFail e x s).maxlen = s.maxlen := rfl
@[simp] theorem decodeFail_freq (e : ErrKind) (x : Nat) (s : State) : (decodeFail e x s).freq = s.freq := rfl
@[simp] theorem decodeFail_codetab (e : ErrKind) (x : Nat) (s : State) : (decodeFail e x s).codetab = s.codetab := rfl
@[simp] theorem decodeFail_node (e : ErrKind) (x : Nat) (s : State) : (decodeFail e x s).node = s.node := rfl
@[simp] theorem decodeFail_symbuf (e : ErrKind) (x : Nat) (s : State) : (decodeFail e x s).symbuf = Memory.unspecAll := rfl
@[simp] theorem decodeFail_bitbuf (e : ErrKind) (x : Nat) (s : State) : (decodeFail e x s).bitbuf = s.bitbuf := rfl
@[simp] theorem decodeFail_pending (e : ErrKind) (x : Nat) (s : State) : (decodeFail e x s).pending = s.pending := rfl
@[simp] theorem decodeFail_answer (e : ErrKind) (x : Nat) (s : State) : (decodeFail e x s).answer = s.answer := rfl
@[simp] theorem decodeFail_draws (e : ErrKind) (x : Nat) (s : State) : (decodeFail e x s).draws = s.draws := rfl

@[simp] theorem ask_errcode (s : State) (a : Access) : (s.ask a).errcode = s.errcode := rfl
@[simp] theorem ask_errinfo (s : State) (a : Access) : (s.ask a).errinfo = s.errinfo := rfl
@[simp] theorem ask_treeValid (s : State) (a : Access) : (s.ask a).treeValid = s.treeValid := rfl
@[simp] theorem ask_symlen (s : State) (a : Access) : (s.ask a).symlen = s.symlen := rfl
@[simp] theorem ask_bitlen (s : State) (a : Access) : (s.ask a).bitlen = s.bitlen := rfl
@[simp] theorem ask_nleaves (s : State) (a : Access) : (s.ask a).nleaves = s.nleaves := rfl
@[simp] theorem ask_nnodes (s : State) (a : Access) : (s.ask a).nnodes = s.nnodes := rfl
@[simp] theorem ask_root (s : State) (a : Access) : (s.ask a).root = s.root := rfl
@[simp] theorem ask_maxlen (s : State) (a : Access) : (s.ask a).maxlen = s.maxlen := rfl
@[simp] theorem ask_freq (s : State) (a : Access) : (s.ask a).freq = s.freq := rfl
@[simp] theorem ask_codetab (s : State) (a : Access) : (s.ask a).codetab = s.codetab := rfl
@[simp] theorem ask_node (s : State) (a : Access) : (s.ask a).node = s.node := rfl
@[simp] theorem ask_symbuf (s : State) (a : Access) : (s.ask a).symbuf = s.symbuf := rfl
@[simp] theorem ask_bitbuf (s : State) (a : Access) : (s.ask a).bitbuf = s.bitbuf := rfl
@[simp] theorem ask_pending (s : State) (a : Access) : (s.ask a).pending = .access a :: s.pending := rfl
@[simp] theorem ask_answer (s : State) (a : Access) : (s.ask a).answer = s.answer := rfl
@[simp] theorem ask_draws (s : State) (a : Access) : (s.ask a).draws = s.draws := rfl

/-! ## What the shared operations can do -/

/-- The gate with no error pending runs the command. -/
@[simp] theorem whenClear_clear {s : State} {run : State → Host.Outcome State Fault Refusal} (h : s.errcode = 0) :
    whenClear s run = run s := if_pos h

/-- The gate with an error pending ignores the command. -/
@[simp] theorem whenClear_pending {s : State} {run : State → Host.Outcome State Fault Refusal} (h : s.errcode ≠ 0) :
    whenClear s run = .next s := if_neg h

/-- An outcome whose next state is changed is a next state exactly when the outcome was one. -/
theorem mapNext_eq_next {f : State → State} {o : Host.Outcome State Fault Refusal} {t : State} :
    mapNext f o = .next t ↔ ∃ u, o = .next u ∧ t = f u := by
  cases o <;> simp [mapNext, eq_comm]

/-- Every error code is 1 to 7: no `raise` writes 0 or a reserved code (R200, R211). -/
theorem ErrKind.code_bounds (e : ErrKind) : 1 ≤ e.code.toNat ∧ e.code.toNat ≤ 7 := by
  cases e <;> decide

theorem ErrKind.code_ne_zero (e : ErrKind) : e.code ≠ 0 := by
  cases e <;> decide

end Sys2Proof.Machine
end

