-- ==== Sys2Proof/Laws/Port.lean ====
section
/-! SUPPORT. What the commands, the host port and a step can do, said once: the inversion of each meaning, of a read, of a write
and of a step, and that the buffers keep their form. -/

namespace Sys2Proof.Machine

/-! ## The meanings, inverted -/

theorem exec_nop (s : State) : exec .nop s = .next s := rfl
theorem exec_clrerr (s : State) : exec .clrerr s = .next (acknowledge s) := rfl
theorem exec_sreset (s : State) : exec .sreset s = .next (softReset s) := rfl

/-- The gate: an error pending leaves the state as it is, none pending runs the command. -/
theorem whenClear_eq_next {s t : State} {run : State → Host.Outcome State Fault Refusal} :
    whenClear s run = .next t ↔ (s.errcode ≠ 0 ∧ t = s) ∨ (s.errcode = 0 ∧ run s = .next t) := by
  by_cases h : s.errcode = 0
  · rw [whenClear_clear h]; simp [h]
  · rw [whenClear_pending h]; simp only [ne_eq, h, not_false_eq_true, true_and, false_and, or_false,
      Host.Outcome.next.injEq, eq_comm (a := t)]

/-- The gate: a stop is the command's own. -/
theorem whenClear_eq_refused {s : State} {r : Refusal} {run : State → Host.Outcome State Fault Refusal} :
    whenClear s run = .refused r ↔ s.errcode = 0 ∧ run s = .refused r := by
  by_cases h : s.errcode = 0
  · rw [whenClear_clear h]; simp [h]
  · rw [whenClear_pending h]; simp only [h, false_and, reduceCtorEq]

theorem whenClear_eq_fault {s : State} {r : Fault} {run : State → Host.Outcome State Fault Refusal} :
    whenClear s run = .fault r ↔ s.errcode = 0 ∧ run s = .fault r := by
  by_cases h : s.errcode = 0
  · rw [whenClear_clear h]; simp [h]
  · rw [whenClear_pending h]; simp only [h, false_and, reduceCtorEq]

theorem exec_count_of {s : State} {msg : List Byte} (h : s.errcode = 0) (hm : Message s msg) :
    exec .count s = .next (runCount msg s) := by
  simp only [exec, execCount, whenClear_clear h, message_eq_some.2 hm]

theorem exec_build_of {s : State} (h : s.errcode = 0) : exec .build s = .next (runBuild s).state := by
  simp only [exec, execBuild, whenClear_clear h]

theorem exec_generate_of {s : State} {codes : List (Byte × List Bool)} (h : s.errcode = 0) (ht : s.treeValid = true)
    (hc : s.leafCodes = some codes) : exec .generate s = .next (storeTable codes s) := by
  simp only [exec, execGenerate, whenClear_clear h, ht, hc, if_true]

theorem exec_pack_of {s : State} {msg : List Byte} (h : s.errcode = 0) (hm : Message s msg) :
    exec .pack s = .next (runPack msg s).state := by
  simp only [exec, execPack, whenClear_clear h, message_eq_some.2 hm]

theorem exec_decode_of {s : State} {bits : List Bool} (h : s.errcode = 0) (hs : Stream s bits) :
    exec .decode s = .next (runDecode bits s).state := by
  simp only [exec, execDecode, whenClear_clear h, stream_eq_some.2 hs]

theorem exec_count_next {s t : State} : exec .count s = .next t ↔
    (s.errcode ≠ 0 ∧ t = s) ∨ (s.errcode = 0 ∧ ∃ msg, Message s msg ∧ t = runCount msg s) := by
  simp only [exec, execCount, whenClear_eq_next, ← message_eq_some]
  cases s.message <;> simp [eq_comm (a := t)]

theorem exec_build_next {s t : State} : exec .build s = .next t ↔
    (s.errcode ≠ 0 ∧ t = s) ∨ (s.errcode = 0 ∧ t = (runBuild s).state) := by
  simp only [exec, execBuild, whenClear_eq_next, Host.Outcome.next.injEq, eq_comm (a := t)]

theorem exec_generate_next {s t : State} : exec .generate s = .next t ↔
    (s.errcode ≠ 0 ∧ t = s) ∨ (s.errcode = 0 ∧ s.treeValid = false ∧ t = raise .noTree 0 s) ∨
      (s.errcode = 0 ∧ s.treeValid = true ∧ ∃ codes, s.leafCodes = some codes ∧ t = storeTable codes s) := by
  simp only [exec, execGenerate, whenClear_eq_next]
  cases s.treeValid <;> cases s.leafCodes <;> simp [eq_comm (a := t)]

theorem exec_pack_next {s t : State} : exec .pack s = .next t ↔
    (s.errcode ≠ 0 ∧ t = s) ∨ (s.errcode = 0 ∧ ∃ msg, Message s msg ∧ t = (runPack msg s).state) := by
  simp only [exec, execPack, whenClear_eq_next, ← message_eq_some]
  cases s.message <;> simp [eq_comm (a := t)]

theorem exec_encode_next {s t : State} : exec .encode s = .next t ↔
    (s.errcode ≠ 0 ∧ t = s) ∨ (s.errcode = 0 ∧ ∃ msg, Message s msg ∧
      ((∃ u, runBuild (runCount msg s) = .error u ∧ t = encodeEmpty u) ∨
       ∃ u codes, runBuild (runCount msg s) = .ok u ∧ u.leafCodes = some codes ∧
         t = (runPack msg (storeTable codes u)).state)) := by
  simp only [exec, execEncode, whenClear_eq_next, ← message_eq_some]
  cases s.message with
  | none => simp
  | some msg =>
    simp only [Option.some.injEq, exists_eq_left']
    cases runBuild (runCount msg s) with
    | error u => simp [eq_comm (a := t)]
    | ok u => cases hu : u.leafCodes <;> simp [hu, eq_comm (a := t)]

theorem exec_decode_next {s t : State} : exec .decode s = .next t ↔
    (s.errcode ≠ 0 ∧ t = s) ∨ (s.errcode = 0 ∧ ∃ bits, Stream s bits ∧ t = (runDecode bits s).state) := by
  simp only [exec, execDecode, whenClear_eq_next, ← stream_eq_some]
  cases s.stream <;> simp [eq_comm (a := t)]

/-! ## The host port -/

/-- A read changes the port's answer and, where a lane is unspecified, the counter of free values: nothing of the engine. -/
theorem hostRead_frame (off : Offset) (s : State) :
    ∃ a d, hostRead off s = { s with answer := some a, draws := d } ∧ (d = s.draws ∨ d = s.draws + 4) := by
  unfold hostRead
  split
  · exact ⟨_, s.draws, rfl, .inl rfl⟩
  · rename_i l _
    split
    · by_cases h : readUnspec s l = true
      · exact ⟨_, s.draws + 4, by rw [afterDraw, if_pos h]; rfl, .inr rfl⟩
      · exact ⟨_, s.draws, by rw [afterDraw, if_neg h]; rfl, .inl rfl⟩
    · exact ⟨_, s.draws, rfl, .inl rfl⟩

/-- A write to `CMD`: an illegal word, or the decoded command. -/
theorem writeCommand_next {w : Word} {s t : State} : writeCommand w s = .next t ↔
    ((∃ e, decode w = .error e) ∧ t = (badCommand w s).answered Answer.written) ∨
      ∃ i u, decode w = .ok i ∧ exec i s = .next u ∧ t = u.answered Answer.written := by
  unfold writeCommand
  cases h : decode w <;> simp [mapNext_eq_next, eq_comm (a := t)]

/-- A write: refused, a command, or stored at its location. -/
theorem hostWrite_next {off : Offset} {v : Word} {s t : State} (h : hostWrite off v s = .next t) :
    t = s.answered Answer.writeRefused ∨
    (decodeOffset off = some .cmd ∧ writeCommand v s = .next t) ∨
    ∃ l, decodeOffset off = some l ∧ l ≠ .cmd ∧ l.writable = true ∧ l.legalValue v = true ∧
      t = (writeLoc s l v).answered Answer.written := by
  unfold hostWrite at h
  split at h
  · simp only [Host.Outcome.next.injEq] at h; exact .inl h.symm
  · rename_i l hl
    split at h
    · rename_i hc; subst hc; exact .inr (.inl ⟨hl, h⟩)
    · rename_i hc
      split at h
      · rename_i hw
        rw [Bool.and_eq_true] at hw
        simp only [Host.Outcome.next.injEq] at h
        exact .inr (.inr ⟨l, hl, hc, hw.1, hw.2, h.symm⟩)
      · simp only [Host.Outcome.next.injEq] at h; exact .inl h.symm

/-- Everything a step can do. -/
theorem step_next {s t : State} (h : step s = .next t) :
    (s.pending = [] ∧ t = s) ∨
    (∃ rest, s.pending = .rst :: rest ∧ t = hardReset { s with pending := rest }) ∨
    (∃ off rest, s.pending = .access (.rd off) :: rest ∧ s.errcode.toNat ≤ 7 ∧
      t = hostRead off { s with pending := rest }) ∨
    ∃ off v rest, s.pending = .access (.wr off v) :: rest ∧ s.errcode.toNat ≤ 7 ∧
      hostWrite off v { s with pending := rest } = .next t := by
  unfold step stepEvent at h
  split at h
  · rename_i hp; simp only [Host.Outcome.next.injEq] at h; exact .inl ⟨hp, h.symm⟩
  · rename_i e rest hp
    unfold performEvent at h
    split at h
    · simp only [Host.Outcome.next.injEq] at h; exact .inr (.inl ⟨rest, hp, h.symm⟩)
    · rename_i a
      split at h
      · simp at h
      · rename_i he
        have he : s.errcode.toNat ≤ 7 := Nat.le_of_not_lt he
        cases a with
        | rd off =>
          simp only [performAccess, Host.Outcome.next.injEq] at h
          exact .inr (.inr (.inl ⟨off, rest, hp, he, h.symm⟩))
        | wr off v => exact .inr (.inr (.inr ⟨off, v, rest, hp, he, h⟩))

/-- A step on a host access that is next, in a state of a legal `ERRCODE`. -/
theorem step_ask {s : State} (h : s.errcode.toNat ≤ 7) (a : Access) : step (s.ask a) = performAccess a s := by
  have h7 : ¬ 7 < s.errcode.toNat := Nat.not_lt.2 h
  show (if 7 < s.errcode.toNat then _ else performAccess a s) = _
  rw [if_neg h7]

/-! ## The buffers keep their canonical form -/

theorem wordBase_le (n : BitVec 10) : wordBase n + 4 ≤ 4096 := by
  have := n.isLt
  simp only [wordBase]
  omega

theorem writeLoc_wf {s : State} (l : Loc) (v : Word) (hs : s.symbuf.wf Config.symCap) (hb : s.bitbuf.wf Config.bitBytes) :
    (writeLoc s l v).symbuf.wf Config.symCap ∧ (writeLoc s l v).bitbuf.wf Config.bitBytes := by
  cases l with
  | symbufW n => exact ⟨Memory.writeBytes_wf _ _ _ hs (wordBase_le n), hb⟩
  | bitbufW n => exact ⟨hs, Memory.writeBytes_wf _ _ _ hb (wordBase_le n)⟩
  | _ => exact ⟨hs, hb⟩

theorem hardReset_wf (s : State) :
    (hardReset s).symbuf.wf Config.symCap ∧ (hardReset s).bitbuf.wf Config.bitBytes :=
  ⟨Memory.unspecAll_wf _, Memory.unspecAll_wf _⟩

theorem reset_wf : State.reset.symbuf.wf Config.symCap ∧ State.reset.bitbuf.wf Config.bitBytes :=
  ⟨Memory.unspecAll_wf _, Memory.unspecAll_wf _⟩

end Sys2Proof.Machine
end

