-- ==== Sys2Proof/Tests/Slice0.lean ====
section
/-! SUPPORT. The model's own tests: the checks of WellFormed, words written out from R91 and R93, worked vectors of
spec/95_test_vectors.md (one step each), and for every statement with hypotheses a state and operands that meet them. -/

namespace Sys2Proof.Tests

-- One theorem after another: the kernel evaluates some of these for a second, and waiting theorems each hold a thread.
set_option Elab.async false

open Sys2Proof Sys2Proof.Machine

/-! ## Well-formedness -/

/-- A message longer than `SYM_CAP` is refused, one of exactly that length is not. -/
theorem test_wellFormed_putsym :
    (Stmt.putsym (List.replicate 4097 0)).wellFormed = false ∧ (Stmt.putsym (List.replicate 4096 0)).wellFormed = true := by
  simp only [Stmt.wellFormed, List.length_replicate]; decide

/-- A bit-string longer than `BIT_CAP` is refused, one of exactly that length is not. -/
theorem test_wellFormed_putbits :
    (Stmt.putbits (List.replicate 32769 false)).wellFormed = false ∧
      (Stmt.putbits (List.replicate 32768 false)).wellFormed = true := by
  simp only [Stmt.wellFormed, List.length_replicate]; decide

/-- A code has 1 to 255 bits: none and 256 are refused. -/
theorem test_wellFormed_putcode :
    (Stmt.putcode 0x61 []).wellFormed = false ∧ (Stmt.putcode 0x61 (List.replicate 256 true)).wellFormed = false ∧
      (Stmt.putcode 0x61 [true]).wellFormed = true ∧ (Stmt.putcode 0x61 (List.replicate 255 true)).wellFormed = true := by
  simp only [Stmt.wellFormed, List.length_replicate, List.length_nil, List.length_cons]; decide

/-! ## Decoding: bits 31:8 are `RSV`, bits 7:0 `OPC` (R91); the codes are those of R93 -/

theorem test_decode_nop : decode 0b000000000000000000000000_00000000#32 = .ok .nop := rfl
theorem test_decode_clrerr : decode 0b000000000000000000000000_00000001#32 = .ok .clrerr := rfl
theorem test_decode_sreset : decode 0b000000000000000000000000_00000010#32 = .ok .sreset := rfl
theorem test_decode_count : decode 0b000000000000000000000000_00010000#32 = .ok .count := rfl
theorem test_decode_build : decode 0b000000000000000000000000_00010001#32 = .ok .build := rfl
theorem test_decode_generate : decode 0b000000000000000000000000_00010010#32 = .ok .generate := rfl
theorem test_decode_pack : decode 0b000000000000000000000000_00010011#32 = .ok .pack := rfl
theorem test_decode_encode : decode 0b000000000000000000000000_00010100#32 = .ok .encode := rfl
theorem test_decode_decode : decode 0b000000000000000000000000_00100000#32 = .ok .decode := rfl

/-- The illegal words of V5: COUNT's code with a reserved bit set, and codes between and beyond the nine. -/
theorem test_decode_illegal :
    decode 0x00000110#32 = .error (.reservedBits 0x00000110#32) ∧ decode 0xFFFFFFFF#32 = .error (.reservedBits 0xFFFFFFFF#32) ∧
      decode 0x00000003#32 = .error (.unknownOpcode 0x03#8) ∧ decode 0x00000015#32 = .error (.unknownOpcode 0x15#8) ∧
      decode 0x00000021#32 = .error (.unknownOpcode 0x21#8) := by
  refine ⟨rfl, rfl, rfl, rfl, rfl⟩

theorem test_decodeTableWord :
    decodeTableWord 32 0x14 = some .encode ∧ decodeTableWord 8 0x14 = some .encode ∧ decodeTableWord 32 0x114 = none ∧
      decodeTableWord 40 0x14 = none := by
  refine ⟨rfl, rfl, rfl, rfl⟩

/-! ## Small states -/

/-- The state of an outcome, the reset state when it is a stop. -/
def stateOf : Host.Outcome State Fault Refusal → State
  | .next t => t
  | .fault _ => .reset
  | .refused _ => .reset

/-- Whether an outcome is a next state. -/
def isNext : Host.Outcome State Fault Refusal → Bool
  | .next _ => true
  | .fault _ => false
  | .refused _ => false

theorem next_stateOf {o : Host.Outcome State Fault Refusal} (h : isNext o = true) : o = .next (stateOf o) := by
  cases o <;> simp_all [isNext, stateOf]

/-- The reset state with a message in `SYMBUF`. -/
def withMessage (msg : List Byte) : State :=
  { State.reset with symbuf := Memory.writeBytes [] 0 msg, symlen := BitVec.ofNat 32 msg.length }

/-- The reset state with a stream in `BITBUF`, given as its bytes and its length, and the table of some codes. -/
def withStream (codes : List (Byte × List Bool)) (bytes : List Byte) (len : Nat) : State :=
  { State.reset with codetab := tableOf codes, bitbuf := Memory.writeBytes [] 0 bytes, bitlen := BitVec.ofNat 32 len }

/-- The reset state with some counts. -/
def withCounts (counts : List (Byte × Word)) : State :=
  { State.reset with freq := counts.foldl (fun f p => f.set p.1 p.2) (Table.fill 8 0) }

/-- The state after BUILD from some counts. -/
def built (counts : List (Byte × Word)) : State := stateOf (exec .build (withCounts counts))

/-- The port's answer to one access. -/
def answerTo (a : Access) (s : State) : Option Answer := (stateOf (step (s.ask a))).answer

/-! ## The worked vectors of spec/95_test_vectors.md -/

/-- V1, refused reads. -/
theorem test_port_refuses_reads :
    [0x0000#16, 0x0002#16, 0x4024#16, 0x0030#16, 0x0800#16, 0x3000#16, 0xA000#16].map (fun off => answerTo (.rd off) .reset) =
      List.replicate 7 (some ⟨.slverr, some 0⟩) := by
  decide +kernel

/-- V1, refused writes. -/
theorem test_port_refuses_writes :
    [(0x0004#16, 1#32), (0x0010#16, 4097#32), (0x0014#16, 32769#32), (0x8000#16, 0#32), (0x4000#16, 256#32)].map
      (fun w => answerTo (.wr w.1 w.2) .reset) = List.replicate 5 (some ⟨.slverr, none⟩) := by
  decide +kernel

/-- V1, the accepted accesses at the same boundaries. -/
theorem test_port_accepts :
    [0x0028#16, 0x002C#16].map (fun off => answerTo (.rd off) .reset) =
      [some ⟨.okay, some 0x00001000#32⟩, some ⟨.okay, some 0x00008000#32⟩] ∧
    [(0x0010#16, 4096#32), (0x0014#16, 32768#32), (0x4000#16, 255#32)].map
      (fun w => answerTo (.wr w.1 w.2) .reset) = List.replicate 3 (some ⟨.okay, none⟩) := by
  decide +kernel

/-- V2, byte order. -/
theorem test_byte_order :
    (stateOf (step (State.reset.ask (.wr 0x1000#16 0x61726261#32)))).symbuf =
      [(0, 0x61), (1, 0x62), (2, 0x72), (3, 0x61)] := by
  decide +kernel

/-- V3, bit order. -/
theorem test_bit_order :
    [0, 1, 8, 23].map (bitGet (stateOf (step (State.reset.ask (.wr 0x2000#16 0x00DC8A6E#32)))).bitbuf) =
      [some false, some true, some true, some false] := by
  decide +kernel

/-- V11, the host words of `NODE[2]` and the first of `NODE[0]`. -/
theorem test_node_words :
    let s := built [(0x61, 1), (0x62, 1)]
    [0x8020#16, 0x8024#16, 0x8028#16, 0x802C#16, 0x8000#16].map (fun off => answerTo (.rd off) s) =
      [some ⟨.okay, some 2⟩, some ⟨.okay, some 2⟩, some ⟨.okay, some 0⟩, some ⟨.okay, some 0x00010000#32⟩,
       some ⟨.okay, some 0x00006101#32⟩] := by
  decide +kernel

/-- V5, an illegal word. -/
theorem test_bad_command :
    let t := stateOf (step (State.reset.ask (.wr 0#16 0x00000110#32)))
    t.errcode = 7 ∧ t.errinfo = 0x00000110#32 := by
  decide +kernel

/-- V6: NOP changes nothing, CLRERR clears the error of V31. -/
theorem test_nop_clrerr :
    let s := { State.reset with errcode := 1 }
    (stateOf (exec .nop s)).errcode = 1 ∧ (stateOf (exec .clrerr s)).errcode = 0 := by
  decide +kernel

/-- V55: SRESET keeps the buffers. -/
theorem test_sreset :
    let t := stateOf (exec .sreset (withMessage [0x61, 0x62, 0x72, 0x61]))
    t.symlen = 0 ∧ t.symbuf = [(0, 0x61), (1, 0x62), (2, 0x72), (3, 0x61)] := by
  decide +kernel

/-- V9: a byte beyond the message is not counted. -/
theorem test_count :
    let t := stateOf (exec .count { withMessage [0x61, 0x61, 0x61, 0x7A] with symlen := 3 })
    t.freq.get 0x61 = 3 ∧ t.freq.get 0x7A = 0 := by
  decide +kernel

/-- V8: an empty message clears a count the host wrote. -/
theorem test_count_empty : (stateOf (exec .count (withCounts [(0x41, 7)]))).freq.get 0x41 = 0 := by
  decide +kernel

/-- V12: at equal frequency the leaf is popped before the younger internal node. -/
theorem test_build_tie :
    let t := built [(0x61, 1), (0x62, 1), (0x63, 2)]
    t.node.get 3 = .internal 2 0 1 ∧ t.node.get 4 = .internal 4 2 3 ∧ t.root = 4 := by
  decide +kernel

/-- V14: the one-symbol wrapper. -/
theorem test_build_single :
    let t := built [(0x61, 4)]
    t.node.get 0 = .leaf 0x61 4 ∧ t.node.get 1 = .placeholder ∧ t.node.get 2 = .internal 4 0 1 ∧ t.nnodes = 3 := by
  decide +kernel

/-- V18: the table of `"aabbc"`. -/
theorem test_generate :
    let t := stateOf (exec .generate (built [(0x61, 2), (0x62, 2), (0x63, 1)]))
    codeOf t.codetab 0x62 = [false] ∧ codeOf t.codetab 0x63 = [true, false] ∧ codeOf t.codetab 0x61 = [true, true] ∧
      t.maxlen = 2 := by
  decide +kernel

/-- V21: GENERATE on the reset state. -/
theorem test_generate_no_tree : (stateOf (exec .generate .reset)).errcode = 6 := by
  decide +kernel

/-- V25: `"abcc"` with the table of V12. -/
theorem test_pack :
    let t := stateOf (exec .pack
      { withMessage [0x61, 0x62, 0x63, 0x63] with
        codetab := tableOf [(0x63, [false]), (0x61, [true, false]), (0x62, [true, true])] })
    t.bitlen = 6 ∧ t.bitbuf = [(0, 0xB0)] := by
  decide +kernel

/-- V27: a symbol without a code. -/
theorem test_pack_no_code :
    let t := stateOf (exec .pack
      { withMessage [0x61, 0x62, 0x63] with
        codetab := tableOf [(0x61, [false]), (0x62, [true, false])], bitlen := 9, bitbuf := [(0, 0x55)] })
    t.errcode = 4 ∧ t.errinfo = 2 ∧ t.bitlen = 0 ∧ t.bitbuf = [] := by
  decide +kernel

/-- V30: `"aaaaaaaab"`. -/
theorem test_encode :
    let t := stateOf (exec .encode (withMessage [0x61, 0x61, 0x61, 0x61, 0x61, 0x61, 0x61, 0x61, 0x62]))
    t.bitlen = 9 ∧ t.bitbuf = [(0, 0xFF), (1, 0x00)] ∧ t.errcode = 0 := by
  decide +kernel

/-- V31: ENCODE of nothing. -/
theorem test_encode_empty :
    let t := stateOf (exec .encode .reset)
    t.errcode = 1 ∧ t.errinfo = 0 ∧ t.status = 1 := by
  decide +kernel

/-- V50: the shorter code wins a prefix clash. -/
theorem test_decode_prefix_clash :
    (stateOf (exec .decode (withStream [(0x61, [false]), (0x62, [false, true]), (0x63, [true])] [0b01100000] 3))).symbuf =
      [(0, 0x61), (1, 0x63), (2, 0x63)] := by
  decide +kernel

/-- V49: an accumulator longer than the longest code. -/
theorem test_decode_corrupt :
    let t := stateOf (exec .decode (withStream [(0x61, [false]), (0x62, [true, true, false])] [0b01000000] 5))
    t.errcode = 3 ∧ t.errinfo = 1 ∧ t.symlen = 0 ∧ t.maxlen = 3 := by
  decide +kernel

/-! ## The step runs what `withFetchWord` places -/

/-- A word placed right after reset is run by the very next step, and its bits above `nbits` are 0. -/
theorem test_withFetchWord :
    (stateOf (step (State.reset.withFetchWord 32 0x12))).errcode = 6 ∧
    (stateOf (step (State.reset.withFetchWord 8 0x112))).errcode = 6 := by
  decide +kernel

/-! ## Witnesses: for every statement with hypotheses, states and operands that meet them -/

/-- The statements whose only hypothesis is `ERRCODE <= 7`, at both ends: StatusReadsItsFlags, ControlRegistersReadTheirValue,
FreqAndCodetabWordsRead, NodeWordsHaveTheLayout, BufferWordsReadLittleEndian, BufferWordsWriteLittleEndian. -/
theorem witness_errcode_legal :
    State.reset.errcode.toNat ≤ 7 ∧ ({ State.reset with errcode := 7 } : State).errcode.toNat ≤ 7 := by
  decide

theorem witness_StepRunsTheDecodedCommand : State.reset.errcode.toNat ≤ 7 ∧ decode 0x10#32 = .ok .count := ⟨by decide, rfl⟩

theorem witness_IdleEngineHoldsItsState : State.reset.pending = [] := rfl

/-- RefusedAccessChangesNothing: each way a read is refused, at both ends of its range. -/
theorem witness_RefusedAccessChangesNothing_read :
    (RefusedRead 0x0000#16 ∧ RefusedRead 0x0001#16 ∧ RefusedRead 0xFFFF#16) ∧ (RefusedRead 0x0030#16 ∧ RefusedRead 0x03FC#16) ∧
    (RefusedRead 0x0800#16 ∧ RefusedRead 0x0FFC#16) ∧ (RefusedRead 0x3000#16 ∧ RefusedRead 0x3FFC#16) ∧
    (RefusedRead 0x4024#16 ∧ RefusedRead 0x7FFC#16) ∧ (RefusedRead 0xA000#16 ∧ RefusedRead 0xFFFC#16) := by
  unfold RefusedRead Unmapped
  repeat' apply And.intro
  all_goals decide

/-- RefusedAccessChangesNothing: each way a write is refused, at both ends of its range. -/
theorem witness_RefusedAccessChangesNothing_write :
    (RefusedWrite 0x0002#16 0 ∧ RefusedWrite 0x0030#16 0) ∧ (RefusedWrite 0x0004#16 0 ∧ RefusedWrite 0x000C#16 0) ∧
    (RefusedWrite 0x0018#16 0 ∧ RefusedWrite 0x002C#16 0) ∧ (RefusedWrite 0x8000#16 0 ∧ RefusedWrite 0x9FFC#16 0) ∧
    RefusedWrite 0x0010#16 4097 ∧ RefusedWrite 0x0014#16 32769 ∧
    (RefusedWrite 0x4000#16 256 ∧ RefusedWrite 0x7FC0#16 0xFFFFFFFF) := by
  unfold RefusedWrite Unmapped
  repeat' apply And.intro
  all_goals decide

/-- AcceptedAccessIsAnsweredOkay: the neighbours of the refused reads and writes. -/
theorem witness_AcceptedAccessIsAnsweredOkay :
    (¬ RefusedRead 0x0004#16 ∧ ¬ RefusedRead 0x002C#16 ∧ ¬ RefusedRead 0x0400#16 ∧ ¬ RefusedRead 0x07FC#16 ∧
      ¬ RefusedRead 0x1000#16 ∧ ¬ RefusedRead 0x2FFC#16 ∧ ¬ RefusedRead 0x4020#16 ∧ ¬ RefusedRead 0x7FE0#16 ∧
      ¬ RefusedRead 0x8000#16 ∧ ¬ RefusedRead 0x9FFC#16) ∧
    ¬ RefusedWrite 0x0010#16 4096 ∧ ¬ RefusedWrite 0x0014#16 32768 ∧ ¬ RefusedWrite 0x7FC0#16 255 ∧
    (0x0010#16).toNat ≠ 0 ∧
    step (State.reset.ask (.wr 0#16 0x00#32)) = .next { State.reset with answer := some ⟨.okay, none⟩ } := by
  unfold RefusedWrite RefusedRead Unmapped
  repeat' apply And.intro
  all_goals first | decide | rfl

/-- HostWriteStoresOnlyItsLocation: the largest legal values. -/
theorem witness_HostWriteStoresOnlyItsLocation :
    State.reset.errcode.toNat ≤ 7 ∧ (4096#32).toNat ≤ 4096 ∧ (32768#32).toNat ≤ 32768 ∧ (255#32).toNat < 256 := by
  decide

theorem witness_IllegalWordRaisesBadCommand :
    0x110#32 ∉ [0x00#32, 0x01#32, 0x02#32, 0x10#32, 0x11#32, 0x12#32, 0x13#32, 0x14#32, 0x20#32] ∧ State.reset.errcode = 0 ∧
    ({ State.reset with errcode := 1 } : State).errcode ≠ 0 := by
  decide

theorem witness_PendingErrorIgnoresOperations :
    ({ State.reset with errcode := 1 } : State).errcode ≠ 0 ∧
      Instr.pack ∈ [Instr.count, .build, .generate, .pack, .encode, .decode] := by
  decide

/-! ### Messages -/

/-- The bytes stored from index 0 on are specified. -/
theorem message_withMessage (msg : List Byte) (h : msg.length < 2 ^ 32) : Message (withMessage msg) msg := by
  refine ⟨by simp only [withMessage, BitVec.toNat_ofNat]; omega, fun i hi => ?_⟩
  simp only [withMessage, Memory.read_writeBytes]
  rw [dif_pos (by omega)]
  simp

theorem witness_CountStoresTheOccurrences :
    (withMessage [0x61, 0x62]).errcode = 0 ∧ Message (withMessage [0x61, 0x62]) [0x61, 0x62] ∧
      ({ State.reset with errcode := 1 } : State).errcode ≠ 0 :=
  ⟨rfl, message_withMessage _ (by decide), by decide⟩

theorem witness_CountIgnoresTheOrder :
    Message (withMessage [0x61, 0x62]) [0x61, 0x62] ∧ Message (withMessage [0x62, 0x61]) [0x62, 0x61] ∧
      ([0x61#8, 0x62#8]).Perm [0x62, 0x61] ∧ (∃ t, exec .count (withMessage [0x61, 0x62]) = .next t) ∧
      ∃ t, exec .count (withMessage [0x62, 0x61]) = .next t :=
  ⟨message_withMessage _ (by decide), message_withMessage _ (by decide), .swap _ _ _,
    ⟨_, next_stateOf (by decide +kernel)⟩, ⟨_, next_stateOf (by decide +kernel)⟩⟩

/-! ### Trees -/

theorem witness_BuildOfNothingRaisesEmptyInput : State.reset.errcode = 0 ∧ ∀ x, State.reset.freq.get x = 0 :=
  ⟨rfl, fun x => by simp [State.reset]⟩

/-- BuildCompletes, BuildSeedsTheLeavesInOrder, BuildEstablishesTheTreeInvariants, RootFrequencyIsTheTotal,
BuildMergesTheTwoLowestKeys, and the second half of GeneratedTableIsAPrefixCode: two symbols with a count. -/
theorem witness_Build :
    let s := withCounts [(0x61, 1), (0x62, 1)]
    s.errcode = 0 ∧ (∃ x, s.freq.get x ≠ 0) ∧ 2 ≤ (keysOf s.freq).length ∧ (∃ t, exec .build s = .next t) ∧
      ∃ u, exec .generate (stateOf (exec .build s)) = .next u :=
  ⟨rfl, ⟨0x61, by decide +kernel⟩, by rw [← presentSymbols_eq_keysOf]; decide +kernel, ⟨_, next_stateOf (by decide +kernel)⟩,
    ⟨_, next_stateOf (by decide +kernel)⟩⟩

theorem witness_BuildWrapsASingleSymbol :
    (withCounts [(0x61, 4)]).errcode = 0 ∧ keysOf (withCounts [(0x61, 4)]).freq = [0x61] ∧
      ∃ t, exec .build (withCounts [(0x61, 4)]) = .next t :=
  ⟨rfl, by rw [← presentSymbols_eq_keysOf]; decide +kernel, ⟨_, next_stateOf (by decide +kernel)⟩⟩

/-- The tree of V11, written out. -/
def tinyTree : State :=
  { State.reset with
    node := ((freeArena.set 0 (.leaf 0x61 1)).set 1 (.leaf 0x62 1)).set 2 (.internal 2 0 1)
    nleaves := 2, nnodes := 3, root := 2, treeValid := true }

/-- The tree of V14, written out. -/
def singleTree : State :=
  { State.reset with
    node := ((freeArena.set 0 (.leaf 0x61 4)).set 1 .placeholder).set 2 (.internal 4 0 1)
    nleaves := 1, nnodes := 3, root := 2, treeValid := true }

theorem tinyTree_get (i : NodeIx) : tinyTree.node.get i =
    if i = 2 then .internal 2 0 1 else if i = 1 then .leaf 0x62 1 else if i = 0 then .leaf 0x61 1 else .free := by
  simp only [tinyTree, Table.get_set, freeArena, Table.get_fill]

theorem singleTree_get (i : NodeIx) : singleTree.node.get i =
    if i = 2 then .internal 4 0 1 else if i = 1 then .placeholder else if i = 0 then .leaf 0x61 4 else .free := by
  simp only [singleTree, Table.get_set, freeArena, Table.get_fill]

/-- An index below 3 is one of three. -/
theorem ix_lt_three {i : NodeIx} (h : i.toNat < 3) : i = 0 ∨ i = 1 ∨ i = 2 := by
  have : i.toNat = 0 ∨ i.toNat = 1 ∨ i.toNat = 2 := by omega
  rcases this with h | h | h
  · exact .inl (BitVec.eq_of_toNat_eq h)
  · exact .inr (.inl (BitVec.eq_of_toNat_eq h))
  · exact .inr (.inr (BitVec.eq_of_toNat_eq h))

theorem tinyTree_child {c p : NodeIx} : IsChild tinyTree.node c p ↔ p = 2 ∧ (c = 0 ∨ c = 1) := by
  simp only [IsChild, tinyTree_get]
  constructor
  · rintro ⟨f, l, r, h, hc⟩
    split at h
    · rename_i hp; injection h with _ h1 h2; subst h1 h2; exact ⟨hp, hc⟩
    · split at h
      · simp at h
      · split at h <;> simp at h
  · rintro ⟨rfl, hc⟩; exact ⟨2, 0, 1, by simp, hc⟩

theorem singleTree_child {c p : NodeIx} : IsChild singleTree.node c p ↔ p = 2 ∧ (c = 0 ∨ c = 1) := by
  simp only [IsChild, singleTree_get]
  constructor
  · rintro ⟨f, l, r, h, hc⟩
    split at h
    · rename_i hp; injection h with _ h1 h2; subst h1 h2; exact ⟨hp, hc⟩
    · split at h
      · simp at h
      · split at h <;> simp at h
  · rintro ⟨rfl, hc⟩; exact ⟨4, 0, 1, by simp, hc⟩

theorem tinyTree_treeInv : TreeInv tinyTree where
  leaves_pos := by decide
  leaves_le := by decide
  nnodes_eq := rfl
  root_eq := rfl
  leaf i hi := by
    have hi : i.toNat < 2 := hi
    rcases ix_lt_three (i := i) (by omega) with rfl | rfl | rfl
    · exact ⟨0x61, 1, by simp [tinyTree_get]⟩
    · exact ⟨0x62, 1, by simp [tinyTree_get]⟩
    · simp at hi
  leaf_ascending i j hij hj := by
    have hj : j.toNat < 2 := hj
    have h0 : i = 0 := BitVec.eq_of_toNat_eq (by simp; omega)
    have h1 : j = 1 := BitVec.eq_of_toNat_eq (by simp; omega)
    subst h0 h1
    simp [tinyTree_get, Node.sym]
  placeholder i := by
    have hk : tinyTree.k = 2 := rfl
    simp only [tinyTree_get, hk]
    constructor
    · intro h
      split at h
      · simp at h
      · split at h
        · simp at h
        · split at h <;> simp at h
    · rintro ⟨h, -⟩; omega
  internal i h1 h2 _ := by
    have h1 : 2 ≤ i.toNat := h1
    have h2 : i.toNat < 3 := h2
    have : i = 2 := BitVec.eq_of_toNat_eq (by simp; omega)
    subst this
    exact ⟨2, 0, 1, by simp [tinyTree_get], by decide, by decide, by decide, by simp [tinyTree_get, Node.freq]⟩
  free i hi := by
    have hi : 3 ≤ i.toNat := hi
    rw [tinyTree_get, if_neg (by rintro rfl; simp at hi), if_neg (by rintro rfl; simp at hi), if_neg (by rintro rfl; simp at hi)]
  parent c hc := by
    have hc : c.toNat < 2 := hc
    refine ⟨2, tinyTree_child.2 ⟨rfl, ?_⟩, fun p h => (tinyTree_child.1 h).1⟩
    rcases ix_lt_three (i := c) (by omega) with rfl | rfl | rfl
    · exact .inl rfl
    · exact .inr rfl
    · simp at hc
  root_orphan p c hc h := by
    have hc : c.toNat = 2 := hc
    rcases (tinyTree_child.1 h).2 with rfl | rfl <;> simp at hc

theorem singleTree_treeInv : TreeInv singleTree where
  leaves_pos := by decide
  leaves_le := by decide
  nnodes_eq := rfl
  root_eq := rfl
  leaf i hi := by
    have hi : i.toNat < 1 := hi
    have : i = 0 := BitVec.eq_of_toNat_eq (by simp; omega)
    subst this
    exact ⟨0x61, 4, by simp [singleTree_get]⟩
  leaf_ascending i j hij hj := by
    have hj : j.toNat < 1 := hj
    omega
  placeholder i := by
    have hk : singleTree.k = 1 := rfl
    simp only [singleTree_get, hk, true_and]
    constructor
    · intro h
      split at h
      · simp at h
      · split at h
        · assumption
        · split at h <;> simp at h
    · rintro rfl; simp
  internal i h1 h2 h3 := by
    have h1 : 1 ≤ i.toNat := h1
    have h2 : i.toNat < 3 := h2
    rcases ix_lt_three h2 with rfl | rfl | rfl
    · simp at h1
    · exact absurd (by simp [singleTree_get]) h3
    · exact ⟨4, 0, 1, by simp [singleTree_get], by decide, by decide, by decide, by simp [singleTree_get, Node.freq]⟩
  free i hi := by
    have hi : 3 ≤ i.toNat := hi
    rw [singleTree_get, if_neg (by rintro rfl; simp at hi), if_neg (by rintro rfl; simp at hi),
      if_neg (by rintro rfl; simp at hi)]
  parent c hc := by
    have hc : c.toNat < 2 := hc
    refine ⟨2, singleTree_child.2 ⟨rfl, ?_⟩, fun p h => (singleTree_child.1 h).1⟩
    rcases ix_lt_three (i := c) (by omega) with rfl | rfl | rfl
    · exact .inl rfl
    · exact .inr rfl
    · simp at hc
  root_orphan p c hc h := by
    have hc : c.toNat = 2 := hc
    rcases (singleTree_child.1 h).2 with rfl | rfl <;> simp at hc

theorem witness_GenerateWithoutATreeRaisesNoTree : State.reset.errcode = 0 ∧ State.reset.treeValid = false := ⟨rfl, rfl⟩

/-- GenerateStoresThePaths, GeneratedTableIsAPrefixCode (first half) and GeneratedLengthsAreBounded, with two leaves. -/
theorem witness_Generate_two :
    tinyTree.errcode = 0 ∧ tinyTree.treeValid = true ∧ TreeInv tinyTree ∧ (∃ t, exec .generate tinyTree = .next t) ∧
      tinyTree.node.get 1 = .leaf 0x62 1 :=
  ⟨rfl, rfl, tinyTree_treeInv, ⟨_, next_stateOf (by decide +kernel)⟩, by simp [tinyTree_get]⟩

/-- The same with one leaf. -/
theorem witness_Generate_one :
    singleTree.errcode = 0 ∧ singleTree.treeValid = true ∧ TreeInv singleTree ∧
      (∃ t, exec .generate singleTree = .next t) ∧ singleTree.node.get 0 = .leaf 0x61 4 :=
  ⟨rfl, rfl, singleTree_treeInv, ⟨_, next_stateOf (by decide +kernel)⟩, by simp [singleTree_get]⟩

/-- GeneratedCodeIsComplete and GeneratedTableNeverCorrupt. -/
theorem witness_GeneratedCodeIsComplete :
    tinyTree.errcode = 0 ∧ tinyTree.treeValid = true ∧ TreeInv tinyTree ∧ 2 ≤ tinyTree.nleaves.toNat ∧
      (∃ t, exec .generate tinyTree = .next t) ∧ (stateOf (exec .generate tinyTree)).maxlen.toNat ≤ [true].length ∧
      ∃ u, exec .decode (stateOf (exec .generate tinyTree)) = .next u :=
  ⟨rfl, rfl, tinyTree_treeInv, by decide, ⟨_, next_stateOf (by decide +kernel)⟩, by decide +kernel,
    ⟨_, next_stateOf (by decide +kernel)⟩⟩

/-! ### PACK and ENCODE -/

/-- A message over a table of one code. -/
def withCode (msg : List Byte) (code : List Bool) : State :=
  { withMessage msg with codetab := emptyTable.set 0x61 (CodeEntry.ofCode code) }

theorem message_withCode (msg : List Byte) (code : List Bool) (h : msg.length < 2 ^ 32) : Message (withCode msg code) msg :=
  message_withMessage msg h

theorem withCode_errcode (msg : List Byte) (code : List Bool) : (withCode msg code).errcode = 0 := rfl

theorem witness_PackConcatenatesTheCodes :
    let s := withCode [0x61, 0x61] [true, false]
    s.errcode = 0 ∧ Message s [0x61, 0x61] ∧ (∀ x ∈ [0x61#8, 0x61#8], (s.codetab.get x).len ≠ 0) ∧
      ([0x61#8, 0x61#8].flatMap (codeOf s.codetab)).length ≤ 32768 := by
  refine ⟨rfl, message_withMessage [0x61, 0x61] (by decide), ?_, by decide +kernel⟩
  intro x hx
  have : x = 0x61 := by simpa using hx
  subst this
  decide +kernel

/-- PackFailsAtTheFirstBadSymbol, the missing code: at index 1 of `"ab"`. -/
theorem witness_PackFailsAtTheFirstBadSymbol_noCode :
    let s := withCode [0x61, 0x62] [true]
    s.errcode = 0 ∧ Message s [0x61, 0x62] ∧ (∀ x ∈ [0x61#8, 0x62#8].take 1, (s.codetab.get x).len ≠ 0) ∧
      (([0x61#8, 0x62#8].take 1).flatMap (codeOf s.codetab)).length ≤ 32768 ∧ (s.codetab.get [0x61#8, 0x62#8][1]).len = 0 := by
  refine ⟨rfl, message_withMessage [0x61, 0x62] (by decide), ?_, by decide +kernel, by decide +kernel⟩
  intro x hx
  have : x = 0x61 := by simpa using hx
  subst this
  decide +kernel

/-- PackFailsAtTheFirstBadSymbol, the capacity: a code of 255 bits fits 128 times and not a 129th time. -/
theorem witness_PackFailsAtTheFirstBadSymbol_capacity :
    let s := withCode (List.replicate 129 0x61) (List.replicate 255 true)
    s.errcode = 0 ∧ Message s (List.replicate 129 0x61) ∧
      (∀ x ∈ (List.replicate 129 0x61#8).take 128, (s.codetab.get x).len ≠ 0) ∧
      (((List.replicate 129 0x61#8).take 128).flatMap (codeOf s.codetab)).length ≤ 32768 ∧
      (s.codetab.get 0x61#8).len ≠ 0 ∧
      32768 < (((List.replicate 129 0x61#8).take 128).flatMap (codeOf s.codetab)).length + (s.codetab.get 0x61#8).len.toNat := by
  intro s
  have hlen : (s.codetab.get 0x61#8).len = 255#8 := by decide +kernel
  have hcode : (codeOf s.codetab 0x61#8).length = 255 := by rw [codeOf, code_length, hlen]; rfl
  have htake : (List.replicate 129 0x61#8).take 128 = List.replicate 128 0x61#8 := by decide
  have hall : ((List.replicate 128 0x61#8).flatMap (codeOf s.codetab)).length = 32640 := by
    rw [List.length_flatMap, List.map_replicate, List.sum_replicate, hcode]; rfl
  have hne : (s.codetab.get 0x61#8).len ≠ 0 := by rw [hlen]; decide
  rw [htake, hall, hlen]
  refine ⟨withCode_errcode _ _, message_withCode _ _ (by rw [List.length_replicate]; decide), fun x hx => ?_, by decide,
    by decide, by decide⟩
  obtain rfl := List.eq_of_mem_replicate hx
  exact hne

/-- EncodeRunsTheFourPhases (its three parts) and EncodeNeverRaisesNoCode. -/
theorem witness_EncodeRunsTheFourPhases :
    (withMessage [0x61, 0x62]).errcode = 0 ∧ (withMessage [0x61, 0x62]).symlen ≠ 0 ∧
      Message (withMessage [0x61, 0x62]) [0x61, 0x62] ∧ State.reset.errcode = 0 ∧ State.reset.symlen = 0 ∧
      ({ State.reset with errcode := 1 } : State).errcode ≠ 0 ∧ ∃ t, exec .encode (withMessage [0x61, 0x62]) = .next t :=
  ⟨rfl, by decide, message_withMessage _ (by decide), rfl, rfl, by decide, ⟨_, next_stateOf (by decide +kernel)⟩⟩

theorem witness_EncodeDependsOnTheMessageOnly :
    let s := withMessage [0x61, 0x62]
    let s' := { s with treeValid := true, maxlen := 9, freq := (withCounts [(0x7A, 9)]).freq }
    s ≠ s' ∧ Message s [0x61, 0x62] ∧ Message s' [0x61, 0x62] ∧ (∃ t, exec .encode s = .next t) ∧
      ∃ t', exec .encode s' = .next t' :=
  ⟨fun h => absurd (congrArg State.maxlen h) (by decide), message_withMessage _ (by decide),
    message_withMessage [0x61, 0x62] (by decide),
    ⟨_, next_stateOf (by decide +kernel)⟩, ⟨_, next_stateOf (by decide +kernel)⟩⟩

theorem witness_DecodeAfterEncodeGivesTheMessageBack :
    let s := withMessage [0x61, 0x62]
    s.errcode = 0 ∧ 1 ≤ [0x61#8, 0x62#8].length ∧ [0x61#8, 0x62#8].length ≤ 4096 ∧ Message s [0x61, 0x62] ∧
      exec .encode s = .next (stateOf (exec .encode s)) ∧ (stateOf (exec .encode s)).errcode = 0 :=
  ⟨rfl, by decide, by decide, message_withMessage _ (by decide), next_stateOf (by decide +kernel), by decide +kernel⟩

/-! ### DECODE -/

/-- The table `a -> "0"`, `b -> "110"` of V47 to V49. -/
def gapTable : CodeTable := tableOf [(0x61, [false]), (0x62, [true, true, false])]

/-- The table `a -> "0"` of V42 to V46. -/
def oneTable : CodeTable := tableOf [(0x61, [false])]

theorem witness_MatchIsExactAndLeast : [false] ≠ [] := by decide

theorem gapTable_isMaxLen : IsMaxLen gapTable 3 := by
  have h := longestCode_isMaxLen gapTable
  rwa [show longestCode gapTable = 3 by decide +kernel] at h

theorem oneTable_isMaxLen : IsMaxLen oneTable 1 := by
  have h := longestCode_isMaxLen oneTable
  rwa [show longestCode oneTable = 1 by decide +kernel] at h

theorem isMatch_of_entries {t : CodeTable} {a : List Bool} {x : Byte} (h : codeOf t x = a)
    (hl : t.entries.all (fun e => decide (x.toNat ≤ e.1.toNat) || !e.2.matches a) = true) : IsMatch t a x := by
  refine ⟨codeIs_iff.2 h, fun y hy hc => ?_⟩
  have := List.all_eq_true.1 hl (y, t.get y) (by rw [Table.entries_eq_map]; simp)
  rw [matches_iff.2 hc] at this
  simp only [Bool.not_true, Bool.or_false, decide_eq_true_eq] at this
  omega

theorem no_code_of_entries {t : CodeTable} {a : List Bool} (h : t.entries.all (fun e => !e.2.matches a) = true) (x : Byte) :
    ¬ CodeIs t x a := by
  intro hc
  have := List.all_eq_true.1 h (x, t.get x) (by rw [Table.entries_eq_map]; simp)
  rw [matches_iff.2 hc] at this
  simp at this

/-- `"0"` read with V47's table: one symbol. -/
theorem parse_a : Parse gapTable 3 [0x61] [] [false] :=
  Parse.emit (out := []) .start (isMatch_of_entries (by decide +kernel) (by decide +kernel)) (by decide)

/-- `"01"`, `"010"` and `"0100"`: nothing matches, and up to three bits may wait. -/
theorem parse_a100 : Parse gapTable 3 [0x61] [true, false, false] [false, true, false, false] :=
  Parse.keep (acc := [true, false])
    (Parse.keep (acc := [true])
      (Parse.keep (acc := []) parse_a (no_code_of_entries (by decide +kernel)) (by decide))
      (no_code_of_entries (by decide +kernel)) (by decide))
    (no_code_of_entries (by decide +kernel)) (by decide)

/-- DecodeEndsAtACodeBoundaryOrTruncated, both ends, and the second half of DecodeReportsACorruptStream (V48: `"0100"`). -/
theorem witness_DecodeEndsAtACodeBoundaryOrTruncated :
    let s := { withStream [] [0b01000000] 1 with codetab := gapTable }
    let s' := { withStream [] [0b01000000] 4 with codetab := gapTable }
    Stream s [false] ∧ Parse s.codetab 3 [0x61] [] [false] ∧ IsMaxLen s.codetab 3 ∧
      Stream s' [false, true, false, false] ∧ Parse s'.codetab 3 [0x61] [true, false, false] [false, true, false, false] :=
  ⟨stream_eq_some.1 (by decide +kernel), parse_a, gapTable_isMaxLen, stream_eq_some.1 (by decide +kernel), parse_a100⟩

/-- DecodeReportsACorruptStream (V49: `"01000"`). -/
theorem witness_DecodeReportsACorruptStream :
    let s := { withStream [] [0b01000000] 5 with codetab := gapTable }
    s.errcode = 0 ∧ Stream s ([false, true, false, false] ++ false :: []) ∧ IsMaxLen s.codetab 3 ∧
      Parse s.codetab 3 [0x61] [true, false, false] [false, true, false, false] ∧
      (∀ x, ¬ CodeIs s.codetab x ([true, false, false] ++ [false])) ∧ 3 < [true, false, false].length + 1 :=
  ⟨rfl, stream_eq_some.1 (by decide +kernel), gapTable_isMaxLen, parse_a100,
    no_code_of_entries (by decide +kernel), by decide⟩

theorem oneTable_match : IsMatch oneTable [false] 0x61 := isMatch_of_entries (by decide +kernel) (by decide +kernel)

theorem parse_zeros (n : Nat) (h : n ≤ 4096) :
    Parse oneTable 1 (List.replicate n 0x61) [] (List.replicate n false) := by
  induction n with
  | zero => exact .start
  | succ n ih =>
    rw [List.replicate_succ', List.replicate_succ']
    exact Parse.emit (acc := []) (ih (by omega)) oneTable_match (by simp [Config.symCap]; omega)

/-- DecodeReportsAFullSymbolBuffer (V53: 4097 zero bits). -/
theorem witness_DecodeReportsAFullSymbolBuffer :
    let s := { withStream [] (List.replicate 513 0) 4097 with codetab := oneTable }
    s.errcode = 0 ∧ Stream s (List.replicate 4096 false ++ false :: []) ∧ IsMaxLen s.codetab 1 ∧
      Parse s.codetab 1 (List.replicate 4096 0x61) [] (List.replicate 4096 false) ∧
      IsMatch s.codetab ([] ++ [false]) 0x61 ∧ (List.replicate 4096 0x61#8).length = 4096 := by
  refine ⟨rfl, ?_, oneTable_isMaxLen, parse_zeros 4096 (Nat.le_refl _), oneTable_match, List.length_replicate⟩
  rw [show List.replicate 4096 false ++ false :: [] = List.replicate 4097 false from (List.replicate_succ' (n := 4096)).symm]
  refine ⟨List.length_replicate, fun p hp => ⟨0, ?_, ?_⟩⟩
  · rw [List.length_replicate] at hp
    simp only [withStream, Memory.read_writeBytes, List.length_replicate]
    rw [dif_pos (by omega), List.getElem_replicate]
  · rw [List.getElem_replicate]
    exact BitVec.getLsbD_zero

theorem witness_DecodeAlwaysCompletes :
    (withStream [] [0b01000000] 5).errcode = 0 ∧ Stream (withStream [] [0b01000000] 5) [false, true, false, false, false] :=
  ⟨rfl, stream_eq_some.1 (by decide +kernel)⟩

/-! ### Whole-machine statements -/

/-- A state of the invariant that holds a tree, with a command still to come. -/
theorem tinyTree_inv (e : List Event) : Inv { tinyTree with pending := e } where
  errcode_legal := (by decide : (0#4).toNat ≤ 7)
  errinfo_clear _ := rfl
  symlen_le := (by decide : (0#32).toNat ≤ Config.symCap)
  bitlen_le := (by decide : (0#32).toNat ≤ Config.bitCap)
  maxlen_le := (by decide : (0#32).toNat ≤ Config.lenMax)
  symbuf_wf := Memory.unspecAll_wf _
  bitbuf_wf := Memory.unspecAll_wf _
  tree _ := ⟨tinyTree_treeInv.1, tinyTree_treeInv.2, tinyTree_treeInv.3, tinyTree_treeInv.4, tinyTree_treeInv.5,
    tinyTree_treeInv.6, tinyTree_treeInv.7, tinyTree_treeInv.8, tinyTree_treeInv.9, tinyTree_treeInv.10, tinyTree_treeInv.11⟩
  no_tree h := by simp [tinyTree] at h

/-- A state of the invariant without a tree, whose message is one unspecified byte. -/
theorem unspec_inv (e : List Event) : Inv { State.reset with symlen := 1, bitlen := 1, pending := e } where
  errcode_legal := (by decide : (0#4).toNat ≤ 7)
  errinfo_clear _ := rfl
  symlen_le := (by decide : (1#32).toNat ≤ Config.symCap)
  bitlen_le := (by decide : (1#32).toNat ≤ Config.bitCap)
  maxlen_le := (by decide : (0#32).toNat ≤ Config.lenMax)
  symbuf_wf := Memory.unspecAll_wf _
  bitbuf_wf := Memory.unspecAll_wf _
  tree h := by simp [State.reset] at h
  no_tree _ := ⟨rfl, rfl, rfl, fun i => by simp [State.reset]⟩

/-- EveryStepKeepsTheInvariant and the first clause of StepsStopOnlyOnUnspecifiedInput: a GENERATE on a tree. -/
theorem witness_EveryStepKeepsTheInvariant :
    Inv (tinyTree.ask (.wr 0#16 0x12#32)) ∧ ∃ t, step (tinyTree.ask (.wr 0#16 0x12#32)) = .next t :=
  ⟨tinyTree_inv _, ⟨_, next_stateOf (by decide +kernel)⟩⟩

/-- StepsStopOnlyOnUnspecifiedInput, the second clause, and UnspecifiedInputIsRefused: a COUNT and a DECODE of nothing
specified. -/
theorem witness_UnspecifiedInputIsRefused :
    let s := { State.reset with symlen := 1, bitlen := 1 }
    Inv (s.ask (.wr 0#16 0x10#32)) ∧ s.errcode = 0 ∧ (∃ i, i < s.symlen.toNat ∧ s.symbuf.read i = none) ∧
      ∃ b, b < (s.bitlen.toNat + 7) / 8 ∧ s.bitbuf.read b = none :=
  ⟨unspec_inv _, rfl, ⟨0, by decide, rfl⟩, ⟨0, by decide, rfl⟩⟩

theorem witness_OnlyBuildersWriteTheTree :
    let s := (withCounts [(0x61, 1), (0x62, 1)]).ask (.wr 0#16 0x11#32)
    step s = .next (stateOf (step s)) ∧ (stateOf (step s)).treeValid ≠ s.treeValid :=
  ⟨next_stateOf (by decide +kernel), by decide +kernel⟩

theorem witness_OnlyTableCommandsWriteMaxlen :
    let s := tinyTree.ask (.wr 0#16 0x12#32)
    step s = .next (stateOf (step s)) ∧ (stateOf (step s)).maxlen ≠ s.maxlen :=
  ⟨next_stateOf (by decide +kernel), by decide +kernel⟩

theorem witness_PendingErrorStaysUntilAcknowledged :
    let s := ({ State.reset with errcode := 4, errinfo := 2 }).ask (.wr 0#16 0x01#32)
    s.errcode ≠ 0 ∧ step s = .next (stateOf (step s)) ∧ (stateOf (step s)).errcode ≠ s.errcode :=
  ⟨by decide, next_stateOf (by decide +kernel), by decide +kernel⟩

/-! ### The script language -/

theorem witness_PutsymLoadsTheMessage :
    let s := { State.reset with pending := (expand (.putsym [0x61, 0x62, 0x63, 0x64, 0x65])).map .access }
    s.errcode.toNat ≤ 7 ∧ (Stmt.putsym [0x61, 0x62, 0x63, 0x64, 0x65]).wellFormed = true ∧
      s.pending = (expand (.putsym [0x61, 0x62, 0x63, 0x64, 0x65])).map .access :=
  ⟨by decide, by decide, rfl⟩

theorem witness_PutbitsLoadsTheStream :
    let s := { State.reset with pending := (expand (.putbits [true, false, true])).map .access }
    s.errcode.toNat ≤ 7 ∧ (Stmt.putbits [true, false, true]).wellFormed = true ∧
      s.pending = (expand (.putbits [true, false, true])).map .access :=
  ⟨by decide, by decide, rfl⟩

theorem witness_PutcodeStoresTheCode :
    let s := { State.reset with pending := (expand (.putcode 0x61 [true, false, true])).map .access }
    s.errcode.toNat ≤ 7 ∧ (Stmt.putcode 0x61 [true, false, true]).wellFormed = true ∧
      s.pending = (expand (.putcode 0x61 [true, false, true])).map .access :=
  ⟨by decide, by decide, rfl⟩

end Sys2Proof.Tests
end

section
/-! PROOFS. The tree that BUILD leaves: it meets the invariants of R41, so the traversal from `ROOT` succeeds on it. -/

namespace Sys2Proof.Machine

/-- During the merge loop a child is older than its parent, and both are entries that are in use. -/
theorem MergeInv.child_lt {start : Arena} {k total : Nat} {m : Merge} (h : MergeInv start k total m)
    (hstart : ∀ i : NodeIx, i.toNat < k → ∃ x f, start.get i = .leaf x f) {c p : NodeIx} (hc : IsChild m.nodes c p) :
    c.toNat < p.toNat ∧ p.toNat < m.next := by
  obtain ⟨f, l, r, hp, hcl⟩ := hc
  have hk : k ≤ p.toNat := by
    by_contra hlt
    obtain ⟨x, g, hx⟩ := hstart p (by omega)
    simp [h.leaf p (by omega), hx] at hp
  have hn : p.toNat < m.next := by
    by_contra hge
    simp [h.free p (by omega)] at hp
  obtain ⟨f', l', r', hp', hl, hr, -⟩ := h.internal p hk hn
  obtain ⟨-, rfl, rfl⟩ := Node.internal.inj (hp.symm.trans hp')
  exact ⟨by rcases hcl with rfl | rfl <;> assumption, hn⟩

/-- With one node left in the queue, it is the last entry made. -/
theorem MergeInv.mem_queue_iff_last {start : Arena} {k total : Nat} {m : Merge} (h : MergeInv start k total m)
    (hstart : ∀ i : NodeIx, i.toNat < k → ∃ x f, start.get i = .leaf x f) (hone : m.queue.length = 1)
    (hle : m.next ≤ 512) {c : NodeIx} : c ∈ m.queue ↔ c.toNat + 1 = m.next := by
  obtain ⟨q, hq⟩ := List.length_eq_one_iff.1 hone
  have hlast : ∀ d : NodeIx, d.toNat + 1 = m.next → d ∈ m.queue := fun d hd =>
    (h.queued d (by omega)).2 fun p hp => by have := h.child_lt hstart hp; omega
  constructor
  · intro hc
    have hlt := h.lt c hc
    have hroot : (BitVec.ofNat 9 (m.next - 1) : NodeIx).toNat + 1 = m.next := by rw [BitVec.toNat_ofNat]; omega
    have hmem := hlast _ hroot
    rw [hq, List.mem_singleton] at hc hmem
    rwa [hc, ← hmem]
  · exact hlast c

/-- The symbols of the seeded leaves ascend with their index (R122). -/
theorem seedMerge_sym_lt (freq : FreqTable) {i j : NodeIx} (hij : i.toNat < j.toNat) (hj : j.toNat < (keysOf freq).length) :
    ((seedMerge freq).nodes.get i).sym.toNat < ((seedMerge freq).nodes.get j).sym.toNat := by
  rw [seedMerge_nodes_get, seedMerge_nodes_get, dif_pos (by omega), dif_pos hj]
  exact List.pairwise_iff_getElem.1 (keysOf_ascending freq) _ _ (by omega) hj hij

theorem seedMerge_leaf (freq : FreqTable) (i : NodeIx) (hi : i.toNat < (keysOf freq).length) :
    ∃ x f, (seedMerge freq).nodes.get i = .leaf x f :=
  ⟨_, _, by rw [seedMerge_nodes_get, dif_pos hi]⟩

/-- The tree registers name `freq`'s keys and the entries of the arena that BUILD makes of it (R30 to R32). -/
structure BuiltFrom (freq : FreqTable) (s : State) : Prop where
  node : s.node = (buildArena freq).1
  nleaves : s.k = (keysOf freq).length
  nnodes : s.nnodes.toNat = (buildArena freq).2
  root : s.root.toNat + 1 = (buildArena freq).2

/-- Two or more symbols: the arena the merge loop leaves is a tree (R41, R125). -/
theorem BuiltFrom.treeInv_of_merge {freq : FreqTable} {s : State} (hs : BuiltFrom freq s) (h2 : 2 ≤ (keysOf freq).length) :
    TreeInv s := by
  obtain ⟨hnode, hk, hnn, hroot⟩ := hs
  have hne : keysOf freq ≠ [] := List.ne_nil_of_length_pos (by omega)
  have hsize := buildArena_size freq hne
  have hle := keysOf_length_le freq
  have hinv := mergeLoop_inv freq hne
  have hleaf := seedMerge_leaf freq
  rw [if_neg (by omega)] at hsize
  rw [buildArena_of_merge (by omega)] at hnode hnn hroot hsize
  generalize mergeLoop (keysOf freq).length (seedMerge freq) = m at *
  simp only at hnode hnn hroot hsize
  have hone : m.queue.length = 1 := by have := hinv.count; omega
  have hlast : ∀ c : NodeIx, c ∈ m.queue ↔ c.toNat + 1 = m.next :=
    fun c => hinv.mem_queue_iff_last hleaf hone (by omega)
  refine
    { leaves_pos := by omega, leaves_le := by omega, nnodes_eq := by rw [if_neg (by omega)]; omega, root_eq := by omega
      leaf := fun i hi => ?_, leaf_ascending := fun i j hij hj => ?_, placeholder := fun i => ?_
      internal := fun i hi hin _ => ?_, free := fun i hi => ?_, parent := fun c hc => ?_, root_orphan := fun p c hc => ?_ }
  · rw [hnode, hinv.leaf i (by omega)]; exact hleaf i (by omega)
  · rw [hnode, hinv.leaf i (by omega), hinv.leaf j (by omega)]
    exact seedMerge_sym_lt freq hij (by omega)
  · refine iff_of_false (fun hp => ?_) (by omega)
    rw [hnode] at hp
    rcases Nat.lt_or_ge i.toNat (keysOf freq).length with hi | hi
    · obtain ⟨x, f, hx⟩ := hleaf i hi
      simp [hinv.leaf i hi, hx] at hp
    rcases Nat.lt_or_ge i.toNat m.next with hin | hin
    · obtain ⟨f, l, r, hi', -⟩ := hinv.internal i hi hin
      simp [hi'] at hp
    · simp [hinv.free i hin] at hp
  · obtain ⟨f, l, r, h1, h2, h3, h4, h5, -⟩ := hinv.internal i (by omega) (by omega)
    rw [hnode]
    exact ⟨f, l, r, h1, h2, h3, h4, h5⟩
  · rw [hnode]; exact hinv.free i (by omega)
  · rw [hnode]
    have hnq : ¬ ∀ p, ¬ IsChild m.nodes c p := fun hno => by
      have := (hlast c).1 ((hinv.queued c (by omega)).2 hno); omega
    obtain ⟨p, hp⟩ := not_forall_not.1 hnq
    exact ⟨p, hp, fun p' hp' => hinv.parent c p p' hp hp'⟩
  · rw [hnode]
    exact (hinv.queued c (by omega)).1 ((hlast c).2 (by omega)) p

/-- One symbol: the wrapper is a tree (R41, R126). -/
theorem BuiltFrom.treeInv_of_single {freq : FreqTable} {s : State} (hs : BuiltFrom freq s) (h1 : (keysOf freq).length = 1) :
    TreeInv s := by
  obtain ⟨hnode, hk, hnn, hroot⟩ := hs
  have hsize := buildArena_size freq (List.ne_nil_of_length_pos (by omega))
  rw [if_pos h1] at hsize
  have hget := buildArena_of_single freq h1
  rw [← hnode] at hget
  have hleaf : s.node.get 0#9 = .leaf (keysOf freq)[0] (widen (freq.get (keysOf freq)[0])) := hget 0#9
  have hplace : s.node.get 1#9 = .placeholder := hget 1#9
  have hroot2 : s.node.get 2#9 = .internal (widen (freq.get (keysOf freq)[0])) 0 1 := hget 2#9
  have hfree : ∀ i : NodeIx, 3 ≤ i.toNat → s.node.get i = .free := fun i hi => by
    rw [hget, if_neg (by bv_omega), if_neg (by bv_omega), if_neg (by bv_omega)]
  have hcases : ∀ i : NodeIx, i = 0#9 ∨ i = 1#9 ∨ i = 2#9 ∨ 3 ≤ i.toNat := fun i => by bv_omega
  have hchild : ∀ c p : NodeIx, IsChild s.node c p ↔ p = 2#9 ∧ (c = 0#9 ∨ c = 1#9) := fun c p => by
    unfold IsChild
    obtain rfl | rfl | rfl | hp := hcases p
    · simp [hleaf]
    · simp [hplace]
    · simp [hroot2]
    · simp only [hfree p hp, reduceCtorEq, false_and, exists_false, false_iff]
      bv_omega
  refine
    { leaves_pos := by omega, leaves_le := by omega, nnodes_eq := by rw [if_pos (by omega)]; omega, root_eq := by omega
      leaf := fun i hi => ?_, leaf_ascending := fun i j hij hj => by omega, placeholder := fun i => ?_
      internal := fun i hi hin hnp => ?_, free := fun i hi => hfree i (by omega), parent := fun c hc => ?_
      root_orphan := fun p c hc => ?_ }
  · obtain rfl : i = 0#9 := by bv_omega
    exact ⟨_, _, hleaf⟩
  · obtain rfl | rfl | rfl | hi := hcases i
    · simp [hleaf]
    · simp [hplace, hk, h1]
    · simp [hroot2]
    · simp only [hfree i hi, reduceCtorEq, false_iff]
      bv_omega
  · obtain rfl | rfl | rfl | hi3 := hcases i
    · simp [hk, h1] at hi
    · exact absurd hplace hnp
    · exact ⟨_, _, _, hroot2, by decide, by decide, by decide, by simp [hleaf, hplace, Node.freq]⟩
    · omega
  · exact ⟨2#9, (hchild c 2#9).2 ⟨rfl, by bv_omega⟩, fun p' hp' => ((hchild c p').1 hp').1⟩
  · rw [hchild]
    bv_omega

/-- BUILD establishes the tree invariants (R41). -/
theorem runBuild_treeInv {s t : State} (h : runBuild s = .ok t) : TreeInv t := by
  rcases runBuild_cases s with ⟨-, he⟩ | ⟨hne, hok⟩
  · simp [he] at h
  obtain rfl := Except.ok.inj (hok.symm.trans h)
  have hpos : 0 < (keysOf s.freq).length := List.length_pos_iff.2 hne
  have hle := keysOf_length_le s.freq
  have hsize := buildArena_size s.freq hne
  have hbounds : 1 ≤ (buildArena s.freq).2 ∧ (buildArena s.freq).2 ≤ 511 := by split at hsize <;> omega
  have hbuilt : BuiltFrom s.freq
      { s with
        node := (buildArena s.freq).1, nleaves := BitVec.ofNat 32 (keysOf s.freq).length
        nnodes := BitVec.ofNat 32 (buildArena s.freq).2, root := BitVec.ofNat 32 ((buildArena s.freq).2 - 1)
        treeValid := true } :=
    { node := rfl
      nleaves := by simp only [State.k, BitVec.toNat_ofNat]; omega
      nnodes := by simp only [BitVec.toNat_ofNat]; omega
      root := by simp only [BitVec.toNat_ofNat]; omega }
  by_cases h1 : (keysOf s.freq).length = 1
  · exact hbuilt.treeInv_of_single h1
  · exact hbuilt.treeInv_of_merge (by omega)

end Sys2Proof.Machine
end

section
/-! PROOFS. Which words and offsets reach a command, when a command stops, and how the port reads a location. -/

namespace Sys2Proof.Machine

/-! ## Words and offsets -/

/-- A word whose `RSV` is 0 is its `OPC`, zero-extended (R91). -/
theorem eq_setWidth_fieldOpc {w : Word} (h : fieldRsv w = 0) : w = (fieldOpc w).setWidth 32 := by
  have hrsv : (fieldRsv w).toNat = 0 := by rw [h]; rfl
  apply BitVec.eq_of_toNat_eq
  simp only [fieldRsv, fieldOpc, BitVec.extractLsb'_toNat, BitVec.toNat_setWidth,
    Nat.shiftRight_eq_div_pow] at hrsv ⊢
  omega

/-- A word that decodes to a command is that command's word (R91). -/
theorem decode_eq_ok {w : Word} {i : Instr} (h : decode w = .ok i) : w = encode i := by
  have hmap : ∀ row ∈ opcodeMap, row.1.setWidth 32 = encode row.2 := by decide
  unfold decode decodeOpc at h
  split at h
  · rename_i hrsv
    split at h
    · rename_i row hrow
      have hopc : row.1 = fieldOpc w := by simpa using List.find?_some hrow
      rw [eq_setWidth_fieldOpc hrsv, ← hopc, hmap row (List.mem_of_find?_eq_some hrow), Except.ok.inj h]
    · cases h
  · cases h

/-- `CMD` is the word at 0 and no other (R70). -/
theorem locate_eq_cmd {a : Nat} (h : locate a = some .cmd) : a / 4 = 0 := by
  unfold locate at h
  split at h
  · unfold controlReg at h
    split at h <;> simp_all
  · unfold codetabWord at h
    split_ifs at h <;> simp at h

/-- `CMD` is reached by the offset 0 only (R63, R70). -/
theorem decodeOffset_eq_cmd {off : Offset} (h : decodeOffset off = some .cmd) : off = 0#16 := by
  unfold decodeOffset at h
  split at h
  · rename_i hal
    have hword := locate_eq_cmd h
    rw [aligned, beq_iff_eq] at hal
    exact BitVec.eq_of_toNat_eq (by rw [BitVec.toNat_ofNat]; omega)
  · cases h

theorem decodeOffset_nodeW (i : NodeIx) (k : BitVec 2) :
    decodeOffset (BitVec.ofNat 16 (0x8000 + 16 * i.toNat + 4 * k.toNat)) = some (.nodeW i k) := by
  have hi := i.isLt
  have hk := k.isLt
  have hoff : (BitVec.ofNat 16 (0x8000 + 16 * i.toNat + 4 * k.toNat)).toNat = 0x8000 + 16 * i.toNat + 4 * k.toNat := by
    rw [BitVec.toNat_ofNat]; omega
  have hal : aligned (BitVec.ofNat 16 (0x8000 + 16 * i.toNat + 4 * k.toNat)) = true := by
    rw [aligned, hoff, beq_iff_eq]; omega
  rw [decodeOffset, if_pos hal, hoff]
  unfold locate
  repeat rw [if_neg (by omega)]
  rw [if_pos (by omega)]
  have h1 : (0x8000 + 16 * i.toNat + 4 * k.toNat - 0x8000) / 16 = i.toNat := by omega
  have h2 : (0x8000 + 16 * i.toNat + 4 * k.toNat - 0x8000) % 16 / 4 = k.toNat := by omega
  simp [h1, h2]

/-! ## Reads -/

/-- A read of a readable location without an `UNSPEC` lane answers its word and changes nothing else (R71, R72). -/
theorem step_ask_rd {s : State} {off : Offset} {l : Loc} (he : s.errcode.toNat ≤ 7) (hl : decodeOffset off = some l)
    (hr : l.readable = true) (hu : readUnspec s l = false) :
    step (s.ask (.rd off)) = .next { s with answer := some ⟨.okay, some (readLoc s l)⟩ } := by
  rw [step_ask he]
  simp only [performAccess, hostRead, hl, hr, afterDraw, hu, if_true]
  rfl

/-- The four words of an entry (R40) are read at the offsets of its base plus 0, 4, 8 and 12. -/
theorem step_ask_rd_node {s : State} (he : s.errcode.toNat ≤ 7) (i : NodeIx) (k : BitVec 2) :
    step (s.ask (.rd (BitVec.ofNat 16 (0x8000 + 16 * i.toNat + 4 * k.toNat)))) =
      .next { s with answer := some ⟨.okay, some ((s.node.get i).word k)⟩ } :=
  step_ask_rd he (decodeOffset_nodeW i k) rfl rfl

/-- A concatenation of fields as a sum, the form `omega` works in. -/
theorem toNat_append_eq_add {m n : Nat} (x : BitVec m) (y : BitVec n) : (x ++ y).toNat = x.toNat * 2 ^ n + y.toNat := by
  rw [BitVec.toNat_append, ← Nat.shiftLeft_add_eq_or_of_lt y.isLt, Nat.shiftLeft_eq]

/-- The first word of an entry: `KIND` in bits 1:0, `SYM` in bits 15:8 (R40). -/
theorem Node.word_zero_toNat (n : Node) : (n.word 0).toNat = n.kind.toNat + 256 * n.sym.toNat := by
  have : n.word 0 = 0#16 ++ n.sym ++ 0#6 ++ n.kind := rfl
  rw [this]
  simp only [toNat_append_eq_add, BitVec.toNat_ofNat]
  omega

/-- The second word of an entry: the low 32 bits of `FREQ` (R40). -/
theorem Node.word_one_toNat (n : Node) : (n.word 1).toNat = n.freq.toNat % 2 ^ 32 := by
  have : n.word 1 = n.freq.extractLsb' 0 32 := rfl
  rw [this, BitVec.extractLsb'_toNat, Nat.shiftRight_zero]

/-- The third word of an entry: the high 8 bits of `FREQ`, zero-extended (R40). -/
theorem Node.word_two_toNat (n : Node) : (n.word 2).toNat = n.freq.toNat / 2 ^ 32 := by
  have hlt := n.freq.isLt
  have : n.word 2 = 0#24 ++ n.freq.extractLsb' 32 8 := rfl
  rw [this]
  simp only [toNat_append_eq_add, BitVec.extractLsb'_toNat, BitVec.toNat_ofNat, Nat.shiftRight_eq_div_pow]
  omega

/-- The fourth word of an entry: `LEFT` in bits 8:0, `RIGHT` in bits 24:16 (R40). -/
theorem Node.word_three_toNat (n : Node) : (n.word 3).toNat = n.left.toNat + 65536 * n.right.toNat := by
  have : n.word 3 = 0#7 ++ n.right ++ 0#7 ++ n.left := rfl
  rw [this]
  simp only [toNat_append_eq_add, BitVec.toNat_ofNat]
  omega

/-- Bits 0 and 1 of `STATUS` are its two flags, the others are 0 (R25). -/
theorem getLsbD_status (s : State) (j : Nat) :
    s.status.getLsbD j = if j = 0 then s.err else if j = 1 then s.treeValid else false := by
  simp only [State.status, State.busy, BitVec.getLsbD_append, BitVec.getLsbD_ofBool, BitVec.getLsbD_zero]
  match j with
  | 0 => simp
  | 1 => simp
  | j + 2 => simp

/-! ## Unspecified input -/

theorem exec_count_of_unspec {s : State} (h : s.errcode = 0) (hm : s.message = none) :
    exec .count s = .refused .unspecInput := by
  simp only [exec, execCount, whenClear_clear h, hm]

theorem exec_pack_of_unspec {s : State} (h : s.errcode = 0) (hm : s.message = none) :
    exec .pack s = .refused .unspecInput := by
  simp only [exec, execPack, whenClear_clear h, hm]

theorem exec_encode_of_unspec {s : State} (h : s.errcode = 0) (hm : s.message = none) :
    exec .encode s = .refused .unspecInput := by
  simp only [exec, execEncode, whenClear_clear h, hm]

theorem exec_decode_of_unspec {s : State} (h : s.errcode = 0) (hs : s.stream = none) :
    exec .decode s = .refused .unspecInput := by
  simp only [exec, execDecode, whenClear_clear h, hs]

/-- An operation command with an error pending is ignored (R205). -/
theorem exec_of_pending {s : State} {i : Instr} (h : s.errcode ≠ 0) (hi : i.isSystem = false) : exec i s = .next s := by
  cases i with
  | nop | clrerr | sreset => cases hi
  | count => exact exec_count_next.2 (.inl ⟨h, rfl⟩)
  | build => exact exec_build_next.2 (.inl ⟨h, rfl⟩)
  | generate => exact exec_generate_next.2 (.inl ⟨h, rfl⟩)
  | pack => exact exec_pack_next.2 (.inl ⟨h, rfl⟩)
  | encode => exact exec_encode_next.2 (.inl ⟨h, rfl⟩)
  | decode => exact exec_decode_next.2 (.inl ⟨h, rfl⟩)

/-- ENCODE of a specified message completes: the tree of its BUILD can be traversed (R156, R211). -/
theorem exec_encode_completes {s : State} {msg : List Byte} (h : s.errcode = 0) (hm : s.message = some msg) :
    ∃ t, exec .encode s = .next t := by
  have hmsg := message_eq_some.1 hm
  cases hb : runBuild (runCount msg s) with
  | error u => exact ⟨_, exec_encode_next.2 (.inr ⟨h, msg, hmsg, .inl ⟨u, hb, rfl⟩⟩)⟩
  | ok u =>
    obtain ⟨codes, hc⟩ := (runBuild_treeInv hb).leafCodes_some
    exact ⟨_, exec_encode_next.2 (.inr ⟨h, msg, hmsg, .inr ⟨u, codes, hb, hc, rfl⟩⟩)⟩

/-- A command whose input is unspecified: one that reads the message, or DECODE, of a range with an `UNSPEC` byte (R45). -/
def UnspecInput (i : Instr) (s : State) : Prop :=
  (i ∈ [.count, .pack, .encode] ∧ s.message = none) ∨ (i = .decode ∧ s.stream = none)

/-- A command completes unless its input is unspecified, when no error keeps it from running; it never faults where a valid
tree can be traversed (R45, R211). -/
theorem exec_completes_or_refused (i : Instr) {s : State}
    (htree : s.treeValid = true → ∃ codes, s.leafCodes = some codes) :
    (∃ t, exec i s = .next t) ∨ (exec i s = .refused .unspecInput ∧ s.errcode = 0 ∧ UnspecInput i s) := by
  by_cases hsys : i.isSystem = true
  · left
    cases i with
    | nop => exact ⟨_, exec_nop s⟩
    | clrerr => exact ⟨_, exec_clrerr s⟩
    | sreset => exact ⟨_, exec_sreset s⟩
    | _ => cases hsys
  by_cases he : s.errcode = 0
  swap
  · exact .inl ⟨s, exec_of_pending he (by simpa using hsys)⟩
  cases i with
  | nop | clrerr | sreset => exact absurd rfl hsys
  | count =>
    cases hm : s.message with
    | none => exact .inr ⟨exec_count_of_unspec he hm, he, .inl ⟨by decide, hm⟩⟩
    | some msg => exact .inl ⟨_, exec_count_of he (message_eq_some.1 hm)⟩
  | build => exact .inl ⟨_, exec_build_of he⟩
  | generate =>
    left
    cases hv : s.treeValid with
    | false => exact ⟨_, exec_generate_next.2 (.inr (.inl ⟨he, hv, rfl⟩))⟩
    | true =>
      obtain ⟨codes, hc⟩ := htree hv
      exact ⟨_, exec_generate_of he hv hc⟩
  | pack =>
    cases hm : s.message with
    | none => exact .inr ⟨exec_pack_of_unspec he hm, he, .inl ⟨by decide, hm⟩⟩
    | some msg => exact .inl ⟨_, exec_pack_of he (message_eq_some.1 hm)⟩
  | encode =>
    cases hm : s.message with
    | none => exact .inr ⟨exec_encode_of_unspec he hm, he, .inl ⟨by decide, hm⟩⟩
    | some msg => exact .inl (exec_encode_completes he hm)
  | decode =>
    cases hs : s.stream with
    | none => exact .inr ⟨exec_decode_of_unspec he hs, he, .inr ⟨rfl, hs⟩⟩
    | some bits => exact .inl ⟨_, exec_decode_of he (stream_eq_some.1 hs)⟩

/-- A write completes unless it is a `CMD` write of a command whose input is unspecified (R61). -/
theorem hostWrite_completes_or_refused (off : Offset) (v : Word) {s : State}
    (htree : s.treeValid = true → ∃ codes, s.leafCodes = some codes) :
    (∃ t, hostWrite off v s = .next t) ∨
    ∃ i, off = 0#16 ∧ v = encode i ∧ hostWrite off v s = .refused .unspecInput ∧ s.errcode = 0 ∧ UnspecInput i s := by
  unfold hostWrite
  cases hl : decodeOffset off with
  | none => exact .inl ⟨_, rfl⟩
  | some l =>
    by_cases hcmd : l = .cmd
    · subst hcmd
      simp only [if_true]
      cases hd : decode v with
      | error e => exact .inl ⟨_, writeCommand_next.2 (.inl ⟨⟨e, hd⟩, rfl⟩)⟩
      | ok i =>
        rcases exec_completes_or_refused i htree with ⟨t, ht⟩ | ⟨hr, he, hu⟩
        · exact .inl ⟨_, writeCommand_next.2 (.inr ⟨i, t, hd, ht, rfl⟩)⟩
        · exact .inr ⟨i, decodeOffset_eq_cmd hl, decode_eq_ok hd, by simp only [writeCommand, hd, hr, mapNext], he, hu⟩
    · simp only [hcmd, if_false]
      split
      · exact .inl ⟨_, rfl⟩
      · exact .inl ⟨_, rfl⟩

/-! ## What can change a component of the state -/

/-- A component of the state that the host port itself leaves alone: its answers, its counters, its stores and an illegal
command word keep it. Only a command or the reset input can change it. -/
structure PortKeeps {β : Type} (f : State → β) : Prop where
  pending : ∀ s p, f { s with pending := p } = f s
  read : ∀ s a d, f { s with answer := some a, draws := d } = f s
  answered : ∀ s a, f (State.answered s a) = f s
  stored : ∀ s l v, f (writeLoc s l v) = f s
  raised : ∀ s e x, f (raise e x s) = f s

/-- A step that changes such a component is a reset, or a `CMD` write of a command that changes it (R24, R73). -/
theorem PortKeeps.step_changes {β : Type} {f : State → β} (hf : PortKeeps f) {s t : State} (h : step s = .next t)
    (hne : f t ≠ f s) :
    ∃ rest, s.pending = .rst :: rest ∨
      ∃ i u v, s.pending = .access (.wr 0#16 (encode i)) :: rest ∧ exec i u = .next v ∧ f v ≠ f u := by
  rcases step_next h with ⟨-, rfl⟩ | ⟨rest, hp, -⟩ | ⟨off, rest, hp, -, rfl⟩ | ⟨off, w, rest, hp, -, hw⟩
  · exact absurd rfl hne
  · exact ⟨rest, .inl hp⟩
  · obtain ⟨a, d, hr, -⟩ := hostRead_frame off { s with pending := rest }
    rw [hr, hf.read, hf.pending] at hne
    exact absurd rfl hne
  · rcases hostWrite_next hw with rfl | ⟨hoff, hc⟩ | ⟨l, -, -, -, -, rfl⟩
    · rw [hf.answered, hf.pending] at hne
      exact absurd rfl hne
    · rcases writeCommand_next.1 hc with ⟨-, rfl⟩ | ⟨i, u, hd, hx, rfl⟩
      · rw [hf.answered, badCommand] at hne
        split at hne
        · rw [hf.raised, hf.pending] at hne
          exact absurd rfl hne
        · rw [hf.pending] at hne
          exact absurd rfl hne
      · rw [hf.answered, ← hf.pending s rest] at hne
        refine ⟨rest, .inr ⟨i, _, u, ?_, hx, hne⟩⟩
        rw [hp, decodeOffset_eq_cmd hoff, decode_eq_ok hd]
    · rw [hf.answered, hf.stored, hf.pending] at hne
      exact absurd rfl hne

/-- The tree and its registers (R25, R30 to R32, R39). -/
def State.treeRegs (s : State) : Arena × Bool × Word × Word × Word :=
  (s.node, s.treeValid, s.nleaves, s.nnodes, s.root)

theorem portKeeps_treeRegs : PortKeeps State.treeRegs where
  pending _ _ := rfl
  read _ _ _ := rfl
  answered _ _ := rfl
  stored _ l _ := by cases l <;> rfl
  raised _ _ _ := rfl

theorem portKeeps_maxlen : PortKeeps State.maxlen where
  pending _ _ := rfl
  read _ _ _ := rfl
  answered _ _ := rfl
  stored _ l _ := by cases l <;> rfl
  raised _ _ _ := rfl

theorem runPack_treeRegs (msg : List Byte) (s : State) : (runPack msg s).state.treeRegs = s.treeRegs := by
  rcases runPack_cases msg s with ⟨out, -, h⟩ | ⟨e, i, -, h⟩
  · rw [h]; rfl
  · rw [h]; rfl

theorem runPack_maxlen (msg : List Byte) (s : State) : (runPack msg s).state.maxlen = s.maxlen := by
  rcases runPack_cases msg s with ⟨out, -, h⟩ | ⟨e, i, -, h⟩
  · rw [h]; rfl
  · rw [h]; rfl

theorem runBuild_maxlen (s : State) : (runBuild s).state.maxlen = s.maxlen := by
  rcases runBuild_cases s with ⟨-, h⟩ | ⟨-, h⟩
  · rw [h]; rfl
  · rw [h]; rfl

theorem runDecode_treeRegs (bits : List Bool) (s : State) : (runDecode bits s).state.treeRegs = s.treeRegs := by
  rcases runDecode_cases bits s with ⟨out, -, h⟩ | ⟨e, x, -, h⟩
  · rw [h]; rfl
  · rw [h]; rfl

/-- Only SRESET, BUILD and ENCODE change the tree or its registers (R39). -/
theorem exec_changes_treeRegs {i : Instr} {s t : State} (h : exec i s = .next t) (hne : t.treeRegs ≠ s.treeRegs) :
    i ∈ [Instr.sreset, .build, .encode] := by
  cases i with
  | sreset | build | encode => decide
  | nop => rw [exec_nop] at h; cases h; exact absurd rfl hne
  | clrerr => rw [exec_clrerr] at h; cases h; exact absurd rfl hne
  | count => rcases exec_count_next.1 h with ⟨-, rfl⟩ | ⟨-, msg, -, rfl⟩ <;> exact absurd rfl hne
  | generate =>
    rcases exec_generate_next.1 h with ⟨-, rfl⟩ | ⟨-, -, rfl⟩ | ⟨-, -, codes, -, rfl⟩ <;> exact absurd rfl hne
  | pack =>
    rcases exec_pack_next.1 h with ⟨-, rfl⟩ | ⟨-, msg, -, rfl⟩
    · exact absurd rfl hne
    · exact absurd (runPack_treeRegs msg s) hne
  | decode =>
    rcases exec_decode_next.1 h with ⟨-, rfl⟩ | ⟨-, bits, -, rfl⟩
    · exact absurd rfl hne
    · exact absurd (runDecode_treeRegs bits s) hne

/-- Only SRESET, GENERATE, ENCODE and DECODE change `MAXLEN` (R33). -/
theorem exec_changes_maxlen {i : Instr} {s t : State} (h : exec i s = .next t) (hne : t.maxlen ≠ s.maxlen) :
    i ∈ [Instr.sreset, .generate, .encode, .decode] := by
  cases i with
  | sreset | generate | encode | decode => decide
  | nop => rw [exec_nop] at h; cases h; exact absurd rfl hne
  | clrerr => rw [exec_clrerr] at h; cases h; exact absurd rfl hne
  | count => rcases exec_count_next.1 h with ⟨-, rfl⟩ | ⟨-, msg, -, rfl⟩ <;> exact absurd rfl hne
  | build =>
    rcases exec_build_next.1 h with ⟨-, rfl⟩ | ⟨-, rfl⟩
    · exact absurd rfl hne
    · exact absurd (runBuild_maxlen s) hne
  | pack =>
    rcases exec_pack_next.1 h with ⟨-, rfl⟩ | ⟨-, msg, -, rfl⟩
    · exact absurd rfl hne
    · exact absurd (runPack_maxlen msg s) hne

end Sys2Proof.Machine
end

section
/-! PROOFS. The statements about the state (spec/10_state.md), settled. -/

open Sys2Proof Sys2Proof.Machine

/-- Settles O52: GENERATE cannot fault on the tree the invariant gives, nor ENCODE on the one its BUILD makes (R211); what is
left is a command that `UnspecInput` names. -/
theorem stepsStopOnlyOnUnspecifiedInput : Obligations.StepsStopOnlyOnUnspecifiedInput := by
  unfold Obligations.StepsStopOnlyOnUnspecifiedInput
  intro s hinv
  have he := hinv.errcode_legal
  match hp : s.pending with
  | [] => exact .inl ⟨s, by simp only [step, stepEvent, hp]⟩
  | .rst :: rest => exact .inl ⟨_, by simp only [step, stepEvent, hp]; rfl⟩
  | .access a :: rest =>
    have hstep : step s = performAccess a { s with pending := rest } := by
      simp only [step, stepEvent, hp, performEvent, if_neg (Nat.not_lt.2 he)]
    rw [hstep]
    cases a with
    | rd off => exact .inl ⟨_, rfl⟩
    | wr off v =>
      rcases hostWrite_completes_or_refused off v (s := { s with pending := rest }) fun h => (hinv.tree h).leafCodes_some with
        ht | ⟨i, rfl, rfl, hr, hclear, hu⟩
      · exact .inl ht
      · refine .inr ⟨hr, hclear, encode i, rest, rfl, ?_⟩
        rcases hu with ⟨hi, hm⟩ | ⟨rfl, hs⟩
        · refine .inl ⟨?_, message_eq_none.1 hm⟩
          have hwords : ∀ c ∈ [Instr.count, .pack, .encode], encode c ∈ [0x10#32, 0x13#32, 0x14#32] := by decide
          exact hwords i hi
        · exact .inr ⟨rfl, stream_eq_none.1 hs⟩

/-- Settles O9: bit by bit. -/
theorem statusReadsItsFlags : Obligations.StatusReadsItsFlags := by
  unfold Obligations.StatusReadsItsFlags
  intro s he
  refine ⟨s.status, step_ask_rd (l := .status) he rfl rfl rfl, ?_, ?_, fun j hj => ?_⟩
  · rw [getLsbD_status, if_pos rfl, State.err, bne_iff_ne]
  · rw [getLsbD_status, if_neg Nat.one_ne_zero, if_pos rfl]
  · rw [getLsbD_status, if_neg (by omega), if_neg (by omega)]

/-- Settles O12: the four words of `Node.word`, read at their offsets, with the fields of each kind. -/
theorem nodeWordsHaveTheLayout : Obligations.NodeWordsHaveTheLayout := by
  unfold Obligations.NodeWordsHaveTheLayout
  intro s i he
  refine ⟨(s.node.get i).word 0, (s.node.get i).word 1, (s.node.get i).word 2, (s.node.get i).word 3, ?_, ?_⟩
  · simp only [List.forall_mem_cons, List.not_mem_nil, false_imp_iff, implies_true, and_true]
    exact ⟨step_ask_rd_node he i 0, step_ask_rd_node he i 1, step_ask_rd_node he i 2, step_ask_rd_node he i 3⟩
  · simp only [Node.word_zero_toNat, Node.word_one_toNat, Node.word_two_toNat, Node.word_three_toNat]
    cases s.node.get i with
    | free | leaf x f | internal f l r | placeholder => simp [Node.kind, Node.sym, Node.freq, Node.left, Node.right]

/-- Settles O27: BUILD takes its second branch, and its arena has the size of R31. -/
theorem buildCompletes : Obligations.BuildCompletes := by
  unfold Obligations.BuildCompletes
  rintro s he ⟨x, hx⟩
  have hne : keysOf s.freq ≠ [] := fun h => hx (keysOf_eq_nil.1 h x)
  rcases runBuild_cases s with ⟨hnil, -⟩ | ⟨-, hok⟩
  · exact absurd hnil hne
  · exact ⟨_, _, buildArena_size s.freq hne, by rw [exec_build_of he, hok]; rfl⟩

/-- Settles O53: such an input is no message, or no stream. -/
theorem unspecifiedInputIsRefused : Obligations.UnspecifiedInputIsRefused := by
  unfold Obligations.UnspecifiedInputIsRefused
  intro s he
  constructor
  · intro hbyte
    have hm := message_eq_none.2 hbyte
    exact ⟨exec_count_of_unspec he hm, exec_pack_of_unspec he hm, exec_encode_of_unspec he hm⟩
  · intro hbyte
    exact exec_decode_of_unspec he (stream_eq_none.2 hbyte)

/-- Settles O54: the port keeps the tree and its registers, and of the commands only three change them. -/
theorem onlyBuildersWriteTheTree : Obligations.OnlyBuildersWriteTheTree := by
  unfold Obligations.OnlyBuildersWriteTheTree
  intro s t hstep hdiff
  have hne : t.treeRegs ≠ s.treeRegs := fun h => by
    simp only [State.treeRegs, Prod.mk.injEq] at h
    tauto
  obtain ⟨rest, hp | ⟨i, u, v, hp, hx, hch⟩⟩ := portKeeps_treeRegs.step_changes hstep hne
  · exact ⟨rest, .inl hp⟩
  · have hwords : ∀ c ∈ [Instr.sreset, .build, .encode], encode c ∈ [0x02#32, 0x11#32, 0x14#32] := by decide
    exact ⟨rest, .inr ⟨encode i, hwords i (exec_changes_treeRegs hx hch), hp⟩⟩

/-- Settles O55: the port keeps `MAXLEN`, and of the commands only four change it. -/
theorem onlyTableCommandsWriteMaxlen : Obligations.OnlyTableCommandsWriteMaxlen := by
  unfold Obligations.OnlyTableCommandsWriteMaxlen
  intro s t hstep hne
  obtain ⟨rest, hp | ⟨i, u, v, hp, hx, hch⟩⟩ := portKeeps_maxlen.step_changes hstep hne
  · exact ⟨rest, .inl hp⟩
  · have hwords : ∀ c ∈ [Instr.sreset, .generate, .encode, .decode],
        encode c ∈ [0x02#32, 0x12#32, 0x14#32, 0x20#32] := by decide
    exact ⟨rest, .inr ⟨encode i, hwords i (exec_changes_maxlen hx hch), hp⟩⟩

/-- Settles O21: every register by evaluation, every table as one filled with its reset entry. -/
theorem resetValues : Obligations.ResetValues := by
  unfold Obligations.ResetValues
  refine ⟨rfl, rfl, rfl, rfl, rfl, rfl, rfl, rfl, rfl, rfl, rfl, rfl, fun x => ?_, fun i => ?_, fun x => ?_, fun a => ?_⟩
  · exact Table.get_fill 0 x
  · exact Table.get_fill Node.free i
  · have hentry : State.reset.codetab.get x = CodeEntry.empty := Table.get_fill _ x
    rw [hentry]
    exact ⟨rfl, fun q => Table.get_fill 0 q⟩
  · exact ⟨Memory.read_nil a, Memory.read_nil a⟩
end

section
/-! PROOFS. The address map (spec/20_memory.md section 2): where each location stands, which offsets have one, and which
accesses the port accepts. -/

namespace Sys2Proof.Machine

/-! ## From a location to its offset and back -/

theorem locate_codetabWord (x : Byte) {k : Nat} (hk : k < 16) :
    locate (0x4000 + 64 * x.toNat + 4 * k) = codetabWord x k := by
  have hx := x.isLt
  have hentry : (0x4000 + 64 * x.toNat + 4 * k - 0x4000) / 64 = x.toNat := by omega
  have hword : (0x4000 + 64 * x.toNat + 4 * k - 0x4000) % 64 / 4 = k := by omega
  unfold locate
  repeat rw [if_neg (by omega)]
  rw [if_pos (by omega), hentry, hword, BitVec.ofNat_toNat, BitVec.setWidth_eq]

theorem codetabWord_succ (x : Byte) (q : BitVec 3) : codetabWord x (q.toNat + 1) = some (.cw x q) := by
  have hq := q.isLt
  rw [codetabWord, if_neg (by omega), if_pos (by omega), Nat.add_sub_cancel, BitVec.ofNat_toNat, BitVec.setWidth_eq]

/-- The window's last mapped word ends at `0xA000`. -/
theorem byteOffset_lt (l : Loc) : l.byteOffset < 0xA000 := by
  cases l with
  | freq x | symbufW x | bitbufW x | lenw x => have := x.isLt; simp only [Loc.byteOffset]; omega
  | cw x q | nodeW x q => have := x.isLt; have := q.isLt; simp only [Loc.byteOffset]; omega
  | _ => decide

theorem byteOffset_mod_four (l : Loc) : l.byteOffset % 4 = 0 := by
  cases l with
  | freq x | symbufW x | bitbufW x | lenw x | cw x q | nodeW x q => simp only [Loc.byteOffset]; omega
  | _ => rfl

theorem toNat_offset (l : Loc) : l.offset.toNat = l.byteOffset := by
  have := byteOffset_lt l
  rw [Loc.offset, BitVec.toNat_ofNat, Nat.mod_eq_of_lt (by omega)]

theorem decodeOffset_offset_of_locate {l : Loc} (h : locate l.byteOffset = some l) : decodeOffset l.offset = some l := by
  have hal : aligned l.offset = true := by rw [aligned, toNat_offset, byteOffset_mod_four]; rfl
  rw [decodeOffset, if_pos hal, toNat_offset, h]

/-- Each location is decoded from its own offset (R70, R38, R40). -/
theorem decodeOffset_offset (l : Loc) : decodeOffset l.offset = some l := by
  cases l with
  | freq x | symbufW x | bitbufW x =>
    have hx := x.isLt
    refine decodeOffset_offset_of_locate ?_
    rw [Loc.byteOffset]
    unfold locate
    repeat rw [if_neg (by omega)]
    rw [if_pos (by omega), Nat.add_sub_cancel_left, Nat.mul_div_cancel_left _ (by decide), BitVec.ofNat_toNat,
      BitVec.setWidth_eq]
  | lenw x => exact decodeOffset_offset_of_locate (locate_codetabWord x (k := 0) (by decide))
  | cw x q =>
    have hq := q.isLt
    refine decodeOffset_offset_of_locate ?_
    rw [Loc.byteOffset, Nat.add_assoc, Nat.add_comm 4, ← Nat.mul_succ, locate_codetabWord x (by omega), codetabWord_succ]
  | nodeW i k => exact decodeOffset_nodeW i k
  | _ => rfl

theorem byteOffset_of_controlReg {n : Nat} {l : Loc} (h : controlReg n = some l) : l.byteOffset = 4 * n := by
  unfold controlReg at h
  split at h <;> cases h <;> rfl

theorem byteOffset_of_codetabWord {x : Byte} {k : Nat} {l : Loc} (h : codetabWord x k = some l) :
    l.byteOffset = 0x4000 + 64 * x.toNat + 4 * k := by
  unfold codetabWord at h
  split_ifs at h <;> cases h <;> simp only [Loc.byteOffset, BitVec.toNat_ofNat] <;> omega

/-- An aligned offset that has a location is the location's own: region by region, the quotient that indexes it is exact. -/
theorem eq_byteOffset_of_locate {a : Nat} {l : Loc} (hal : a % 4 = 0) (h : locate a = some l) : a = l.byteOffset := by
  unfold locate at h
  split_ifs at h
  · rw [byteOffset_of_controlReg h]; omega
  · cases h; simp only [Loc.byteOffset, BitVec.toNat_ofNat]; omega
  · cases h; simp only [Loc.byteOffset, BitVec.toNat_ofNat]; omega
  · cases h; simp only [Loc.byteOffset, BitVec.toNat_ofNat]; omega
  · rw [byteOffset_of_codetabWord h, BitVec.toNat_ofNat]; omega
  · cases h; simp only [Loc.byteOffset, BitVec.toNat_ofNat]; omega

/-- An offset that decodes to a location is that location's offset (R63, R70). -/
theorem toNat_eq_byteOffset {off : Offset} {l : Loc} (h : decodeOffset off = some l) : off.toNat = l.byteOffset := by
  unfold decodeOffset at h
  split at h
  · rename_i hal
    exact eq_byteOffset_of_locate (beq_iff_eq.1 hal) h
  · cases h

/-! ## The gaps of the map -/

theorem controlReg_eq_none {n : Nat} : controlReg n = none ↔ 12 ≤ n := by
  match n with
  | 0 | 1 | 2 | 3 | 4 | 5 | 6 | 7 | 8 | 9 | 10 | 11 => simp [controlReg]
  | n + 12 => simp [controlReg]

theorem codetabWord_eq_none {x : Byte} {k : Nat} : codetabWord x k = none ↔ 9 ≤ k := by
  unfold codetabWord
  split_ifs <;> simp <;> omega

/-- The gaps of the map at an aligned offset, region by region. -/
theorem locate_eq_none {a : Nat} (hal : a % 4 = 0) : locate a = none ↔
    (0x0030 ≤ a ∧ a < 0x0400) ∨ (0x0800 ≤ a ∧ a < 0x1000) ∨ (0x3000 ≤ a ∧ a < 0x4000) ∨
      (0x4000 ≤ a ∧ a < 0x8000 ∧ 0x24 ≤ a % 64) ∨ 0xA000 ≤ a := by
  unfold locate
  split_ifs <;> simp only [controlReg_eq_none, codetabWord_eq_none, true_iff, false_iff] <;> omega

theorem decodeOffset_eq_none (off : Offset) : decodeOffset off = none ↔ Unmapped off := by
  have haligned : aligned off = true ↔ off.toNat % 4 = 0 := beq_iff_eq
  unfold decodeOffset Unmapped
  by_cases hal : off.toNat % 4 = 0
  · rw [if_pos (haligned.2 hal), locate_eq_none hal]
    simp only [hal, ne_eq, not_true_eq_false, false_or]
  · rw [if_neg (mt haligned.1 hal)]
    simp only [hal, ne_eq, not_false_eq_true, true_or]

theorem not_unmapped {off : Offset} {l : Loc} (h : decodeOffset off = some l) : ¬ Unmapped off := by
  rw [← decodeOffset_eq_none, h]
  exact Option.some_ne_none l

theorem exists_location {off : Offset} (h : ¬ Unmapped off) : ∃ l, decodeOffset off = some l := by
  rwa [← decodeOffset_eq_none, ← ne_eq, Option.ne_none_iff_exists'] at h

/-! ## What the port accepts -/

theorem legalValue_symlen (v : Word) : Loc.symlen.legalValue v = true ↔ v.toNat ≤ 4096 := decide_eq_true_iff

theorem legalValue_bitlen (v : Word) : Loc.bitlen.legalValue v = true ↔ v.toNat ≤ 32768 := decide_eq_true_iff

theorem legalValue_lenw (x : Byte) (v : Word) : (Loc.lenw x).legalValue v = true ↔ v.toNat < 256 := by
  have hv := v.isLt
  have hhigh : (v.extractLsb' 8 24).toNat = v.toNat / 256 := by
    rw [BitVec.extractLsb'_toNat, Nat.shiftRight_eq_div_pow]; omega
  rw [Loc.legalValue, beq_iff_eq, ← BitVec.toNat_inj, hhigh]
  show v.toNat / 256 = 0 ↔ _
  omega

/-- A read of a mapped offset is refused exactly when the location is not readable (R64). -/
theorem refusedRead_iff {off : Offset} {l : Loc} (h : decodeOffset off = some l) : RefusedRead off ↔ l.readable = false := by
  rw [RefusedRead, or_iff_right (not_unmapped h), toNat_eq_byteOffset h]
  cases l <;> simp [Loc.byteOffset, Loc.readable]

/-- A write to a mapped offset is refused exactly when the location is read-only or the value is not one of its own (R64, R65). -/
theorem refusedWrite_iff {off : Offset} {l : Loc} (h : decodeOffset off = some l) (v : Word) :
    RefusedWrite off v ↔ ¬ (l.writable = true ∧ l.legalValue v = true) := by
  rw [RefusedWrite, or_iff_right (not_unmapped h), toNat_eq_byteOffset h]
  cases l with
  | freq x | symbufW x | bitbufW x =>
    have := x.isLt
    simp only [Loc.byteOffset, Loc.writable, Loc.legalValue, and_self, not_true_eq_false, iff_false]
    omega
  | lenw x =>
    have := x.isLt
    simp only [Loc.byteOffset, Loc.writable, legalValue_lenw, true_and]
    omega
  | cw x q =>
    have := x.isLt
    have := q.isLt
    simp only [Loc.byteOffset, Loc.writable, Loc.legalValue, and_self, not_true_eq_false, iff_false]
    omega
  | nodeW i k =>
    have := i.isLt
    have := k.isLt
    simp only [Loc.byteOffset, Loc.writable, Bool.false_eq_true, false_and, not_false_eq_true, iff_true]
    omega
  | symlen | bitlen =>
    simp only [Loc.byteOffset, Loc.writable, legalValue_symlen, legalValue_bitlen, true_and]
    omega
  | _ => simp [Loc.byteOffset, Loc.writable, Loc.legalValue]

/-! ## The answers of the port -/

/-- A read of any readable location: its word, `OKAY`, and at most the counter of free values moved (R71, R72; log entry 3). -/
theorem step_ask_rd_drawn {s : State} {off : Offset} {l : Loc} (he : s.errcode.toNat ≤ 7) (hl : decodeOffset off = some l)
    (hr : l.readable = true) :
    step (s.ask (.rd off)) =
      .next { s with answer := some ⟨.okay, some (readLoc s l)⟩, draws := (afterDraw s l).draws } := by
  rw [step_ask he]
  simp only [performAccess, hostRead, hl, hr, if_true, afterDraw]
  split <;> rfl

/-- A read at a location's own offset. -/
theorem step_ask_rd_loc {s : State} (he : s.errcode.toNat ≤ 7) (l : Loc) (hr : l.readable = true)
    (hu : readUnspec s l = false) :
    step (s.ask (.rd l.offset)) = .next { s with answer := some ⟨.okay, some (readLoc s l)⟩ } :=
  step_ask_rd he (decodeOffset_offset l) hr hu

/-- An accepted write to a location other than `CMD` stores its word there and is answered `OKAY` (R65, R73). -/
theorem step_ask_wr {s : State} {off : Offset} {l : Loc} {v : Word} (he : s.errcode.toNat ≤ 7)
    (hl : decodeOffset off = some l) (hc : l ≠ .cmd) (hw : l.writable = true) (hv : l.legalValue v = true) :
    step (s.ask (.wr off v)) = .next { writeLoc s l v with answer := some ⟨.okay, none⟩ } := by
  rw [step_ask he]
  simp only [performAccess, hostWrite, hl, if_neg hc, hw, hv, Bool.and_self, if_true]
  rfl

/-- A legal write at a location's own offset. -/
theorem step_ask_wr_loc {s : State} {v : Word} (he : s.errcode.toNat ≤ 7) (l : Loc) (hc : l ≠ .cmd)
    (hw : l.writable = true) (hv : l.legalValue v = true) :
    step (s.ask (.wr l.offset v)) = .next { writeLoc s l v with answer := some ⟨.okay, none⟩ } :=
  step_ask_wr he (decodeOffset_offset l) hc hw hv

/-- A write to `CMD` that completes is answered `OKAY`, whatever the word and the command's outcome (R65, R203). -/
theorem writeCommand_answer {s t : State} {w : Word} (h : writeCommand w s = .next t) : t.answer = some Answer.written := by
  rcases writeCommand_next.1 h with ⟨-, rfl⟩ | ⟨i, u, -, -, rfl⟩
  · exact answered_answer _ _
  · exact answered_answer _ _

/-! ## The entries of the code table -/

theorem codetab_writeLoc_lenw (s : State) (x : Byte) (v : Word) :
    (writeLoc s (.lenw x) v).codetab.get x = (s.codetab.get x).setLen v :=
  Table.get_set_self _ _ _

theorem codetab_writeLoc_cw (s : State) (x : Byte) (q : BitVec 3) (v : Word) :
    (writeLoc s (.cw x q) v).codetab.get x = (s.codetab.get x).setWord q v :=
  Table.get_set_self _ _ _

/-- A legal `LENW` value is stored whole (R65, R73). -/
theorem toNat_setLen {e : CodeEntry} {v : Word} (h : v.toNat < 256) : (e.setLen v).len.toNat = v.toNat := by
  rw [CodeEntry.setLen, BitVec.extractLsb'_toNat, Nat.shiftRight_zero, Nat.mod_eq_of_lt h]

/-! ## The words of the buffers -/

/-- Lane `q` of a buffer word is its bits `8q+7 : 8q` (R66). -/
theorem extractLsb'_bufferWord (m : Memory) (a draws : Nat) {q : Nat} (hq : q < 4) :
    (bufferWord m a draws).extractLsb' (8 * q) 8 = lane m (a + q) (draws + q) := by
  have h0 := (lane m a draws).isLt
  have h1 := (lane m (a + 1) (draws + 1)).isLt
  have h2 := (lane m (a + 2) (draws + 2)).isLt
  have h3 := (lane m (a + 3) (draws + 3)).isLt
  apply BitVec.eq_of_toNat_eq
  simp only [bufferWord, BitVec.extractLsb'_toNat, toNat_append_eq_add, Nat.shiftRight_eq_div_pow]
  match q, hq with
  | 0, _ => simp only [Nat.add_zero]; omega
  | 1, _ => omega
  | 2, _ => omega
  | 3, _ => omega

theorem lane_of_read {m : Memory} {a draw : Nat} {b : Byte} (h : m.read a = some b) : lane m a draw = b := by
  rw [lane, h, Option.getD_some]

theorem bufferUnspec_eq_false {m : Memory} {a : Nat} (h : ∀ q, q < 4 → m.read (a + q) ≠ none) : bufferUnspec m a = false := by
  simp only [bufferUnspec, Bool.or_eq_false_iff, Option.isNone_eq_false_iff, Option.isSome_iff_ne_none]
  exact ⟨⟨⟨h 0 (by decide), h 1 (by decide)⟩, h 2 (by decide)⟩, h 3 (by decide)⟩

theorem afterDraw_of_specified {s : State} {l : Loc} (h : readUnspec s l = false) : afterDraw s l = s := by
  rw [afterDraw, h]
  rfl

/-- A read of a location that is the buffer word of `m` at `a`: its specified lanes, and the counter of free values. -/
theorem step_ask_rd_buffer {s : State} {m : Memory} {a : Nat} (he : s.errcode.toNat ≤ 7) (l : Loc) (hr : l.readable = true)
    (hword : readLoc s l = bufferWord m a s.draws) (hunspec : readUnspec s l = bufferUnspec m a) :
    ∃ (w : Word) (d : Nat), step (s.ask (.rd l.offset)) = .next { s with answer := some ⟨.okay, some w⟩, draws := d } ∧
      (∀ q b, q < 4 → m.read (a + q) = some b → w.extractLsb' (8 * q) 8 = b) ∧
      ((∀ q, q < 4 → m.read (a + q) ≠ none) → d = s.draws) := by
  refine ⟨_, _, step_ask_rd_drawn he (decodeOffset_offset l) hr, fun q b hq hb => ?_, fun hspec => ?_⟩
  · rw [hword, extractLsb'_bufferWord m a s.draws hq, lane_of_read hb]
  · rw [afterDraw_of_specified (by rw [hunspec, bufferUnspec_eq_false hspec])]

/-- A written word's bytes inside it. -/
theorem read_writeWord (m : Memory) (a : Nat) (v : Word) {q : Nat} (hq : q < 4) :
    (m.writeBytes a (wordBytes v)).read (a + q) = some (v.extractLsb' (8 * q) 8) := by
  rw [Memory.read_writeBytes, dif_pos (by rw [wordBytes_length]; omega), wordBytes_getElem, Nat.add_sub_cancel_left]

/-- A written word leaves the bytes outside it. -/
theorem read_writeWord_outside (m : Memory) {a a' : Nat} (v : Word) (h : a' < a ∨ a + 4 ≤ a') :
    (m.writeBytes a (wordBytes v)).read a' = m.read a' := by
  rw [Memory.read_writeBytes, dif_neg (by rw [wordBytes_length]; omega)]

end Sys2Proof.Machine
end

section
/-! PROOFS. The statements about the host port (spec/20_memory.md), settled. -/

open Sys2Proof Sys2Proof.Machine

/-- Settles O3: each region of the map indexes its words by an exact quotient, so an offset and its location determine each
other. -/
theorem offsetsAndLocationsAgree : Obligations.OffsetsAndLocationsAgree := by
  unfold Obligations.OffsetsAndLocationsAgree
  refine ⟨fun l => ⟨?_, decodeOffset_offset l⟩, fun off l h => toNat_eq_byteOffset h⟩
  have := byteOffset_lt l
  omega

/-- Settles O4: the regions without a word, one by one. -/
theorem unmappedOffsetsExactly : Obligations.UnmappedOffsetsExactly := by
  unfold Obligations.UnmappedOffsetsExactly
  exact decodeOffset_eq_none

/-- Settles O8: an offset that is not refused has a location, and the location permits the access. -/
theorem acceptedAccessIsAnsweredOkay : Obligations.AcceptedAccessIsAnsweredOkay := by
  unfold Obligations.AcceptedAccessIsAnsweredOkay
  intro s off v he
  refine ⟨fun hread => ?_, fun hwrite hoff => ?_, fun t hstep => ?_⟩
  · obtain ⟨l, hl⟩ := exists_location fun hu => hread (.inl hu)
    rw [refusedRead_iff hl, Bool.not_eq_false] at hread
    exact ⟨_, _, step_ask_rd_drawn he hl hread⟩
  · obtain ⟨l, hl⟩ := exists_location fun hu => hwrite (.inl hu)
    rw [refusedWrite_iff hl, not_not] at hwrite
    have hcmd : l ≠ .cmd := fun hc => hoff (by rw [toNat_eq_byteOffset hl, hc]; rfl)
    exact ⟨_, step_ask_wr he hl hcmd hwrite.1 hwrite.2, rfl⟩
  · rw [step_ask he] at hstep
    exact writeCommand_answer hstep

/-- Settles O10: each register's word at its own offset. -/
theorem controlRegistersReadTheirValue : Obligations.ControlRegistersReadTheirValue := by
  unfold Obligations.ControlRegistersReadTheirValue
  intro s he
  simp only [List.forall_mem_cons, List.not_mem_nil, false_imp_iff, implies_true, and_true]
  exact ⟨step_ask_rd_loc he .errcode rfl rfl, step_ask_rd_loc he .errinfo rfl rfl, step_ask_rd_loc he .symlen rfl rfl,
    step_ask_rd_loc he .bitlen rfl rfl, step_ask_rd_loc he .nleaves rfl rfl, step_ask_rd_loc he .nnodes rfl rfl,
    step_ask_rd_loc he .root rfl rfl, step_ask_rd_loc he .maxlen rfl rfl, step_ask_rd_loc he .symcap rfl rfl,
    step_ask_rd_loc he .bitcap rfl rfl⟩

/-- Settles O11: the three words at their own offsets. -/
theorem freqAndCodetabWordsRead : Obligations.FreqAndCodetabWordsRead := by
  unfold Obligations.FreqAndCodetabWordsRead
  intro s x q he
  have hlen := step_ask_rd_loc he (.lenw x) rfl rfl
  rw [readLoc, ← BitVec.ofNat_toNat] at hlen
  exact ⟨step_ask_rd_loc he (.freq x) rfl rfl, hlen, step_ask_rd_loc he (.cw x q) rfl rfl⟩

/-- Settles O13: a buffer word is its four lanes, and the counter moves only for a lane that is `UNSPEC`. -/
theorem bufferWordsReadLittleEndian : Obligations.BufferWordsReadLittleEndian := by
  unfold Obligations.BufferWordsReadLittleEndian
  intro s n he
  simp only [List.forall_mem_cons, List.not_mem_nil, false_imp_iff, implies_true, and_true]
  exact ⟨step_ask_rd_buffer he (.symbufW n) rfl rfl rfl, step_ask_rd_buffer he (.bitbufW n) rfl rfl rfl⟩

/-- Settles O14: the four bytes of the word written at the base of its location. -/
theorem bufferWordsWriteLittleEndian : Obligations.BufferWordsWriteLittleEndian := by
  unfold Obligations.BufferWordsWriteLittleEndian
  intro s n v he
  exact ⟨⟨_, step_ask_wr_loc he (.symbufW n) nofun rfl rfl, fun q hq => read_writeWord _ _ v hq,
      fun a ha => read_writeWord_outside _ v ha⟩,
    ⟨_, step_ask_wr_loc he (.bitbufW n) nofun rfl rfl, fun q hq => read_writeWord _ _ v hq,
      fun a ha => read_writeWord_outside _ v ha⟩⟩

/-- Settles O15: each write is `writeLoc` at its location, and the tables change at one entry. -/
theorem hostWriteStoresOnlyItsLocation : Obligations.HostWriteStoresOnlyItsLocation := by
  unfold Obligations.HostWriteStoresOnlyItsLocation
  intro s v x q he
  refine ⟨fun hv => ?_, fun hv => ?_, ⟨_, step_ask_wr_loc he (.freq x) nofun rfl rfl, fun y => Table.get_set _ _ _ _⟩,
    fun hv => ?_, ?_⟩
  · exact step_ask_wr_loc he .symlen nofun rfl ((legalValue_symlen v).2 hv)
  · exact step_ask_wr_loc he .bitlen nofun rfl ((legalValue_bitlen v).2 hv)
  · refine ⟨_, step_ask_wr_loc he (.lenw x) nofun rfl ((legalValue_lenw x v).2 hv), ?_, ?_, fun y hy => Table.get_set_ne _ _ hy⟩
    · rw [codetab_writeLoc_lenw, toNat_setLen hv]
    · rw [codetab_writeLoc_lenw, CodeEntry.setLen]
  · refine ⟨_, step_ask_wr_loc he (.cw x q) nofun rfl rfl, ?_, fun p => ?_, fun y hy => Table.get_set_ne _ _ hy⟩
    · rw [codetab_writeLoc_cw, CodeEntry.setWord]
    · rw [codetab_writeLoc_cw, CodeEntry.setWord, Table.get_set]
end

section
/-! PROOFS. The command word (spec/30_encoding.md R91 to R95): the nine words, and what a write of any word to `CMD` does. -/

namespace Sys2Proof.Machine

/-- The decoder reads each command's word back (R93). -/
@[simp] theorem decode_encode (i : Instr) : decode (encode i) = .ok i := by
  cases i <;> rfl

/-- A word decodes to a command exactly when it is that command's word (R91, R93). -/
theorem decode_eq_ok_iff {w : Word} {i : Instr} : decode w = .ok i ↔ w = encode i := by
  constructor
  · exact decode_eq_ok
  · rintro rfl
    exact decode_encode i

/-- The nine words of the opcode map, column "word" (R93). -/
def commandWords : List Word :=
  [0x00#32, 0x01#32, 0x02#32, 0x10#32, 0x11#32, 0x12#32, 0x13#32, 0x14#32, 0x20#32]

/-- The words that decode to a command are the nine of the opcode map (R93, R95). -/
theorem mem_commandWords_iff {w : Word} : w ∈ commandWords ↔ ∃ i, decode w = .ok i := by
  have hwords : commandWords =
      [Instr.nop, .clrerr, .sreset, .count, .build, .generate, .pack, .encode, .decode].map encode := rfl
  simp only [decode_eq_ok_iff, hwords, List.mem_map, eq_comm (a := w)]
  refine exists_congr fun i => and_iff_right ?_
  cases i <;> decide

/-- A word is one of the nine exactly when its upper 24 bits are 0 and its lower 8 are one of the nine codes (R91). -/
theorem mem_commandWords_iff_fields {w : Word} :
    w ∈ commandWords ↔
      w.toNat / 256 = 0 ∧ w.toNat % 256 ∈ [0x00, 0x01, 0x02, 0x10, 0x11, 0x12, 0x13, 0x14, 0x20] := by
  simp only [commandWords, List.mem_cons, List.not_mem_nil, or_false, ← BitVec.toNat_inj, BitVec.toNat_ofNat]
  omega

theorem badCommand_clear {s : State} (w : Word) (h : s.errcode = 0) : badCommand w s = raise .badCommand w s := if_pos h

theorem badCommand_pending {s : State} (w : Word) (h : s.errcode ≠ 0) : badCommand w s = s := if_neg h

theorem writeCommand_of_ok {s : State} {w : Word} {i : Instr} (h : decode w = .ok i) :
    writeCommand w s = mapNext (fun t => t.answered Answer.written) (exec i s) := by
  rw [writeCommand, h]

theorem writeCommand_of_illegal {s : State} {w : Word} (h : ¬ ∃ i, decode w = .ok i) :
    writeCommand w s = .next ((badCommand w s).answered Answer.written) := by
  unfold writeCommand
  cases hd : decode w with
  | error e => rfl
  | ok i => exact absurd ⟨i, hd⟩ h

/-- The step on a write to offset 0 is the command register's (R24, R92). -/
theorem step_ask_wr_cmd {s : State} (he : s.errcode.toNat ≤ 7) (w : Word) :
    step (s.ask (.wr 0#16 w)) = writeCommand w s := by
  have hcmd : decodeOffset 0#16 = some .cmd := rfl
  rw [step_ask he, performAccess, hostWrite, hcmd]
  exact if_pos rfl

end Sys2Proof.Machine
end

section
/-! PROOFS. Runs of host writes (spec/30_encoding.md section 6): what a sequence of legal writes leaves, and what the words of
the script language hold. -/

namespace Sys2Proof.Machine

/-! ## Running writes -/

/-- A write of `v` to `l` that the port accepts and that only stores (R64, R65). -/
def Storable (l : Loc) (v : Word) : Prop := l ≠ .cmd ∧ l.writable = true ∧ l.legalValue v = true

/-- The state after the words `word i` have been stored at `loc i`, one after another. -/
def storeSeq {ι : Type} (loc : ι → Loc) (word : ι → Word) (s : State) (is : List ι) : State :=
  is.foldl (fun s i => writeLoc s (loc i) (word i)) s

@[simp] theorem writeLoc_errcode (s : State) (l : Loc) (v : Word) : (writeLoc s l v).errcode = s.errcode := by
  cases l <;> rfl

/-- A store neither reads nor writes the port's own fields. -/
theorem writeLoc_with_port (s : State) (p : List Event) (a : Option Answer) (l : Loc) (v : Word) :
    writeLoc { s with pending := p, answer := a } l v = { writeLoc s l v with pending := p, answer := a } := by
  cases l <;> rfl

theorem storeSeq_with_port {ι : Type} (loc : ι → Loc) (word : ι → Word) (s : State) (p : List Event)
    (a : Option Answer) (is : List ι) :
    storeSeq loc word { s with pending := p, answer := a } is =
      { storeSeq loc word s is with pending := p, answer := a } := by
  induction is generalizing s with
  | nil => rfl
  | cons i is ih =>
    simp only [storeSeq, List.foldl_cons, writeLoc_with_port] at ih ⊢
    exact ih _

theorem storeSeq_range_succ (loc : Nat → Loc) (word : Nat → Word) (s : State) (k : Nat) :
    storeSeq loc word s (List.range (k + 1)) = writeLoc (storeSeq loc word s (List.range k)) (loc k) (word k) := by
  simp only [storeSeq, List.range_succ, List.foldl_append, List.foldl_cons, List.foldl_nil]

/-- The step on a pending write that only stores (R73). -/
theorem step_of_pending_store {s : State} {l : Loc} {v : Word} {rest : List Event} (he : s.errcode.toNat ≤ 7)
    (hp : s.pending = .access (wrAt l v) :: rest) (h : Storable l v) :
    step s = .next { writeLoc s l v with pending := rest, answer := some ⟨.okay, none⟩ } := by
  obtain ⟨hc, hw, hv⟩ := h
  calc step s = step (State.ask { s with pending := rest } (wrAt l v)) := by rw [State.ask, ← hp]
    _ = .next { writeLoc { s with pending := rest } l v with answer := some ⟨.okay, none⟩ } :=
      step_ask_wr_loc (s := { s with pending := rest }) he l hc hw hv
    _ = _ := by rw [writeLoc_with_port s rest s.answer l v]

theorem run_succ_of_step {s t : State} (h : step s = .next t) (n : Nat) :
    Sys2Proof.core.run (n + 1) s = Sys2Proof.core.run n t := by
  have hcore : Sys2Proof.core.step s = .next t := h
  simp only [Host.Core.run, hcore]

/-- A run of writes that only store, the last one at `l`, leaves every word at its location. -/
theorem run_stores {ι : Type} {loc : ι → Loc} {word : ι → Word} {l : Loc} {v : Word} (is : List ι) (s : State)
    (he : s.errcode.toNat ≤ 7) (hseq : ∀ i ∈ is, Storable (loc i) (word i)) (hlast : Storable l v)
    (hp : s.pending = (is.map (fun i => wrAt (loc i) (word i)) ++ [wrAt l v]).map .access) :
    Sys2Proof.core.run (is.map (fun i => wrAt (loc i) (word i)) ++ [wrAt l v]).length s = .next
      { writeLoc (storeSeq loc word s is) l v with pending := [], answer := some ⟨.okay, none⟩ } := by
  induction is generalizing s with
  | nil => exact run_succ_of_step (step_of_pending_store he hp hlast) 0
  | cons i is ih =>
    rw [List.forall_mem_cons] at hseq
    refine (run_succ_of_step (step_of_pending_store he hp hseq.1) _).trans ?_
    refine (ih _ (by simpa using he) hseq.2 rfl).trans ?_
    rw [storeSeq_with_port, writeLoc_with_port]
    rfl

/-! ## The words of a buffer -/

/-- A buffer after `k` words from its start have been written (R66). -/
def storeWords (m : Memory) (word : Nat → Word) : Nat → Memory
  | 0 => m
  | k + 1 => (storeWords m word k).writeBytes (4 * k) (wordBytes (word k))

theorem wordBase_ofNat {w : Nat} (h : w < 1024) : wordBase (BitVec.ofNat 10 w) = 4 * w := by
  rw [wordBase, BitVec.toNat_ofNat, Nat.mod_eq_of_lt h]

theorem storeSeq_symbufW (s : State) (word : Nat → Word) {k : Nat} (hk : k ≤ 1024) :
    storeSeq (fun w => .symbufW (BitVec.ofNat 10 w)) word s (List.range k) =
      { s with symbuf := storeWords s.symbuf word k } := by
  induction k with
  | zero => rfl
  | succ k ih => rw [storeSeq_range_succ, ih (by omega), writeLoc, wordBase_ofNat hk, storeWords]

theorem storeSeq_bitbufW (s : State) (word : Nat → Word) {k : Nat} (hk : k ≤ 1024) :
    storeSeq (fun w => .bitbufW (BitVec.ofNat 10 w)) word s (List.range k) =
      { s with bitbuf := storeWords s.bitbuf word k } := by
  induction k with
  | zero => rfl
  | succ k ih => rw [storeSeq_range_succ, ih (by omega), writeLoc, wordBase_ofNat hk, storeWords]

/-- Byte `a` of the written words is lane `a mod 4` of word `a div 4` (R66). -/
theorem read_storeWords (m : Memory) (word : Nat → Word) {k a : Nat} (ha : a < 4 * k) :
    (storeWords m word k).read a = some ((word (a / 4)).extractLsb' (8 * (a % 4)) 8) := by
  induction k with
  | zero => omega
  | succ k ih =>
    rw [storeWords]
    by_cases hlt : a < 4 * k
    · rw [read_writeWord_outside _ _ (.inl hlt), ih hlt]
    · have hdiv : a / 4 = k := by omega
      have hsum : a = 4 * k + a % 4 := by omega
      rw [hdiv, ← read_writeWord (storeWords m word k) (4 * k) (word k) (Nat.mod_lt a (by decide)), ← hsum]

theorem read_storeWords_beyond (m : Memory) (word : Nat → Word) {k a : Nat} (ha : 4 * k ≤ a) :
    (storeWords m word k).read a = m.read a := by
  induction k with
  | zero => rfl
  | succ k ih => rw [storeWords, read_writeWord_outside _ _ (.inr (by omega)), ih (by omega)]

/-- Lane `q` of a word that is put together from four bytes (R66). -/
theorem extractLsb'_fourBytes (b : Nat → Byte) {q : Nat} (hq : q < 4) :
    (b 3 ++ b 2 ++ b 1 ++ b 0).extractLsb' (8 * q) 8 = b q := by
  have h0 := (b 0).isLt
  have h1 := (b 1).isLt
  have h2 := (b 2).isLt
  have h3 := (b 3).isLt
  apply BitVec.eq_of_toNat_eq
  simp only [BitVec.extractLsb'_toNat, toNat_append_eq_add, Nat.shiftRight_eq_div_pow]
  match q, hq with
  | 0, _ => omega
  | 1, _ => omega
  | 2, _ => omega
  | 3, _ => omega

/-- Lane `q` of word `w` of PUTSYM is symbol `4w + q` (R98). -/
theorem extractLsb'_symWord (syms : List Byte) (w : Nat) {q : Nat} (hq : q < 4) :
    (symWord syms w).extractLsb' (8 * q) 8 = syms.getD (4 * w + q) 0 :=
  extractLsb'_fourBytes (fun q => syms.getD (4 * w + q) 0) hq

/-- Lane `q` of word `w` of PUTBITS holds the eight stream bits from `32w + 8q` on (R98). -/
theorem extractLsb'_bitWord (bits : List Bool) (w : Nat) {q : Nat} (hq : q < 4) :
    (bitWord bits w).extractLsb' (8 * q) 8 = packBits 8 (bits.drop (32 * w + 8 * q)) :=
  extractLsb'_fourBytes (fun q => packBits 8 (bits.drop (32 * w + 8 * q))) hq

/-- Element `d + r` of a bit-string in the vector that packs it from element `d` on (R38, R68). -/
theorem getLsbD_packBits_drop {n r : Nat} (bits : List Bool) (d : Nat) (hr : r < n) :
    (packBits n (bits.drop d)).getLsbD (n - 1 - r) = bits.getD (d + r) false := by
  have hback : n - 1 - (n - 1 - r) = r := by omega
  rw [getLsbD_packBits _ _ _ (by omega), hback, List.getD_eq_getElem?_getD, List.getElem?_drop,
    ← List.getD_eq_getElem?_getD]

/-! ## The words of a code -/

/-- A code table after `k` words from `CW[0]` of the entry of `x` have been written (R73). -/
def storeCodeWords (t : CodeTable) (x : Byte) (word : Nat → Word) : Nat → CodeTable
  | 0 => t
  | k + 1 => (storeCodeWords t x word k).set x (((storeCodeWords t x word k).get x).setWord (BitVec.ofNat 3 k) (word k))

theorem storeSeq_cw (s : State) (x : Byte) (word : Nat → Word) (k : Nat) :
    storeSeq (fun q => .cw x (BitVec.ofNat 3 q)) word s (List.range k) =
      { s with codetab := storeCodeWords s.codetab x word k } := by
  induction k with
  | zero => rfl
  | succ k ih => rw [storeSeq_range_succ, ih, writeLoc, storeCodeWords]

theorem storeCodeWords_get_ne (t : CodeTable) {x y : Byte} (word : Nat → Word) (k : Nat) (hy : y ≠ x) :
    (storeCodeWords t x word k).get y = t.get y := by
  induction k with
  | zero => rfl
  | succ k ih => rw [storeCodeWords, Table.get_set_ne _ _ hy, ih]

theorem storeCodeWords_cw (t : CodeTable) (x : Byte) (word : Nat → Word) {k q : Nat} (hk : k ≤ 8) (hq : q < k) :
    ((storeCodeWords t x word k).get x).cw.get (BitVec.ofNat 3 q) = word q := by
  induction k with
  | zero => omega
  | succ k ih =>
    rw [storeCodeWords, Table.get_set_self, CodeEntry.setWord]
    by_cases hlast : q = k
    · rw [hlast, Table.get_set_self]
    · have hne : BitVec.ofNat 3 q ≠ BitVec.ofNat 3 k := fun h => by
        have := congrArg BitVec.toNat h
        rw [BitVec.toNat_ofNat, BitVec.toNat_ofNat] at this
        omega
      rw [Table.get_set_ne _ _ hne, ih (by omega) (by omega)]

/-- The code elements from `32q` on, the word `CW[q]` of PUTCODE (R38, R98). -/
def codeWord (code : List Bool) (q : Nat) : Word := packBits 32 (code.drop (32 * q))

/-- A code table after the writes of PUTCODE: the words that hold code elements, then `LENW` (R98). -/
def storeCode (t : CodeTable) (x : Byte) (code : List Bool) : CodeTable :=
  let stored := storeCodeWords t x (codeWord code) ((code.length + 31) / 32)
  stored.set x ((stored.get x).setLen (BitVec.ofNat 32 code.length))

theorem storeCode_get_ne (t : CodeTable) {x y : Byte} (code : List Bool) (hy : y ≠ x) :
    (storeCode t x code).get y = t.get y := by
  rw [storeCode, Table.get_set_ne _ _ hy, storeCodeWords_get_ne _ _ _ hy]

theorem codeIs_storeCode (t : CodeTable) (x : Byte) {code : List Bool} (hlen : code.length ≤ 255) :
    CodeIs (storeCode t x code) x code := by
  have hval : (BitVec.ofNat 32 code.length).toNat = code.length := by rw [BitVec.toNat_ofNat]; omega
  rw [CodeIs, storeCode, Table.get_set_self]
  refine ⟨?_, fun j hj => ?_⟩
  · rw [toNat_setLen (by omega), hval]
  · rw [CodeEntry.setLen, storeCodeWords_cw _ _ _ (by omega) (by omega), codeWord,
      getLsbD_packBits_drop (n := 32) code _ (Nat.mod_lt j (by decide)), Nat.div_add_mod, List.getD_eq_getElem _ _ hj]

end Sys2Proof.Machine
end

section
/-! PROOFS. The statements about the encoding and the script language (spec/30_encoding.md), settled. -/

open Sys2Proof Sys2Proof.Machine

/-- Settles O2: a command's word is its only encoding, and the nine words are the nine codes, zero-extended. -/
theorem legalCommandExactly : Obligations.LegalCommandExactly := by
  unfold Obligations.LegalCommandExactly
  refine ⟨fun w => ?_, fun w i => ?_, fun i => ?_⟩
  · rw [← mem_commandWords_iff, mem_commandWords_iff_fields]
  · have hmask : w &&& 0xFFFFFFFF#32 = w := BitVec.and_allOnes
    rw [hmask, decode_eq_ok_iff]
  · cases i <;> decide

/-- Settles O16: a word that is none of the nine has no command, so the write is `badCommand`. -/
theorem illegalWordRaisesBadCommand : Obligations.IllegalWordRaisesBadCommand := by
  unfold Obligations.IllegalWordRaisesBadCommand
  refine ⟨fun w => mem_commandWords_iff, fun s w he hw => ?_⟩
  rw [step_ask_wr_cmd he, writeCommand_of_illegal (mt mem_commandWords_iff.2 hw)]
  refine ⟨fun hclear => ?_, fun hpend => ?_⟩
  · rw [badCommand_clear w hclear]
    rfl
  · rw [badCommand_pending w hpend]
    rfl

/-- Settles O57: the words of the message into `SYMBUF`, then `SYMLEN`. -/
theorem putsymLoadsTheMessage : Obligations.PutsymLoadsTheMessage := by
  unfold Obligations.PutsymLoadsTheMessage
  intro s syms he hwf hp
  have hlen : syms.length ≤ 4096 := of_decide_eq_true hwf
  have hlast : Storable .symlen (BitVec.ofNat 32 syms.length) :=
    ⟨nofun, rfl, (legalValue_symlen _).2 (by rw [BitVec.toNat_ofNat]; omega)⟩
  have hrun := run_stores (loc := fun w => .symbufW (BitVec.ofNat 10 w)) (word := symWord syms) _ s he
    (fun _ _ => ⟨nofun, rfl, rfl⟩) hlast hp
  rw [storeSeq_symbufW s (symWord syms) (by omega)] at hrun
  refine ⟨storeWords s.symbuf (symWord syms) ((syms.length + 3) / 4), hrun, fun i hi => ?_,
    fun a ha => read_storeWords_beyond _ _ ha⟩
  have hlane := extractLsb'_symWord syms (i / 4) (Nat.mod_lt i (by decide))
  rw [Nat.div_add_mod, List.getD_eq_getElem _ _ hi] at hlane
  rw [read_storeWords _ _ (by omega), hlane]

/-- Settles O58: the words of the stream into `BITBUF`, then `BITLEN`. -/
theorem putbitsLoadsTheStream : Obligations.PutbitsLoadsTheStream := by
  unfold Obligations.PutbitsLoadsTheStream
  intro s bits he hwf hp
  have hlen : bits.length ≤ 32768 := of_decide_eq_true hwf
  have hlast : Storable .bitlen (BitVec.ofNat 32 bits.length) :=
    ⟨nofun, rfl, (legalValue_bitlen _).2 (by rw [BitVec.toNat_ofNat]; omega)⟩
  have hrun := run_stores (loc := fun w => .bitbufW (BitVec.ofNat 10 w)) (word := bitWord bits) _ s he
    (fun _ _ => ⟨nofun, rfl, rfl⟩) hlast hp
  rw [storeSeq_bitbufW s (bitWord bits) (by omega)] at hrun
  refine ⟨storeWords s.bitbuf (bitWord bits) ((bits.length + 31) / 32), hrun,
    fun p hbit => ⟨_, read_storeWords _ _ (by omega), ?_⟩, fun a ha => read_storeWords_beyond _ _ ha⟩
  have hpos : 32 * (p / 8 / 4) + 8 * (p / 8 % 4) + p % 8 = p := by omega
  rw [extractLsb'_bitWord bits _ (Nat.mod_lt _ (by decide)),
    getLsbD_packBits_drop (n := 8) bits _ (Nat.mod_lt p (by decide)), hpos, List.getD_eq_getElem _ _ hbit]

/-- Settles O59: the words of the code into the entry's `CW`, then its `LENW`. -/
theorem putcodeStoresTheCode : Obligations.PutcodeStoresTheCode := by
  unfold Obligations.PutcodeStoresTheCode
  intro s x code he hwf hp
  have hlen : code.length ≤ 255 := of_decide_eq_true (Bool.and_eq_true_iff.1 hwf).2
  have hlast : Storable (.lenw x) (BitVec.ofNat 32 code.length) :=
    ⟨nofun, rfl, (legalValue_lenw x _).2 (by rw [BitVec.toNat_ofNat]; omega)⟩
  have hrun := run_stores (loc := fun q => .cw x (BitVec.ofNat 3 q)) (word := codeWord code) _ s he
    (fun _ _ => ⟨nofun, rfl, rfl⟩) hlast hp
  rw [storeSeq_cw] at hrun
  exact ⟨storeCode s.codetab x code, hrun, codeIs_storeCode _ x hlen, fun y hy => storeCode_get_ne _ code hy⟩

/-- Settles O1: each command's word decodes to it, and the class column by cases. -/
theorem nineCommandWordsDecode : Obligations.NineCommandWordsDecode := by
  unfold Obligations.NineCommandWordsDecode
  refine ⟨decode_encode .nop, decode_encode .clrerr, decode_encode .sreset, decode_encode .count, decode_encode .build,
    decode_encode .generate, decode_encode .pack, decode_encode .encode, decode_encode .decode, fun i => ?_⟩
  cases i <;> decide

/-- Settles O5: the command register's write of a legal word, outcome by outcome. -/
theorem stepRunsTheDecodedCommand : Obligations.StepRunsTheDecodedCommand := by
  unfold Obligations.StepRunsTheDecodedCommand
  intro s w i he hd
  rw [step_ask_wr_cmd he, writeCommand_of_ok hd]
  cases exec i s <;> rfl
end

section
/-! PROOFS. COUNT (spec/40_frequency_count.md R112): what the loop adds to an entry, and that no count wraps. -/

namespace Sys2Proof.Machine

theorem get_countOne (freq : FreqTable) (y x : Byte) :
    (countOne freq y).get x = if x = y then freq.get x + 1 else freq.get x := by
  simp only [countOne, Table.get_set]
  split
  next h => rw [h]
  next => rfl

/-- The loop adds to each entry the occurrences of its symbol, modulo `2^32`. -/
theorem get_foldl_countOne (msg : List Byte) (freq : FreqTable) (x : Byte) :
    (msg.foldl countOne freq).get x = freq.get x + BitVec.ofNat 32 (msg.count x) := by
  induction msg generalizing freq with
  | nil => simp
  | cons y msg ih =>
    rw [List.foldl_cons, ih, get_countOne]
    by_cases h : x = y
    · subst h
      rw [if_pos rfl, List.count_cons_self, Nat.add_comm, BitVec.ofNat_add, add_assoc]
      rfl
    · rw [if_neg h, List.count_cons_of_ne (Ne.symm h)]

theorem get_countSymbols (msg : List Byte) (x : Byte) :
    (countSymbols msg).get x = BitVec.ofNat 32 (msg.count x) := by
  rw [countSymbols, get_foldl_countOne, Table.get_fill, zero_add]

/-- `SYMLEN` is a 32-bit register, so a message has fewer than `2^32` symbols. -/
theorem Message.length_lt {s : State} {msg : List Byte} (hm : Message s msg) : msg.length < 2 ^ 32 :=
  hm.1 ▸ s.symlen.isLt

/-- No count of a message wraps (R112). -/
theorem Message.toNat_get_countSymbols {s : State} {msg : List Byte} (hm : Message s msg) (x : Byte) :
    ((countSymbols msg).get x).toNat = msg.count x := by
  rw [get_countSymbols, BitVec.toNat_ofNat]
  exact Nat.mod_eq_of_lt (List.count_le_length.trans_lt hm.length_lt)

end Sys2Proof.Machine
end

section
/-! PROOFS. The statements about COUNT (spec/40_frequency_count.md), settled. -/

open Sys2Proof Sys2Proof.Machine

/-- Settles O24: COUNT leaves the table of its loop, whose entries are the occurrences; the gate ignores it otherwise. -/
theorem countStoresTheOccurrences : Obligations.CountStoresTheOccurrences := by
  unfold Obligations.CountStoresTheOccurrences
  refine ⟨rfl, fun s msg he hm => ?_, fun s he => exec_of_pending he rfl⟩
  exact ⟨countSymbols msg, exec_count_of he hm, hm.toNat_get_countSymbols⟩

end

section
/-! PROOFS. BUILD (spec/41_tree_builder.md R121 to R126): the registers and the arena that a BUILD of some symbol leaves. -/

namespace Sys2Proof.Machine

variable {freq : FreqTable} {s t : State}

/-- A BUILD of some symbol succeeds (R121). -/
theorem runBuild_ok_of_exec (he : s.errcode = 0) (hne : keysOf s.freq ≠ []) (hx : exec .build s = .next t) :
    runBuild s = .ok t := by
  rw [exec_build_of he] at hx
  rcases runBuild_cases s with ⟨hnil, -⟩ | ⟨-, hok⟩
  · exact absurd hnil hne
  · rw [hok] at hx ⊢
    exact congrArg Except.ok (Host.Outcome.next.inj hx)

/-- A successful BUILD leaves the tree of `FREQ` valid, and no error (R121). -/
theorem runBuild_ok_fields (h : runBuild s = .ok t) :
    BuiltFrom s.freq t ∧ t.treeValid = true ∧ t.errcode = s.errcode := by
  rcases runBuild_cases s with ⟨-, he⟩ | ⟨hne, hok⟩
  · simp [he] at h
  obtain rfl := Except.ok.inj (hok.symm.trans h)
  have hpos : 0 < (keysOf s.freq).length := List.length_pos_iff.2 hne
  have hle := keysOf_length_le s.freq
  have hsize : 1 ≤ (buildArena s.freq).2 ∧ (buildArena s.freq).2 ≤ 511 := by
    rw [buildArena_size s.freq hne]
    split <;> omega
  refine ⟨{ node := rfl, nleaves := ?_, nnodes := ?_, root := ?_ }, rfl, rfl⟩
  · simp only [State.k, BitVec.toNat_ofNat]; omega
  · simp only [BitVec.toNat_ofNat]; omega
  · simp only [BitVec.toNat_ofNat]; omega

/-! ## Two or more symbols -/

/-- The queue of R125 at the next entry of the merge loop is the loop's own queue. -/
theorem MergeInv.inQueueAt_next_iff {start : Arena} {k total : Nat} {m : Merge} (h : MergeInv start k total m)
    (hstart : ∀ i : NodeIx, i.toNat < k → ∃ x f, start.get i = .leaf x f) {n : NodeIx} (hn : n.toNat = m.next) (j : NodeIx) :
    InQueueAt m.nodes n j ↔ j ∈ m.queue := by
  unfold InQueueAt
  rw [hn]
  constructor
  · rintro ⟨hj, hno⟩
    exact (h.queued j hj).2 fun p hp => hno p (h.child_lt hstart hp).2 hp
  · intro hj
    exact ⟨h.lt j hj, fun p _ => (h.queued j (h.lt j hj)).1 hj p⟩

/-- With two or more symbols BUILD leaves the arena of a merge loop that has run to its end (R125). -/
theorem BuiltFrom.exists_merge (hs : BuiltFrom freq s) (h2 : 2 ≤ (keysOf freq).length) :
    ∃ m, MergeInv (seedMerge freq).nodes (keysOf freq).length (countTotal freq) m ∧ m.queue.length = 1 ∧
      m.nodes = s.node ∧ m.next = s.nnodes.toNat := by
  obtain ⟨hnode, -, hnn, -⟩ := hs
  have hne : keysOf freq ≠ [] := List.ne_nil_of_length_pos (by omega)
  have hsize := buildArena_size freq hne
  have hinv := mergeLoop_inv freq hne
  have hcount := hinv.count
  rw [if_neg (by omega)] at hsize
  rw [buildArena_of_merge (by omega)] at hnode hnn hsize
  simp only at hnode hnn hsize
  exact ⟨_, hinv, by omega, hnode.symm, hnn.symm⟩

/-- `ROOT` and `NNODES` after a merge (R31, R32). -/
theorem BuiltFrom.registers_of_merge (hs : BuiltFrom freq s) (h2 : 2 ≤ (keysOf freq).length) :
    s.nnodes.toNat = 2 * (keysOf freq).length - 1 ∧ s.root.toNat = 2 * (keysOf freq).length - 2 := by
  obtain ⟨-, -, hnn, hroot⟩ := hs
  have hsize := buildArena_size freq (List.ne_nil_of_length_pos (by omega))
  rw [if_neg (by omega)] at hsize
  omega

/-! ## One symbol -/

/-- The registers and the three entries of the wrapper (R126). -/
theorem BuiltFrom.wrapper {x : Byte} (hs : BuiltFrom freq s) (h1 : keysOf freq = [x]) :
    s.root = 2 ∧ s.nnodes = 3 ∧ ∀ i : NodeIx, s.node.get i =
      if i = 2 then .internal (widen (freq.get x)) 0 1 else if i = 1 then .placeholder
      else if i = 0 then .leaf x (widen (freq.get x)) else .free := by
  obtain ⟨hnode, -, hnn, hroot⟩ := hs
  have hlen : (keysOf freq).length = 1 := by rw [h1]; rfl
  have hsize := buildArena_size freq (List.ne_nil_of_length_pos (by omega))
  rw [if_pos hlen] at hsize
  rw [hsize] at hnn hroot
  refine ⟨BitVec.eq_of_toNat_eq (Nat.succ.inj hroot), BitVec.eq_of_toNat_eq hnn, fun i => ?_⟩
  rw [hnode, buildArena_of_single freq hlen i]
  simp only [h1, List.getElem_cons_zero]

/-! ## The leaves -/

/-- The leaves stay as they were seeded, in the order of the symbols with their counts (R122). -/
theorem BuiltFrom.get_leaf (hs : BuiltFrom freq s) (i : NodeIx) (hi : i.toNat < (keysOf freq).length) :
    s.node.get i = .leaf (keysOf freq)[i.toNat] (widen (freq.get (keysOf freq)[i.toNat])) := by
  by_cases h1 : (keysOf freq).length = 1
  · obtain rfl : i = 0#9 := BitVec.eq_of_toNat_eq (by rw [BitVec.toNat_zero]; omega)
    rw [hs.node]
    exact buildArena_of_single freq h1 0
  · obtain ⟨m, hinv, -, hnode, -⟩ := hs.exists_merge (by omega)
    rw [← hnode, hinv.leaf i hi, seedMerge_nodes_get, dif_pos hi]

end Sys2Proof.Machine
end

section
/-! PROOFS. The statements about BUILD (spec/41_tree_builder.md), settled. -/

open Sys2Proof Sys2Proof.Machine

/-- Settles O29: the merge loop's invariant records, for every entry made, that it merged the two lowest keys; its queue is the
one of R125, and at the end the last entry alone is in it. -/
theorem buildMergesTheTwoLowestKeys : Obligations.BuildMergesTheTwoLowestKeys := by
  unfold Obligations.BuildMergesTheTwoLowestKeys
  intro s t he h2 hx
  obtain ⟨hbuilt, -⟩ := runBuild_ok_fields (runBuild_ok_of_exec he (List.ne_nil_of_length_pos (by omega)) hx)
  obtain ⟨hnn, hroot⟩ := hbuilt.registers_of_merge h2
  obtain ⟨m, hinv, hone, hnode, hnext⟩ := hbuilt.exists_merge h2
  have hle := keysOf_length_le s.freq
  have hleaf := seedMerge_leaf s.freq
  rw [← hnode]
  refine ⟨hnn, hroot, fun n hk hn => ?_, fun j => ?_⟩
  · obtain ⟨f, a, b, hget, -, -, -, hsum, hlowest⟩ := hinv.internal n hk (by omega)
    exact ⟨f, a, b, hget, hsum, hlowest⟩
  · have hend : (BitVec.ofNat 9 t.nnodes.toNat).toNat = m.next := by rw [BitVec.toNat_ofNat]; omega
    rw [hinv.inQueueAt_next_iff hleaf hend, hinv.mem_queue_iff_last hleaf hone (by omega)]
    omega

/-- Settles O26: BUILD takes its first branch, which clears the tree and raises the error. -/
theorem buildOfNothingRaisesEmptyInput : Obligations.BuildOfNothingRaisesEmptyInput := by
  unfold Obligations.BuildOfNothingRaisesEmptyInput
  intro s he hzero
  refine ⟨freeArena, Table.get_fill _, ?_⟩
  rcases runBuild_cases s with ⟨-, herr⟩ | ⟨hne, -⟩
  · rw [exec_build_of he, herr]
    rfl
  · exact absurd (keysOf_eq_nil.2 hzero) hne

/-- Settles O28: the leaves are the seeded ones; the tree invariants say what the other entries are. -/
theorem buildSeedsTheLeavesInOrder : Obligations.BuildSeedsTheLeavesInOrder := by
  unfold Obligations.BuildSeedsTheLeavesInOrder
  rintro s t he ⟨x, hcount⟩ hx
  have hok := runBuild_ok_of_exec he (fun h => hcount (keysOf_eq_nil.1 h x)) hx
  obtain ⟨hbuilt, -⟩ := runBuild_ok_fields hok
  have htree := runBuild_treeInv hok
  refine ⟨fun j hj => ?_, fun i hk hn => ?_, htree.free⟩
  · have hix : (BitVec.ofNat 9 j : NodeIx).toNat = j := by
      have := keysOf_length_le s.freq
      rw [BitVec.toNat_ofNat]
      omega
    have hget := hbuilt.get_leaf (BitVec.ofNat 9 j) (by omega)
    simp only [hix] at hget
    exact ⟨_, hget, widen_toNat _⟩
  · by_cases hp : t.node.get i = .placeholder
    · exact .inl hp
    · obtain ⟨f, l, r, hi, -⟩ := htree.internal i (hbuilt.nleaves ▸ hk) hn hp
      exact .inr ⟨f, l, r, hi⟩

/-- Settles O30: the wrapper's only Leaf is the left child of `ROOT`, so GENERATE records its symbol with the path "0". -/
theorem buildWrapsASingleSymbol : Obligations.BuildWrapsASingleSymbol := by
  unfold Obligations.BuildWrapsASingleSymbol
  intro s t x he h1 hx
  have hok := runBuild_ok_of_exec he (by simp [h1]) hx
  obtain ⟨hbuilt, hvalid, herr⟩ := runBuild_ok_fields hok
  have htree := runBuild_treeInv hok
  obtain ⟨hroot, hnn, hget⟩ := hbuilt.wrapper h1
  have hleaf : t.node.get 0 = .leaf x (widen (s.freq.get x)) := hget 0
  have htop : t.node.get t.rootIx = .internal (widen (s.freq.get x)) 0 1 := by rw [State.rootIx, hroot]; exact hget 2
  obtain ⟨codes, hcodes⟩ := htree.leafCodes_some
  refine ⟨widen (s.freq.get x), widen_toNat _, hleaf, hget 1, hget 2, hroot, hnn, storeTable codes t,
    exec_generate_of (herr.trans he) hvalid hcodes, ?_, fun y hy => ?_⟩
  · exact codeIs_iff.2 (htree.codeOf_leaf hcodes hleaf (.left .root htop)).2
  · have hnoleaf : ∀ i f, t.node.get i ≠ .leaf y f := by
      intro i f hi
      rw [hget] at hi
      split_ifs at hi
      exact hy (Node.leaf.inj hi).1.symm
    exact congrArg CodeEntry.len (codeOf_of_no_leaf hcodes hnoleaf)

end

section
/-! PROOFS. GENERATE (spec/42_code_table_generator.md R140 to R144): where the leaves of a tree stand, and what the table of
their paths holds. -/

namespace Sys2Proof.Machine

variable {s : State} {codes : List (Byte × List Bool)}

/-! ## The leaves of a tree -/

/-- Only the first `NLEAVES` entries are Leaves (R41). -/
theorem TreeInv.lt_of_leaf (h : TreeInv s) {i : NodeIx} {x : Byte} {f : NodeFreq} (hl : s.node.get i = .leaf x f) :
    i.toNat < s.k := by
  by_contra hk
  rcases Nat.lt_or_ge i.toNat s.nnodes.toNat with hn | hn
  · obtain ⟨g, l, r, hi, -⟩ := h.internal i (by omega) hn (by simp [hl])
    simp [hl] at hi
  · simp [h.free i hn] at hl

/-- The leaves stand below `ROOT` (R32, R41). -/
theorem TreeInv.leaves_le_root (h : TreeInv s) : s.k ≤ s.root.toNat := by
  have hn := h.nnodes_eq
  have hr := h.root_eq
  have hk := h.leaves_pos
  split at hn <;> omega

/-- `ROOT` is no Leaf, so a Leaf's path has at least one edge (R143). -/
theorem TreeInv.leaf_path_ne_nil (h : TreeInv s) {i : NodeIx} {x : Byte} {f : NodeFreq} {c : List Bool}
    (hl : s.node.get i = .leaf x f) (hp : PathTo s.node s.rootIx i c) : c ≠ [] := by
  rintro rfl
  obtain rfl := hp.functional .root
  have hlt := h.lt_of_leaf hl
  have hle := h.leaves_le_root
  rw [h.rootIx_toNat] at hlt
  omega

/-- Every Leaf is reachable from `ROOT` (R41). -/
theorem TreeInv.exists_leaf_path (h : TreeInv s) {i : NodeIx} {x : Byte} {f : NodeFreq} (hl : s.node.get i = .leaf x f) :
    ∃ c, PathTo s.node s.rootIx i c :=
  h.exists_path i ((h.lt_of_leaf hl).le.trans h.leaves_le_root)

/-- After a BUILD the symbols with a Leaf are those with a non-zero count (R122). -/
theorem BuiltFrom.exists_leaf_iff {freq : FreqTable} (hs : BuiltFrom freq s) (h : TreeInv s) {x : Byte} :
    (∃ i f, s.node.get i = .leaf x f) ↔ freq.get x ≠ 0 := by
  have hle := keysOf_length_le freq
  rw [← mem_keysOf, List.mem_iff_getElem]
  constructor
  · rintro ⟨i, f, hl⟩
    have hi : i.toNat < (keysOf freq).length := hs.nleaves ▸ h.lt_of_leaf hl
    exact ⟨i.toNat, hi, (Node.leaf.inj ((hs.get_leaf i hi).symm.trans hl)).1⟩
  · rintro ⟨n, hn, rfl⟩
    have hix : (BitVec.ofNat 9 n : NodeIx).toNat = n := by rw [BitVec.toNat_ofNat]; omega
    have hget := hs.get_leaf (BitVec.ofNat 9 n) (by omega)
    simp only [hix] at hget
    exact ⟨_, _, hget⟩

/-! ## The table -/

/-- The entry of a symbol without a code is that of the empty code (R37, R38). -/
theorem ofCode_nil : CodeEntry.ofCode [] = CodeEntry.empty := by decide

/-- Every entry of the generated table is the canonical entry of its code: the bits from `LEN` on are 0 (R142). -/
theorem TreeInv.get_tableOf (h : TreeInv s) (hc : s.leafCodes = some codes) (x : Byte) :
    (tableOf codes).get x = CodeEntry.ofCode (codeOf (tableOf codes) x) := by
  by_cases hx : ∃ i f, s.node.get i = .leaf x f
  · obtain ⟨i, f, hl⟩ := hx
    obtain ⟨c, hp⟩ := h.exists_leaf_path hl
    obtain ⟨hget, hcode⟩ := h.codeOf_leaf hc hl hp
    rw [hcode, hget]
  · have hget := codeOf_of_no_leaf hc fun i f hl => hx ⟨i, f, hl⟩
    rw [codeOf, hget]
    exact ofCode_nil.symm

/-- The table's entries are exactly the Leaves' symbols, each with its Leaf's path as the code (R140). -/
theorem TreeInv.entry_iff_leaf (h : TreeInv s) (hc : s.leafCodes = some codes) {x : Byte} {c : List Bool} :
    (((tableOf codes).get x).len ≠ 0 ∧ codeOf (tableOf codes) x = c) ↔
      ∃ i f, s.node.get i = .leaf x f ∧ PathTo s.node s.rootIx i c := by
  constructor
  · rintro ⟨hlen, rfl⟩
    by_cases hx : ∃ i f, s.node.get i = .leaf x f
    · obtain ⟨i, f, hl⟩ := hx
      obtain ⟨c, hp⟩ := h.exists_leaf_path hl
      exact ⟨i, f, hl, (h.codeOf_leaf hc hl hp).2 ▸ hp⟩
    · exact absurd (congrArg CodeEntry.len (codeOf_of_no_leaf hc fun i f hl => hx ⟨i, f, hl⟩)) hlen
  · rintro ⟨i, f, hl, hp⟩
    have hcode := (h.codeOf_leaf hc hl hp).2
    refine ⟨fun hlen => h.leaf_path_ne_nil hl hp ?_, hcode⟩
    rw [← hcode, ← List.length_eq_zero_iff, codeOf, code_length, hlen]
    rfl

/-- A symbol has an entry exactly when it has a Leaf (R140). -/
theorem TreeInv.len_ne_zero_iff (h : TreeInv s) (hc : s.leafCodes = some codes) {x : Byte} :
    ((tableOf codes).get x).len ≠ 0 ↔ ∃ i f, s.node.get i = .leaf x f := by
  constructor
  · intro hlen
    obtain ⟨i, f, hl, -⟩ := (h.entry_iff_leaf hc).1 ⟨hlen, rfl⟩
    exact ⟨i, f, hl⟩
  · rintro ⟨i, f, hl⟩
    obtain ⟨c, hp⟩ := h.exists_leaf_path hl
    exact ((h.entry_iff_leaf hc).2 ⟨i, f, hl, hp⟩).1

/-- The longest recorded code is the longest of the table (R33, R142). -/
theorem TreeInv.isMaxLen_longestOf (h : TreeInv s) (hc : s.leafCodes = some codes) :
    IsMaxLen (tableOf codes) (longestOf codes) := by
  have hmem : ∀ x c, (x, c) ∈ codes ↔ ((tableOf codes).get x).len ≠ 0 ∧ codeOf (tableOf codes) x = c :=
    fun x c => (mem_leafCodes hc x c).trans (h.entry_iff_leaf hc).symm
  obtain ⟨hbound, hreach⟩ := longestOf_spec codes
  refine ⟨fun x => ?_, hreach.imp_right ?_⟩
  · by_cases hlen : ((tableOf codes).get x).len = 0
    · simp [hlen]
    · simpa [codeOf] using hbound _ ((hmem x _).2 ⟨hlen, rfl⟩)
  · rintro ⟨⟨x, c⟩, hx, hmax⟩
    obtain ⟨-, rfl⟩ := (hmem x c).1 hx
    exact ⟨x, by simpa [codeOf] using hmax.symm⟩

/-- No Leaf stands above another, so no generated code begins another symbol's code (R144). -/
theorem TreeInv.prefixFree_tableOf (h : TreeInv s) (hc : s.leafCodes = some codes) : PrefixFree (tableOf codes) := by
  intro x y hne hx hy hpre
  obtain ⟨i, f, hi, hpi⟩ := (h.entry_iff_leaf hc).1 ⟨hx, rfl⟩
  obtain ⟨j, g, hj, hpj⟩ := (h.entry_iff_leaf hc).1 ⟨hy, rfl⟩
  obtain rfl := hpi.leaf_prefix hi hpj hpre
  exact hne (Node.leaf.inj (hi.symm.trans hj)).1

/-! ## The number of entries -/

/-- The symbols of the first `NLEAVES` entries, in the order of the arena (R122). -/
def leafSymbols (s : State) : List Byte := (List.range s.k).map fun n => (s.node.get (BitVec.ofNat 9 n)).sym

theorem TreeInv.toNat_leafIx (h : TreeInv s) {n : Nat} (hn : n < s.k) : (BitVec.ofNat 9 n : NodeIx).toNat = n := by
  have hk := h.leaves_le
  rw [BitVec.toNat_ofNat]
  omega

theorem TreeInv.mem_leafSymbols (h : TreeInv s) {x : Byte} : x ∈ leafSymbols s ↔ ∃ i f, s.node.get i = .leaf x f := by
  simp only [leafSymbols, List.mem_map, List.mem_range]
  constructor
  · rintro ⟨n, hn, rfl⟩
    obtain ⟨y, f, hl⟩ := h.leaf (BitVec.ofNat 9 n) (by rwa [h.toNat_leafIx hn])
    exact ⟨_, f, by rw [hl, Node.sym]⟩
  · rintro ⟨i, f, hl⟩
    exact ⟨i.toNat, h.lt_of_leaf hl, by simp [hl, Node.sym]⟩

/-- Different leaves have different symbols (R41). -/
theorem TreeInv.leafSymbols_nodup (h : TreeInv s) : (leafSymbols s).Nodup := by
  refine List.pairwise_map.2 (List.pairwise_lt_range.imp_of_mem fun {m n} hm hn hmn heq => ?_)
  rw [List.mem_range] at hm hn
  have hlt := h.leaf_ascending (BitVec.ofNat 9 m) (BitVec.ofNat 9 n)
    (by rwa [h.toNat_leafIx hm, h.toNat_leafIx hn]) (by rwa [h.toNat_leafIx hn])
  exact absurd (congrArg BitVec.toNat heq) hlt.ne

/-- The generated table has `NLEAVES` entries (R144). -/
theorem TreeInv.length_entries (h : TreeInv s) (hc : s.leafCodes = some codes) :
    (allSymbols.filter (fun x => ((tableOf codes).get x).len != 0)).length = s.k := by
  have hperm : (allSymbols.filter (fun x => ((tableOf codes).get x).len != 0)).Perm (leafSymbols s) := by
    refine (List.perm_ext_iff_of_nodup (allIndices_nodup.filter _) h.leafSymbols_nodup).2 fun x => ?_
    rw [h.mem_leafSymbols, ← h.len_ne_zero_iff hc]
    simp
  rw [hperm.length_eq, leafSymbols, List.length_map, List.length_range]

/-! ## The command -/

/-- On a tree GENERATE completes with the table of the leaves' paths (R141, R142). -/
theorem TreeInv.exec_generate (h : TreeInv s) (he : s.errcode = 0) (ht : s.treeValid = true) :
    ∃ codes, s.leafCodes = some codes ∧ exec .generate s = .next (storeTable codes s) := by
  obtain ⟨codes, hc⟩ := h.leafCodes_some
  exact ⟨codes, hc, exec_generate_of he ht hc⟩

/-- What GENERATE has done on a tree once it has completed (R142). -/
theorem TreeInv.of_exec_generate (h : TreeInv s) {t : State} (he : s.errcode = 0) (ht : s.treeValid = true)
    (hx : exec .generate s = .next t) : ∃ codes, s.leafCodes = some codes ∧ t.codetab = tableOf codes := by
  obtain ⟨codes, hc, hexec⟩ := h.exec_generate he ht
  obtain rfl := Host.Outcome.next.inj (hexec.symm.trans hx)
  exact ⟨codes, hc, rfl⟩

end Sys2Proof.Machine
end

section
/-! PROOFS. The statements about GENERATE (spec/42_code_table_generator.md), settled. -/

open Sys2Proof Sys2Proof.Machine

/-- Settles O34: the traversal records every Leaf with its path, and the table's entries are the canonical entries of these. -/
theorem generateStoresThePaths : Obligations.GenerateStoresThePaths := by
  unfold Obligations.GenerateStoresThePaths
  intro s he ht h
  obtain ⟨codes, hc, hexec⟩ := h.exec_generate he ht
  refine ⟨tableOf codes, longestOf codes, hexec, h.isMaxLen_longestOf hc, fun x c => ?_, fun x j hlen hj => ?_,
    fun i c d => h.path_unique⟩
  · rw [codeIs_iff]
    exact h.entry_iff_leaf hc
  · change ((tableOf codes).get x).codeBit j = false
    rw [h.get_tableOf hc x]
    exact codeBit_ofCode_beyond _ j hj (by rwa [codeOf, code_length])

/-- Settles O35: a code that begins another would put one Leaf above another; the entries are the Leaves' symbols, which
BUILD takes from the non-zero counts. -/
theorem generatedTableIsAPrefixCode : Obligations.GeneratedTableIsAPrefixCode := by
  unfold Obligations.GeneratedTableIsAPrefixCode
  refine ⟨fun s t he ht h hx => ?_, ?_⟩
  · obtain ⟨codes, hc, htab⟩ := h.of_exec_generate he ht hx
    rw [htab]
    exact ⟨h.prefixFree_tableOf hc, h.length_entries hc⟩
  · rintro s t u he ⟨y, hy⟩ hb hg x
    have hok := runBuild_ok_of_exec he (fun hnil => hy (keysOf_eq_nil.1 hnil y)) hb
    have h := runBuild_treeInv hok
    obtain ⟨hbuilt, hvalid, herr⟩ := runBuild_ok_fields hok
    obtain ⟨codes, hc, htab⟩ := h.of_exec_generate (herr.trans he) hvalid hg
    rw [htab, h.len_ne_zero_iff hc, hbuilt.exists_leaf_iff h]

/-- Settles O33: GENERATE takes its branch without a tree, which raises the error. -/
theorem generateWithoutATreeRaisesNoTree : Obligations.GenerateWithoutATreeRaisesNoTree := by
  unfold Obligations.GenerateWithoutATreeRaisesNoTree
  intro s he ht
  exact exec_generate_next.2 (.inr (.inl ⟨he, ht, rfl⟩))

end

section
/-! PROOFS. PACK and ENCODE (spec/43_encoder_bit_packer.md R151, R152, R156): how PACK ends, and the phases inside ENCODE. -/

namespace Sys2Proof.Machine

variable {s t : State} {msg : List Byte}

/-! ## PACK's loop at one symbol -/

/-- A symbol without a code ends the loop (R152). -/
theorem packLoop_cons_of_noCode {t : CodeTable} {x : Byte} (i : Nat) (rest : List Byte) (out : List Bool)
    (h : (t.get x).len = 0) : packLoop t i (x :: rest) out = .error (.noCode, i) := if_pos h

/-- A symbol whose code does not fit behind the bits so far ends the loop (R152). -/
theorem packLoop_cons_of_capacity {t : CodeTable} {x : Byte} (i : Nat) (rest : List Byte) {out : List Bool}
    (h : (t.get x).len ≠ 0) (hcap : Config.bitCap < out.length + (t.get x).len.toNat) :
    packLoop t i (x :: rest) out = .error (.capacity, i) := by
  rw [packLoop, if_neg h, if_pos hcap]

/-- The loop reaches symbol `i` when the symbols before it pack. -/
theorem packLoop_reaches {t : CodeTable} {i : Nat} (hi : i < msg.length) (hcode : ∀ x ∈ msg.take i, (t.get x).len ≠ 0)
    (hfit : ((msg.take i).flatMap (codeOf t)).length ≤ Config.bitCap) :
    packLoop t 0 msg [] = packLoop t i (msg[i] :: msg.drop (i + 1)) ((msg.take i).flatMap (codeOf t)) := by
  have hpass := packLoop_append (i := 0) (m2 := msg.drop i) (out := []) hcode hfit
  rwa [List.take_append_drop, List.length_take, Nat.min_eq_left hi.le, Nat.zero_add, List.nil_append,
    List.drop_eq_getElem_cons hi] at hpass

/-- When every symbol has a code and the codes fit, the loop gives their concatenation (R152). -/
theorem packLoop_of_fits {t : CodeTable} (hcode : ∀ x ∈ msg, (t.get x).len ≠ 0)
    (hfit : (msg.flatMap (codeOf t)).length ≤ Config.bitCap) : packLoop t 0 msg [] = .ok (msg.flatMap (codeOf t)) :=
  packLoop_ok.2 ⟨hcode, rfl, fun _ => hfit⟩

/-- When every symbol has a code, the loop can only run out of room (R152). -/
theorem packLoop_error_of_coded {t : CodeTable} {i j : Nat} {out : List Bool} {e : ErrKind}
    (hcode : ∀ x ∈ msg, (t.get x).len ≠ 0) (h : packLoop t i msg out = .error (e, j)) : e = .capacity := by
  induction msg generalizing i out with
  | nil => cases h
  | cons x msg ih =>
    obtain ⟨hx, hrest⟩ := List.forall_mem_cons.1 hcode
    rw [packLoop, if_neg hx] at h
    split at h
    · cases h; rfl
    · exact ih hrest h

/-! ## The PACK command -/

/-- PACK stores the bits of a loop that succeeds (R152). -/
theorem exec_pack_of_ok {out : List Bool} (he : s.errcode = 0) (hm : Message s msg)
    (h : packLoop s.codetab 0 msg [] = .ok out) : exec .pack s = .next
      { s with bitbuf := s.bitbuf.writeBytes 0 (streamBytes out), bitlen := BitVec.ofNat 32 out.length } := by
  rw [exec_pack_of he hm, runPack, h]
  rfl

/-- PACK cleans up after a loop that fails (R152). -/
theorem exec_pack_of_error {e : ErrKind} {i : Nat} (he : s.errcode = 0) (hm : Message s msg)
    (h : packLoop s.codetab 0 msg [] = .error (e, i)) : exec .pack s = .next (packFail e i s) := by
  rw [exec_pack_of he hm, runPack, h]
  rfl

/-- PACK leaves the message and its length alone (R152). -/
theorem runPack_input (msg : List Byte) (s : State) :
    (runPack msg s).state.symbuf = s.symbuf ∧ (runPack msg s).state.symlen = s.symlen := by
  rcases runPack_cases msg s with ⟨out, -, h⟩ | ⟨e, i, -, h⟩
  · rw [h]; exact ⟨rfl, rfl⟩
  · rw [h]; exact ⟨rfl, rfl⟩

theorem runPack_treeValid (msg : List Byte) (s : State) : (runPack msg s).state.treeValid = s.treeValid :=
  congrArg (fun r => r.2.1) (runPack_treeRegs msg s)

/-- PACK of symbols that all have codes ends without an error or with CapacityError (R152). -/
theorem runPack_errcode_of_coded (he : s.errcode = 0) (hcode : ∀ x ∈ msg, (s.codetab.get x).len ≠ 0) :
    (runPack msg s).state.errcode = 0 ∨ (runPack msg s).state.errcode = 5 := by
  rcases runPack_cases msg s with ⟨out, -, h⟩ | ⟨e, i, hloop, h⟩
  · rw [h]; exact .inl he
  · obtain rfl := packLoop_error_of_coded hcode hloop
    rw [h]; exact .inr rfl

/-! ## The phases inside ENCODE -/

theorem Message.congr (hm : Message s msg) (hbuf : t.symbuf = s.symbuf) (hlen : t.symlen = s.symlen) : Message t msg := by
  rwa [Message, hbuf, hlen]

theorem message_nil (h : s.symlen = 0) : Message s [] := ⟨by rw [h]; rfl, fun _ hi => absurd hi (Nat.not_lt_zero _)⟩

/-- BUILD leaves the message and its length alone (R121). -/
theorem runBuild_input (s : State) :
    (runBuild s).state.symbuf = s.symbuf ∧ (runBuild s).state.symlen = s.symlen := by
  rcases runBuild_cases s with ⟨-, h⟩ | ⟨-, h⟩
  · rw [h]; exact ⟨rfl, rfl⟩
  · rw [h]; exact ⟨rfl, rfl⟩

/-- Every symbol of a message is counted (R112). -/
theorem Message.get_countSymbols_ne_zero (hm : Message s msg) {x : Byte} (hx : x ∈ msg) : (countSymbols msg).get x ≠ 0 := by
  intro hzero
  have hcount := hm.toNat_get_countSymbols x
  rw [hzero] at hcount
  exact (List.count_pos_iff.2 hx).ne hcount

/-- After the COUNT of a non-empty message BUILD succeeds (R156). -/
theorem Message.runBuild_runCount_ok (hm : Message s msg) (hne : msg ≠ []) : ∃ t, runBuild (runCount msg s) = .ok t := by
  obtain ⟨x, hx⟩ := List.exists_mem_of_ne_nil msg hne
  rcases runBuild_cases (runCount msg s) with ⟨hnil, -⟩ | ⟨-, hok⟩
  · exact absurd (keysOf_eq_nil.1 hnil x) (hm.get_countSymbols_ne_zero hx)
  · exact ⟨_, hok⟩

/-- The tree of a message's counts has a leaf, and so a code, for every symbol of the message (R157). -/
theorem Message.coded (hm : Message s msg) (hbuild : runBuild (runCount msg s) = .ok t)
    {codes : List (Byte × List Bool)} (hc : t.leafCodes = some codes) : ∀ x ∈ msg, ((tableOf codes).get x).len ≠ 0 := by
  intro x hx
  have htree := runBuild_treeInv hbuild
  obtain ⟨hbuilt, -⟩ := runBuild_ok_fields hbuild
  exact (htree.len_ne_zero_iff hc).2 ((hbuilt.exists_leaf_iff htree).2 (hm.get_countSymbols_ne_zero hx))

/-- The phases of ENCODE on a non-empty message (R156): BUILD succeeds on the counts, GENERATE records a code for every
symbol, and PACK then has the message it began with. -/
theorem Message.encode_phases (hm : Message s msg) (he : s.errcode = 0) (hne : msg ≠ []) :
    ∃ t codes, runBuild (runCount msg s) = .ok t ∧ t.leafCodes = some codes ∧ t.errcode = 0 ∧ t.treeValid = true ∧
      t.symbuf = s.symbuf ∧ t.symlen = s.symlen ∧ ∀ x ∈ msg, ((tableOf codes).get x).len ≠ 0 := by
  obtain ⟨t, hbuild⟩ := hm.runBuild_runCount_ok hne
  obtain ⟨-, hvalid, herr⟩ := runBuild_ok_fields hbuild
  obtain ⟨hbuf, hlen⟩ := runBuild_input (runCount msg s)
  obtain ⟨codes, hc⟩ := (runBuild_treeInv hbuild).leafCodes_some
  rw [hbuild] at hbuf hlen
  exact ⟨t, codes, hbuild, hc, herr.trans he, hvalid, hbuf, hlen, hm.coded hbuild hc⟩

/-- BUILD after the COUNT of the empty message clears the tree and raises the error (R124, R156). -/
theorem runBuild_runCount_nil (s : State) :
    runBuild (runCount [] s) = .error (raise .emptyInput 0 (clearTree (runCount [] s))) := by
  rcases runBuild_cases (runCount [] s) with ⟨-, h⟩ | ⟨hne, -⟩
  · exact h
  · exact absurd (keysOf_eq_nil.2 (Table.get_fill (w := 8) 0)) hne

end Sys2Proof.Machine
end

section
/-! PROOFS. The statements about PACK and ENCODE (spec/43_encoder_bit_packer.md), settled. -/

open Sys2Proof Sys2Proof.Machine

/-- Settles O40: every phase of a non-empty message completes, and PACK finds a code for every symbol; an empty message ends
at BUILD; the gate ignores ENCODE while an error is pending. -/
theorem encodeRunsTheFourPhases : Obligations.EncodeRunsTheFourPhases := by
  unfold Obligations.EncodeRunsTheFourPhases
  refine ⟨fun s msg he hlen hm => ?_, fun s he hlen => ?_, fun s he => exec_of_pending he rfl⟩
  · have hne : msg ≠ [] := by
      rintro rfl
      exact hlen (BitVec.eq_of_toNat_eq hm.1.symm)
    obtain ⟨t, codes, hbuild, hc, het, hvalid, hbuf, hsym, hcode⟩ := hm.encode_phases he hne
    obtain ⟨hbuf4, hsym4⟩ := runPack_input msg (storeTable codes t)
    refine ⟨runCount msg s, t, storeTable codes t, (runPack msg (storeTable codes t)).state, exec_count_of he hm, ?_,
      exec_generate_of het hvalid hc, exec_pack_of het (hm.congr hbuf hsym),
      exec_encode_next.2 (.inr ⟨he, msg, hm, .inr ⟨t, codes, hbuild, hc, rfl⟩⟩),
      hbuf4.trans hbuf, hsym4.trans hsym, (runPack_treeValid msg _).trans hvalid, runPack_errcode_of_coded het hcode⟩
    rw [exec_build_of (s := runCount msg s) he, hbuild]
    rfl
  · refine ⟨countSymbols [], freeArena, emptyTable, Table.get_fill 0, Table.get_fill Node.free, fun x => ?_,
      exec_encode_next.2 (.inr ⟨he, [], message_nil hlen, .inl ⟨_, runBuild_runCount_nil s, rfl⟩⟩)⟩
    rw [emptyTable, Table.get_fill]
    exact ⟨rfl, Table.get_fill 0⟩

/-- Settles O38: the loop appends every code, and the stored bytes read back as its bits with zeros behind them. -/
theorem packConcatenatesTheCodes : Obligations.PackConcatenatesTheCodes := by
  unfold Obligations.PackConcatenatesTheCodes
  intro s msg he hm hcode hfit
  have hloop := packLoop_of_fits hcode hfit
  refine ⟨_, exec_pack_of_ok he hm hloop, fun p hp => ?_, fun p hp hend => ?_,
    fun a ha => read_streamBytes_beyond _ _ a ha⟩
  · obtain ⟨b, hread, hbit⟩ := read_streamBytes s.bitbuf (msg.flatMap (codeOf s.codetab)) p (by omega)
    exact ⟨b, hread, hbit.trans (List.getD_eq_getElem _ _ hp)⟩
  · obtain ⟨b, hread, hbit⟩ := read_streamBytes s.bitbuf _ p hend
    exact ⟨b, hread, hbit.trans (List.getD_eq_default _ _ hp)⟩

/-- Settles O39: the loop reaches symbol `i` with the codes before it packed, and ends there, the missing code tested first. -/
theorem packFailsAtTheFirstBadSymbol : Obligations.PackFailsAtTheFirstBadSymbol := by
  unfold Obligations.PackFailsAtTheFirstBadSymbol
  intro s msg i hi he hm hcode hfit
  have hreach := packLoop_reaches hi hcode hfit
  refine ⟨fun hnone => ?_, fun hsome hcap => ?_⟩
  · exact ⟨Memory.unspecAll, Memory.read_unspecAll,
      exec_pack_of_error he hm (hreach.trans (packLoop_cons_of_noCode i _ _ hnone))⟩
  · exact ⟨Memory.unspecAll, Memory.read_unspecAll,
      exec_pack_of_error he hm (hreach.trans (packLoop_cons_of_capacity i _ hsome hcap))⟩

end

section
/-! PROOFS. DECODE (spec/44_decoder.md R171 to R175): the look-up, one step of the decoder on each of its four ways, and how a
stream that parses so far goes on and ends. -/

namespace Sys2Proof.Machine

/-! ## The look-up -/

theorem toNat_getElem_allIndices {w n : Nat} (h : n < (allIndices w).length) : ((allIndices w)[n]).toNat = n := by
  rw [getElem_allIndices, BitVec.toNat_ofNat, Nat.mod_eq_of_lt (by rwa [length_allIndices] at h)]

theorem toNat_lt_length_allIndices {w : Nat} (x : BitVec w) : x.toNat < (allIndices w).length :=
  x.isLt.trans_eq length_allIndices.symm

theorem getElem_allIndices_toNat {w : Nat} (x : BitVec w) :
    (allIndices w)[x.toNat]'(toNat_lt_length_allIndices x) = x := BitVec.eq_of_toNat_eq (toNat_getElem_allIndices _)

/-- A search through the indices in ascending order finds the least index that passes. -/
theorem find?_allIndices_eq_some {w : Nat} {q : BitVec w → Bool} {x : BitVec w} :
    (allIndices w).find? q = some x ↔ q x = true ∧ ∀ y : BitVec w, y.toNat < x.toNat → ¬ q y = true := by
  simp only [List.find?_eq_some_iff_getElem, Bool.not_eq_true', Bool.not_eq_true]
  refine and_congr_right fun _ => ⟨?_, fun hleast => ?_⟩
  · rintro ⟨i, hi, rfl, hbefore⟩ y hy
    have hno := hbefore y.toNat (by rwa [toNat_getElem_allIndices] at hy)
    rwa [getElem_allIndices_toNat] at hno
  · refine ⟨x.toNat, toNat_lt_length_allIndices x, getElem_allIndices_toNat x, fun j hj => hleast _ ?_⟩
    rwa [toNat_getElem_allIndices]

/-- The look-up searches the symbols in ascending order (R171). -/
theorem matchCode_eq_find? (t : CodeTable) (a : List Bool) :
    matchCode t a = allSymbols.find? (fun x => (t.get x).matches a) := by
  rw [matchCode, Table.entries_eq_map, List.find?_map, Option.map_map]
  exact congrFun Option.map_id _

theorem matchCode_eq_some {t : CodeTable} {a : List Bool} {x : Byte} : matchCode t a = some x ↔ IsMatch t a x := by
  rw [matchCode_eq_find?, allSymbols, find?_allIndices_eq_some]
  simp only [matches_iff, IsMatch]

theorem matchCode_eq_none {t : CodeTable} {a : List Bool} : matchCode t a = none ↔ ∀ x, ¬ CodeIs t x a := by
  rw [matchCode_eq_find?, allSymbols, List.find?_eq_none]
  simp only [mem_allIndices, matches_iff, forall_const]

/-! ## One step of the decoder -/

section

variable {t : CodeTable} {M : Nat} {d : Decoder} {v : Bool}

/-- A match with room in the output emits its symbol and empties the accumulator (R173). -/
theorem decodeStep_of_match {x : Byte} (p : Nat) (hmatch : IsMatch t (d.acc ++ [v]) x) (hroom : d.out.length < Config.symCap) :
    decodeStep t M d v p = .ok { acc := [], out := d.out ++ [x] } := by
  simp only [decodeStep, matchCode_eq_some.2 hmatch, if_neg hroom.ne]

/-- A match that finds the output full ends the run (R173). -/
theorem decodeStep_of_full {x : Byte} (p : Nat) (hmatch : IsMatch t (d.acc ++ [v]) x) (hfull : d.out.length = Config.symCap) :
    decodeStep t M d v p = .error (.capacity, p - d.acc.length) := by
  simp only [decodeStep, matchCode_eq_some.2 hmatch, if_pos hfull, List.length_append, List.length_singleton,
    Nat.add_sub_add_right]

/-- Without a match an accumulator no longer than the longest code waits for the next bit (R173). -/
theorem decodeStep_of_wait (p : Nat) (hnone : ∀ x, ¬ CodeIs t x (d.acc ++ [v])) (hlen : d.acc.length + 1 ≤ M) :
    decodeStep t M d v p = .ok { acc := d.acc ++ [v], out := d.out } := by
  simp only [decodeStep, matchCode_eq_none.2 hnone, List.length_append, List.length_singleton, if_neg hlen.not_gt]

/-- Without a match an accumulator longer than the longest code ends the run (R173, R175). -/
theorem decodeStep_of_overlong (p : Nat) (hnone : ∀ x, ¬ CodeIs t x (d.acc ++ [v])) (hlen : M < d.acc.length + 1) :
    decodeStep t M d v p = .error (.corruptStream, p - d.acc.length) := by
  simp only [decodeStep, matchCode_eq_none.2 hnone, List.length_append, List.length_singleton, if_pos hlen,
    Nat.add_sub_add_right]

end

/-! ## The stream -/

section

variable {t : CodeTable} {M : Nat} {bits acc : List Bool} {out : List Byte}

/-- The loop runs through the bits of a parse and holds its output and accumulator (R172, R173). -/
theorem Parse.decodeLoop_eq (h : Parse t M out acc bits) :
    decodeLoop t M 0 bits { acc := [], out := [] } = .ok { acc := acc, out := out } := by
  induction h with
  | start => rfl
  | emit _ hmatch hroom ih => rw [decodeLoop_concat, ih]; exact decodeStep_of_match _ hmatch hroom
  | keep _ hnone hlen ih => rw [decodeLoop_concat, ih]; exact decodeStep_of_wait _ hnone hlen

/-- No accumulator that waits is longer than the longest code (R175). -/
theorem Parse.length_acc_le (h : Parse t M out acc bits) : acc.length ≤ M := by
  cases h with
  | start => exact Nat.zero_le M
  | emit => exact Nat.zero_le M
  | keep _ _ hlen => rwa [List.length_append, List.length_singleton]

/-- A stream that ends at a code boundary decodes to the symbols emitted (R174). -/
theorem Parse.decodeStream_of_boundary (h : Parse t M out [] bits) (hM : IsMaxLen t M) : decodeStream t bits = .ok out := by
  obtain rfl := hM.unique (longestCode_isMaxLen t)
  rw [decodeStream, h.decodeLoop_eq]
  rfl

/-- A stream that ends inside a code is truncated (R174). -/
theorem Parse.decodeStream_of_remainder (h : Parse t M out acc bits) (hM : IsMaxLen t M) (hacc : acc ≠ []) :
    decodeStream t bits = .error (.truncatedStream, bits.length - acc.length) := by
  obtain rfl := hM.unique (longestCode_isMaxLen t)
  rw [decodeStream, h.decodeLoop_eq]
  exact if_neg hacc

/-- The first step that fails gives the error of the stream, whatever follows (R172). -/
theorem Parse.decodeStream_of_error {v : Bool} {e : ErrKind × Nat} (h : Parse t M out acc bits) (hM : IsMaxLen t M)
    (hstep : decodeStep t M { acc := acc, out := out } v bits.length = .error e) (rest : List Bool) :
    decodeStream t (bits ++ v :: rest) = .error e := by
  obtain rfl := hM.unique (longestCode_isMaxLen t)
  have hloop : decodeLoop t (longestCode t) bits.length (v :: rest) { acc := acc, out := out } = .error e := by
    rw [decodeLoop, hstep]
  rw [decodeStream, decodeLoop_append, h.decodeLoop_eq, Nat.zero_add]
  simp only [hloop]

end

/-! ## The DECODE command -/

section

variable {s : State} {M : Nat} {bits : List Bool}

/-- DECODE stores the symbols of a stream that decodes (R172). -/
theorem exec_decode_of_ok {out : List Byte} (he : s.errcode = 0) (hs : Stream s bits) (hM : IsMaxLen s.codetab M)
    (h : decodeStream s.codetab bits = .ok out) : exec .decode s = .next
      { s with
        symbuf := s.symbuf.writeBytes 0 out, symlen := BitVec.ofNat 32 out.length, maxlen := BitVec.ofNat 32 M } := by
  obtain rfl := hM.unique (longestCode_isMaxLen s.codetab)
  rw [exec_decode_of he hs]
  simp only [runDecode, h]
  rfl

/-- DECODE cleans up after a stream that fails (R172). -/
theorem exec_decode_of_error {e : ErrKind} {x : Nat} (he : s.errcode = 0) (hs : Stream s bits) (hM : IsMaxLen s.codetab M)
    (h : decodeStream s.codetab bits = .error (e, x)) : exec .decode s = .next
      { s with
        symbuf := Memory.unspecAll, symlen := 0, maxlen := BitVec.ofNat 32 M, errcode := e.code
        errinfo := BitVec.ofNat 32 x } := by
  obtain rfl := hM.unique (longestCode_isMaxLen s.codetab)
  rw [exec_decode_of he hs]
  simp only [runDecode, h]
  rfl

end

/-- The code of each of DECODE's errors (R172, R200). -/
theorem decodeStream_error_code {t : CodeTable} {bits : List Bool} {e : ErrKind} {x : Nat}
    (h : decodeStream t bits = .error (e, x)) : e.code = 2 ∨ e.code = 3 ∨ e.code = 5 := by
  rcases (decodeStream_inv t bits).2 e x h with rfl | rfl | rfl <;> decide

end Sys2Proof.Machine
end

section
/-! PROOFS. The statements about DECODE (spec/44_decoder.md R171 to R175), settled. -/

open Sys2Proof Sys2Proof.Machine

/-- Settles O43: the look-up is a search for the whole code through the symbols in ascending order. -/
theorem matchIsExactAndLeast : Obligations.MatchIsExactAndLeast := by
  unfold Obligations.MatchIsExactAndLeast
  exact fun t a _ => ⟨fun x => matchCode_eq_some, matchCode_eq_none⟩

/-- Settles O44: the loop ends with the parse's accumulator, and whether that is empty decides. -/
theorem decodeEndsAtACodeBoundaryOrTruncated : Obligations.DecodeEndsAtACodeBoundaryOrTruncated := by
  unfold Obligations.DecodeEndsAtACodeBoundaryOrTruncated
  intro s bits acc out M he hs hM hp
  refine ⟨?_, fun hacc => ?_⟩
  · rintro rfl
    refine ⟨_, exec_decode_of_ok he hs hM (hp.decodeStream_of_boundary hM), fun i hi => ?_, fun a ha => ?_⟩
    · rw [Memory.read_writeBytes, dif_pos ⟨Nat.zero_le i, by omega⟩]
      rfl
    · rw [Memory.read_writeBytes, dif_neg (by omega)]
  · exact ⟨_, Memory.read_unspecAll, exec_decode_of_error he hs hM (hp.decodeStream_of_remainder hM hacc)⟩

/-- Settles O45: the step that makes the accumulator too long fails, and every shorter remainder only waits. -/
theorem decodeReportsACorruptStream : Obligations.DecodeReportsACorruptStream := by
  unfold Obligations.DecodeReportsACorruptStream
  refine ⟨fun s seen rest acc v out M he hs hM hp hnone hlen => ?_, fun s bits acc out M he hs hM hp hacc => ?_⟩
  · have hstep := decodeStep_of_overlong (d := ⟨acc, out⟩) seen.length hnone hlen
    exact ⟨_, Memory.read_unspecAll, exec_decode_of_error he hs hM (hp.decodeStream_of_error hM hstep rest)⟩
  · exact ⟨hp.length_acc_le, _, exec_decode_of_error he hs hM (hp.decodeStream_of_remainder hM hacc), rfl⟩

/-- Settles O46: the step that matches with `SYM_CAP` symbols emitted fails. -/
theorem decodeReportsAFullSymbolBuffer : Obligations.DecodeReportsAFullSymbolBuffer := by
  unfold Obligations.DecodeReportsAFullSymbolBuffer
  intro s seen rest acc v out x M he hs hM hp hmatch hfull
  have hstep := decodeStep_of_full (M := M) (d := ⟨acc, out⟩) seen.length hmatch hfull
  exact ⟨_, Memory.read_unspecAll, exec_decode_of_error he hs hM (hp.decodeStream_of_error hM hstep rest)⟩

/-- Settles O47: a stream decodes to symbols that fit `SYMBUF`, or fails with one of the three errors. -/
theorem decodeAlwaysCompletes : Obligations.DecodeAlwaysCompletes := by
  unfold Obligations.DecodeAlwaysCompletes
  intro s bits he hs
  have hM := longestCode_isMaxLen s.codetab
  cases hd : decodeStream s.codetab bits with
  | ok out =>
    have hfits : out.length ≤ 4096 := (decodeStream_inv s.codetab bits).1 out hd
    have hlen : (BitVec.ofNat 32 out.length).toNat ≤ 4096 := (Nat.mod_le _ _).trans hfits
    refine ⟨_, _, s.errinfo, _, s.errcode, exec_decode_of_ok he hs hM hd, hM, hlen, .inl he, ?_, fun _ => rfl⟩
    exact fun hne => absurd he hne
  | error err =>
    refine ⟨_, _, _, _, _, exec_decode_of_error (e := err.1) (x := err.2) he hs hM hd, hM, Nat.zero_le _,
      .inr (decodeStream_error_code hd), fun _ => rfl, ?_⟩
    exact fun hzero => absurd hzero err.1.code_ne_zero

end

section
/-! PROOFS. The system commands (spec/45_system_commands.md): what CLRERR and SRESET leave. -/

namespace Sys2Proof.Machine

/-- With no error pending there is nothing to acknowledge (R191, R27). -/
theorem Inv.acknowledge_eq_self {s : State} (hinv : Inv s) (he : s.errcode = 0) : acknowledge s = s := by
  have hinfo := hinv.errinfo_clear he
  obtain ⟨⟩ := s
  simp only at he hinfo
  rw [acknowledge, he, hinfo]

/-- `STATUS` reads 0 with no error pending and no valid tree (R25). -/
theorem status_eq_zero {s : State} (he : s.errcode = 0) (ht : s.treeValid = false) : s.status = 0 := by
  rw [State.status, State.busy, State.err, he, ht]
  decide

@[simp] theorem emptyTable_get (x : Byte) : emptyTable.get x = CodeEntry.empty := Table.get_fill _ x

@[simp] theorem CodeEntry.empty_len : CodeEntry.empty.len = 0 := rfl

@[simp] theorem CodeEntry.empty_cw_get (q : BitVec 3) : CodeEntry.empty.cw.get q = 0 := Table.get_fill 0 q

@[simp] theorem freeArena_get (i : NodeIx) : freeArena.get i = .free := Table.get_fill _ i

end Sys2Proof.Machine
end

section
/-! PROOFS. The statements about the system commands (spec/45_system_commands.md R190 to R192), settled. -/

open Sys2Proof Sys2Proof.Machine

/-- Settles O18: NOP's meaning is the state it is given. -/
theorem nopChangesNothing : Obligations.NopChangesNothing := by
  unfold Obligations.NopChangesNothing
  exact ⟨rfl, exec_nop⟩

/-- Settles O19: CLRERR is the acknowledgement, and without an error the invariant has `ERRINFO` already 0 (R27). -/
theorem clrerrClearsOnlyTheError : Obligations.ClrerrClearsOnlyTheError := by
  unfold Obligations.ClrerrClearsOnlyTheError
  refine ⟨rfl, fun s => ⟨exec_clrerr s, ?_, fun hinv he => ?_⟩⟩
  · rw [getLsbD_status, if_pos rfl]
    rfl
  · rw [exec_clrerr, hinv.acknowledge_eq_self he]

/-- Settles O20: SRESET is the soft reset, whose fields are read off one by one and whose tables are filled with their reset
entry. -/
theorem sresetKeepsOnlyTheBuffers : Obligations.SresetKeepsOnlyTheBuffers := by
  unfold Obligations.SresetKeepsOnlyTheBuffers
  refine ⟨rfl, fun s => ⟨softReset s, exec_sreset s, rfl, rfl, rfl, rfl, rfl, rfl, rfl, rfl, rfl,
    status_eq_zero (softReset_errcode s) (softReset_treeValid s), fun x => ?_, freeArena_get, rfl, rfl, rfl, rfl, rfl⟩⟩
  have hentry : (softReset s).codetab.get x = CodeEntry.empty := emptyTable_get x
  rw [hentry]
  exact ⟨Table.get_fill 0 x, CodeEntry.empty_len, CodeEntry.empty_cw_get⟩

end

section
/-! PROOFS. Refused accesses and the pending error (spec/60_exceptions.md): what the port leaves when it refuses, and what a
step keeps while an error is pending. -/

namespace Sys2Proof.Machine

/-! ## Refused accesses -/

/-- A refused read only sets the answer: its offset has no location, or one that is not readable (R210). -/
theorem hostRead_of_refused {off : Offset} (h : RefusedRead off) (s : State) :
    hostRead off s = s.answered Answer.readRefused := by
  unfold hostRead
  cases hl : decodeOffset off with
  | none => rfl
  | some l =>
    have hr : l.readable = false := (refusedRead_iff hl).1 h
    simp only [hr, Bool.false_eq_true, if_false]

/-- A refused write only sets the answer: its offset has no location, or one that does not take the value (R210). -/
theorem hostWrite_of_refused {off : Offset} {v : Word} (h : RefusedWrite off v) (s : State) :
    hostWrite off v s = .next (s.answered Answer.writeRefused) := by
  unfold hostWrite
  cases hl : decodeOffset off with
  | none => rfl
  | some l =>
    have hdeny : ¬ (l.writable = true ∧ l.legalValue v = true) := (refusedWrite_iff hl v).1 h
    have hcmd : l ≠ .cmd := by
      rintro rfl
      exact hdeny ⟨rfl, rfl⟩
    simp only [if_neg hcmd, Bool.and_eq_true, if_neg hdeny]

/-! ## The pending error -/

/-- The error an engine holds: its code and its information (R26, R27). -/
def State.error (s : State) : BitVec 4 × Word := (s.errcode, s.errinfo)

@[simp] theorem error_answered (s : State) (a : Answer) : (s.answered a).error = s.error := rfl

@[simp] theorem error_writeLoc (s : State) (l : Loc) (v : Word) : (writeLoc s l v).error = s.error := by
  cases l <;> rfl

theorem error_hostRead (off : Offset) (s : State) : (hostRead off s).error = s.error := by
  obtain ⟨a, d, h, -⟩ := hostRead_frame off s
  rw [h]
  rfl

/-- Of the commands only CLRERR and SRESET change a pending error: NOP changes nothing, and the gate ignores the operation
commands (R205, R206). -/
theorem exec_changes_pending_error {i : Instr} {s t : State} (hpend : s.errcode ≠ 0) (h : exec i s = .next t)
    (hne : t.error ≠ s.error) : i ∈ [Instr.clrerr, .sreset] := by
  have hkept : exec i s ≠ .next s := fun hs => hne (by rw [Host.Outcome.next.inj (h.symm.trans hs)])
  cases i with
  | clrerr | sreset => decide
  | nop => exact absurd (exec_nop s) hkept
  | count | build | generate | pack | encode | decode => exact absurd (exec_of_pending hpend rfl) hkept

/-- Of the writes to `CMD` only the words of CLRERR and SRESET change a pending error: an illegal word raises nothing over
it (R95, R206). -/
theorem writeCommand_changes_pending_error {w : Word} {s t : State} (hpend : s.errcode ≠ 0)
    (h : writeCommand w s = .next t) (hne : t.error ≠ s.error) : w ∈ [0x01#32, 0x02#32] := by
  have hwords : ∀ i ∈ [Instr.clrerr, .sreset], encode i ∈ [0x01#32, 0x02#32] := by decide
  rcases writeCommand_next.1 h with ⟨-, rfl⟩ | ⟨i, u, hd, hx, rfl⟩
  · rw [badCommand_pending w hpend] at hne
    exact absurd rfl hne
  · rw [decode_eq_ok hd]
    exact hwords i (exec_changes_pending_error hpend hx hne)

/-- Of the host writes only those of CLRERR and SRESET to `CMD` change a pending error (R206). -/
theorem hostWrite_changes_pending_error {off : Offset} {v : Word} {s t : State} (hpend : s.errcode ≠ 0)
    (h : hostWrite off v s = .next t) (hne : t.error ≠ s.error) : off = 0#16 ∧ v ∈ [0x01#32, 0x02#32] := by
  rcases hostWrite_next h with rfl | ⟨hoff, hc⟩ | ⟨l, -, -, -, -, rfl⟩
  · exact absurd (error_answered s _) hne
  · exact ⟨decodeOffset_eq_cmd hoff, writeCommand_changes_pending_error hpend hc hne⟩
  · exact absurd (error_writeLoc s l v) hne

/-! ## The idle engine -/

theorem step_of_idle {s : State} (h : s.pending = []) : step s = .next s := by
  simp only [step, stepEvent, h]

end Sys2Proof.Machine
end

section
/-! PROOFS. The statements about refusals, errors and the idle engine (spec/60_exceptions.md), settled. -/

open Sys2Proof Sys2Proof.Machine

/-- Settles O7: a step on an access is the port's, and the port's refusal only sets the answer. -/
theorem refusedAccessChangesNothing : Obligations.RefusedAccessChangesNothing := by
  unfold Obligations.RefusedAccessChangesNothing
  intro s off v he
  refine ⟨fun hread => ?_, fun hwrite => ?_⟩
  · rw [step_ask he, performAccess, hostRead_of_refused hread]
    rfl
  · rw [step_ask he, performAccess, hostWrite_of_refused hwrite]
    rfl

/-- Settles O56: of the events a step can take, reads keep the error and writes change it by CLRERR and SRESET only. -/
theorem pendingErrorStaysUntilAcknowledged : Obligations.PendingErrorStaysUntilAcknowledged := by
  unfold Obligations.PendingErrorStaysUntilAcknowledged
  intro s t hpend hstep hdiff
  have hne : t.error ≠ s.error := fun h => by
    obtain ⟨hcode, hinfo⟩ := Prod.mk.inj h
    exact hdiff.elim (absurd hcode) (absurd hinfo)
  rcases step_next hstep with ⟨-, rfl⟩ | ⟨rest, hp, -⟩ | ⟨off, rest, -, -, rfl⟩ | ⟨off, v, rest, hp, -, hw⟩
  · exact absurd rfl hne
  · exact ⟨rest, .inl hp⟩
  · exact absurd (error_hostRead off _) hne
  · obtain ⟨rfl, hv⟩ := hostWrite_changes_pending_error (s := { s with pending := rest }) hpend hw hne
    exact ⟨rest, .inr ⟨v, hv, hp⟩⟩

/-- Settles O6: with no event there is nothing to perform. -/
theorem idleEngineHoldsItsState : Obligations.IdleEngineHoldsItsState := by
  unfold Obligations.IdleEngineHoldsItsState
  exact fun s hidle => step_of_idle hidle

/-- Settles O17: the six are the commands that are not system commands, and the gate ignores those. -/
theorem pendingErrorIgnoresOperations : Obligations.PendingErrorIgnoresOperations := by
  unfold Obligations.PendingErrorIgnoresOperations
  intro s i hpend hi
  have hop : ∀ j ∈ [Instr.count, .build, .generate, .pack, .encode, .decode], j.isSystem = false := by decide
  exact exec_of_pending hpend (hop i hi)

end

section
/-! PROOFS. The reset input (spec/70_reset_and_hazards.md R230), and the operation commands on an empty message, an empty stream
and the state after reset (R233). -/

namespace Sys2Proof.Machine

variable {s : State}

/-- The reset input is taken in every state: no `ERRCODE` stands before it (R211, R230). -/
theorem step_rst (s : State) : step { s with pending := .rst :: s.pending } = .next (hardReset s) := rfl

/-! ## Commands without input -/

theorem stream_nil (h : s.bitlen = 0) : Stream s [] := ⟨by rw [h]; rfl, fun _ hp => absurd hp (Nat.not_lt_zero _)⟩

theorem emptyTable_isMaxLen : IsMaxLen emptyTable 0 := ⟨fun x => by simp, .inl rfl⟩

/-- COUNT of the empty message zeroes every count (R112). -/
theorem exec_count_of_empty (he : s.errcode = 0) (hlen : s.symlen = 0) :
    exec .count s = .next { s with freq := Table.fill 8 0 } :=
  exec_count_of he (message_nil hlen)

/-- PACK of the empty message leaves the empty stream and stores no byte (R152). -/
theorem exec_pack_of_empty (he : s.errcode = 0) (hlen : s.symlen = 0) : exec .pack s = .next { s with bitlen := 0 } :=
  exec_pack_of_ok he (message_nil hlen) rfl

/-- ENCODE of the empty message ends at BUILD, with the table cleared (R156). -/
theorem exec_encode_of_empty (he : s.errcode = 0) (hlen : s.symlen = 0) :
    exec .encode s = .next (encodeEmpty (raise .emptyInput 0 (clearTree (runCount [] s)))) :=
  exec_encode_next.2 (.inr ⟨he, [], message_nil hlen, .inl ⟨_, runBuild_runCount_nil s, rfl⟩⟩)

/-- DECODE of the empty stream leaves the empty message and stores no byte (R172, R174). -/
theorem exec_decode_of_empty {M : Nat} (he : s.errcode = 0) (hlen : s.bitlen = 0) (hM : IsMaxLen s.codetab M) :
    exec .decode s = .next { s with symlen := 0, maxlen := BitVec.ofNat 32 M } :=
  exec_decode_of_ok he (stream_nil hlen) hM (Parse.start.decodeStream_of_boundary hM)

end Sys2Proof.Machine
end

section
/-! PROOFS. The statements about reset (spec/70_reset_and_hazards.md R230, R233), settled. -/

open Sys2Proof Sys2Proof.Machine

/-- Settles O22: the step performs the reset event, whose result is the reset state beside the model's own fields. -/
theorem hardwareResetFromAnyState : Obligations.HardwareResetFromAnyState := by
  unfold Obligations.HardwareResetFromAnyState
  exact step_rst

/-- Settles O23: the reset state has an empty message, an empty stream, no count, no tree and no code, and what the commands
store is already there. -/
theorem commandsOnTheResetState : Obligations.CommandsOnTheResetState := by
  unfold Obligations.CommandsOnTheResetState
  refine ⟨exec_count_of_empty rfl rfl, exec_pack_of_empty rfl rfl, ?build, exec_encode_of_empty rfl rfl,
    generateWithoutATreeRaisesNoTree State.reset rfl rfl, exec_decode_of_empty rfl rfl emptyTable_isMaxLen⟩
  case build =>
    have hbuild : runBuild State.reset = .error (raise .emptyInput 0 (clearTree State.reset)) :=
      runBuild_runCount_nil State.reset
    rw [exec_build_of rfl, hbuild]
    rfl

end

section
/-! PROOFS. The invariant of every state (spec/10_state.md sections 2 to 4): what it depends on, and that every phase, every
command and every host access keeps it. -/

namespace Sys2Proof.Machine

variable {s t : State}

/-! ## What the invariant depends on -/

/-- The tree invariants speak of the tree and its registers only. -/
theorem TreeInv.of_treeRegs (h : TreeInv s) (heq : t.treeRegs = s.treeRegs) : TreeInv t := by
  obtain ⟨⟩ := s
  obtain ⟨⟩ := t
  simp only [State.treeRegs, Prod.mk.injEq] at heq
  obtain ⟨rfl, rfl, rfl, rfl, rfl⟩ := heq
  exact ⟨h.leaves_pos, h.leaves_le, h.nnodes_eq, h.root_eq, h.leaf, h.leaf_ascending, h.placeholder, h.internal, h.free,
    h.parent, h.root_orphan⟩

theorem NoTree.of_treeRegs (h : NoTree s) (heq : t.treeRegs = s.treeRegs) : NoTree t := by
  simp only [State.treeRegs, Prod.mk.injEq] at heq
  obtain ⟨hnode, -, hleaves, hnodes, hroot⟩ := heq
  rwa [NoTree, hleaves, hnodes, hroot, hnode]

/-- `ERRCODE` is a legal code, and `ERRINFO` is 0 without an error (U4, R27). -/
def ErrorLegal (s : State) : Prop := s.errcode.toNat ≤ 7 ∧ (s.errcode = 0 → s.errinfo = 0)

/-- The length registers, `MAXLEN` and the two buffers are in their ranges (R28, R29, R33, R42, R43). -/
structure InRange (s : State) : Prop where
  symlen_le : s.symlen.toNat ≤ Config.symCap
  bitlen_le : s.bitlen.toNat ≤ Config.bitCap
  maxlen_le : s.maxlen.toNat ≤ Config.lenMax
  symbuf_wf : s.symbuf.wf Config.symCap
  bitbuf_wf : s.bitbuf.wf Config.bitBytes

/-- The arena holds a tree exactly as `TREE_VALID` says (R41). -/
def TreeAsSaid (s : State) : Prop := (s.treeValid = true → TreeInv s) ∧ (s.treeValid = false → NoTree s)

/-- The invariant is its three parts, each about fields of its own. -/
theorem inv_iff : Inv s ↔ ErrorLegal s ∧ InRange s ∧ TreeAsSaid s := by
  constructor
  · intro h
    exact ⟨⟨h.errcode_legal, h.errinfo_clear⟩,
      ⟨h.symlen_le, h.bitlen_le, h.maxlen_le, h.symbuf_wf, h.bitbuf_wf⟩, h.tree, h.no_tree⟩
  · rintro ⟨⟨hcode, hinfo⟩, ⟨hsym, hbit, hmax, hsymbuf, hbitbuf⟩, htree, hnone⟩
    exact ⟨hcode, hinfo, hsym, hbit, hmax, hsymbuf, hbitbuf, htree, hnone⟩

theorem Inv.errorLegal (h : Inv s) : ErrorLegal s := (inv_iff.1 h).1
theorem Inv.inRange (h : Inv s) : InRange s := (inv_iff.1 h).2.1
theorem Inv.treeAsSaid (h : Inv s) : TreeAsSaid s := (inv_iff.1 h).2.2

theorem ErrorLegal.of_error (h : ErrorLegal s) (heq : t.error = s.error) : ErrorLegal t := by
  obtain ⟨hcode, hinfo⟩ := Prod.mk.inj heq
  rwa [ErrorLegal, hcode, hinfo]

/-- Every `raise` leaves a legal error (R200, R204). -/
theorem errorLegal_raise (e : ErrKind) (info : Word) (s : State) : ErrorLegal (raise e info s) :=
  ⟨e.code_bounds.2, fun h => absurd h e.code_ne_zero⟩

theorem TreeAsSaid.of_treeRegs (h : TreeAsSaid s) (heq : t.treeRegs = s.treeRegs) : TreeAsSaid t := by
  have hvalid : t.treeValid = s.treeValid := congrArg (fun r => r.2.1) heq
  rw [TreeAsSaid, hvalid]
  exact ⟨fun hv => (h.1 hv).of_treeRegs heq, fun hv => (h.2 hv).of_treeRegs heq⟩

theorem treeAsSaid_of_noTree (hv : s.treeValid = false) (h : NoTree s) : TreeAsSaid s :=
  ⟨fun hv' => by simp [hv] at hv', fun _ => h⟩

theorem treeAsSaid_of_treeInv (hv : s.treeValid = true) (h : TreeInv s) : TreeAsSaid s :=
  ⟨fun _ => h, fun hv' => by simp [hv] at hv'⟩

/-! ## Reset -/

/-- The reset state meets the invariant (R47). -/
theorem inv_reset : Inv State.reset :=
  inv_iff.2 ⟨⟨Nat.zero_le 7, fun _ => rfl⟩,
    ⟨Nat.zero_le _, Nat.zero_le _, Nat.zero_le _, reset_wf.1, reset_wf.2⟩,
    treeAsSaid_of_noTree rfl ⟨rfl, rfl, rfl, Table.get_fill Node.free⟩⟩

theorem inv_hardReset (s : State) : Inv (hardReset s) :=
  inv_iff.2 ⟨inv_reset.errorLegal.of_error rfl,
    ⟨Nat.zero_le _, Nat.zero_le _, Nat.zero_le _, (hardReset_wf s).1, (hardReset_wf s).2⟩,
    inv_reset.treeAsSaid.of_treeRegs rfl⟩

/-! ## The phases of the commands -/

theorem Inv.acknowledge (h : Inv s) : Inv (acknowledge s) :=
  inv_iff.2 ⟨⟨Nat.zero_le 7, fun _ => rfl⟩, ⟨h.symlen_le, h.bitlen_le, h.maxlen_le, h.symbuf_wf, h.bitbuf_wf⟩,
    h.treeAsSaid.of_treeRegs rfl⟩

theorem Inv.softReset (h : Inv s) : Inv (softReset s) :=
  inv_iff.2 ⟨⟨Nat.zero_le 7, fun _ => rfl⟩, ⟨Nat.zero_le _, Nat.zero_le _, Nat.zero_le _, h.symbuf_wf, h.bitbuf_wf⟩,
    treeAsSaid_of_noTree rfl ⟨rfl, rfl, rfl, freeArena_get⟩⟩

theorem Inv.raise (h : Inv s) (e : ErrKind) (info : Word) : Inv (raise e info s) :=
  inv_iff.2 ⟨errorLegal_raise e info s, ⟨h.symlen_le, h.bitlen_le, h.maxlen_le, h.symbuf_wf, h.bitbuf_wf⟩,
    h.treeAsSaid.of_treeRegs rfl⟩

theorem Inv.clearTree (h : Inv s) : Inv (clearTree s) :=
  inv_iff.2 ⟨h.errorLegal, ⟨h.symlen_le, h.bitlen_le, h.maxlen_le, h.symbuf_wf, h.bitbuf_wf⟩,
    treeAsSaid_of_noTree rfl ⟨rfl, rfl, rfl, freeArena_get⟩⟩

theorem Inv.runCount (h : Inv s) (msg : List Byte) : Inv (runCount msg s) :=
  inv_iff.2 ⟨h.errorLegal, ⟨h.symlen_le, h.bitlen_le, h.maxlen_le, h.symbuf_wf, h.bitbuf_wf⟩,
    h.treeAsSaid.of_treeRegs rfl⟩

/-- BUILD clears the tree and raises an error, or makes a tree (R121, R124). -/
theorem Inv.runBuild (h : Inv s) : Inv (runBuild s).state := by
  rcases runBuild_cases s with ⟨-, herr⟩ | ⟨-, hok⟩
  · rw [herr]
    exact h.clearTree.raise _ _
  · have htree := runBuild_treeInv hok
    rw [hok]
    exact inv_iff.2 ⟨h.errorLegal, ⟨h.symlen_le, h.bitlen_le, h.maxlen_le, h.symbuf_wf, h.bitbuf_wf⟩,
      treeAsSaid_of_treeInv rfl htree⟩

/-- The longest entry of a table has at most 255 bits (R7). -/
theorem IsMaxLen.toNat_le {c : CodeTable} {M : Nat} (h : IsMaxLen c M) : (BitVec.ofNat 32 M).toNat ≤ Config.lenMax := by
  obtain rfl := h.unique (longestCode_isMaxLen c)
  exact (Nat.mod_le _ _).trans (longestCode_le c)

/-- Storing the table of a tree keeps `MAXLEN` in its range (R33, R142). -/
theorem Inv.storeTable (h : Inv s) {codes : List (Byte × List Bool)} (hv : s.treeValid = true) (hc : s.leafCodes = some codes) :
    Inv (storeTable codes s) :=
  inv_iff.2 ⟨h.errorLegal,
    ⟨h.symlen_le, h.bitlen_le, ((h.tree hv).isMaxLen_longestOf hc).toNat_le, h.symbuf_wf, h.bitbuf_wf⟩,
    h.treeAsSaid.of_treeRegs rfl⟩

theorem Inv.encodeEmpty (h : Inv s) : Inv (encodeEmpty s) :=
  inv_iff.2 ⟨h.errorLegal, ⟨h.symlen_le, Nat.zero_le _, Nat.zero_le _, h.symbuf_wf, h.bitbuf_wf⟩,
    h.treeAsSaid.of_treeRegs rfl⟩

/-- PACK stores a stream that fits `BITBUF`, or cleans up (R152). -/
theorem Inv.runPack (h : Inv s) (msg : List Byte) : Inv (runPack msg s).state := by
  have hwf := runPack_wf msg s h.bitbuf_wf
  have htree := h.treeAsSaid.of_treeRegs (runPack_treeRegs msg s)
  rcases runPack_cases msg s with ⟨out, hout, hok⟩ | ⟨e, i, -, herr⟩
  · rw [hok] at hwf htree ⊢
    exact inv_iff.2 ⟨h.errorLegal,
      ⟨h.symlen_le, (Nat.mod_le _ _).trans (packLoop_length hout), h.maxlen_le, h.symbuf_wf, hwf⟩, htree⟩
  · rw [herr] at hwf htree ⊢
    exact inv_iff.2 ⟨errorLegal_raise e _ _, ⟨h.symlen_le, Nat.zero_le _, h.maxlen_le, h.symbuf_wf, hwf⟩, htree⟩

/-- DECODE stores a message that fits `SYMBUF`, or cleans up; it recomputes `MAXLEN` either way (R172). -/
theorem Inv.runDecode (h : Inv s) (bits : List Bool) : Inv (runDecode bits s).state := by
  have hwf := runDecode_wf bits s h.symbuf_wf
  have htree := h.treeAsSaid.of_treeRegs (runDecode_treeRegs bits s)
  have hmax := (longestCode_isMaxLen s.codetab).toNat_le
  rcases runDecode_cases bits s with ⟨out, hout, hok⟩ | ⟨e, x, -, herr⟩
  · rw [hok] at hwf htree ⊢
    exact inv_iff.2 ⟨h.errorLegal,
      ⟨(Nat.mod_le _ _).trans ((decodeStream_inv s.codetab bits).1 out hout), h.bitlen_le, hmax, hwf, h.bitbuf_wf⟩, htree⟩
  · rw [herr] at hwf htree ⊢
    exact inv_iff.2 ⟨errorLegal_raise e _ _, ⟨Nat.zero_le _, h.bitlen_le, hmax, hwf, h.bitbuf_wf⟩, htree⟩

/-! ## Commands -/

/-- ENCODE is the composition of the phases above (R156). -/
theorem Inv.exec_encode (h : Inv s) (hx : exec .encode s = .next t) : Inv t := by
  rcases exec_encode_next.1 hx with ⟨-, rfl⟩ | ⟨-, msg, -, ⟨u, hb, rfl⟩ | ⟨u, codes, hb, hc, rfl⟩⟩
  · exact h
  · have hu := (h.runCount msg).runBuild
    rw [hb] at hu
    exact hu.encodeEmpty
  · have hu := (h.runCount msg).runBuild
    rw [hb] at hu
    obtain ⟨-, hvalid, -⟩ := runBuild_ok_fields hb
    exact (hu.storeTable hvalid hc).runPack msg

/-- Every command that completes keeps the invariant. -/
theorem Inv.exec (h : Inv s) {i : Instr} (hx : exec i s = .next t) : Inv t := by
  cases i with
  | nop => rw [exec_nop] at hx; cases hx; exact h
  | clrerr => rw [exec_clrerr] at hx; cases hx; exact h.acknowledge
  | sreset => rw [exec_sreset] at hx; cases hx; exact h.softReset
  | count =>
    rcases exec_count_next.1 hx with ⟨-, rfl⟩ | ⟨-, msg, -, rfl⟩
    · exact h
    · exact h.runCount msg
  | build =>
    rcases exec_build_next.1 hx with ⟨-, rfl⟩ | ⟨-, rfl⟩
    · exact h
    · exact h.runBuild
  | generate =>
    rcases exec_generate_next.1 hx with ⟨-, rfl⟩ | ⟨-, -, rfl⟩ | ⟨-, hv, codes, hc, rfl⟩
    · exact h
    · exact h.raise _ _
    · exact h.storeTable hv hc
  | pack =>
    rcases exec_pack_next.1 hx with ⟨-, rfl⟩ | ⟨-, msg, -, rfl⟩
    · exact h
    · exact h.runPack msg
  | encode => exact h.exec_encode hx
  | decode =>
    rcases exec_decode_next.1 hx with ⟨-, rfl⟩ | ⟨-, bits, -, rfl⟩
    · exact h
    · exact h.runDecode bits

/-! ## Host accesses -/

/-- The invariant says nothing of the model's own fields. -/
theorem Inv.with_port (h : Inv s) (p : List Event) (a : Option Answer) (d : Nat) :
    Inv { s with pending := p, answer := a, draws := d } :=
  inv_iff.2 ⟨h.errorLegal, ⟨h.symlen_le, h.bitlen_le, h.maxlen_le, h.symbuf_wf, h.bitbuf_wf⟩,
    h.treeAsSaid.of_treeRegs rfl⟩

theorem Inv.answered (h : Inv s) (a : Answer) : Inv (s.answered a) := h.with_port _ _ _

theorem Inv.hostRead (h : Inv s) (off : Offset) : Inv (hostRead off s) := by
  obtain ⟨a, d, hr, -⟩ := hostRead_frame off s
  rw [hr]
  exact h.with_port _ _ _

/-- The length registers take legal values only (R65). -/
theorem writeLoc_lengths_le (h : InRange s) (l : Loc) {v : Word} (hv : l.legalValue v = true) :
    (writeLoc s l v).symlen.toNat ≤ Config.symCap ∧ (writeLoc s l v).bitlen.toNat ≤ Config.bitCap := by
  cases l with
  | symlen => exact ⟨(legalValue_symlen v).1 hv, h.bitlen_le⟩
  | bitlen => exact ⟨h.symlen_le, (legalValue_bitlen v).1 hv⟩
  | _ => exact ⟨h.symlen_le, h.bitlen_le⟩

/-- A store of a legal value keeps the invariant (R65, R73). -/
theorem Inv.writeLoc (h : Inv s) (l : Loc) {v : Word} (hv : l.legalValue v = true) : Inv (writeLoc s l v) := by
  obtain ⟨hsym, hbit⟩ := writeLoc_lengths_le h.inRange l hv
  obtain ⟨hsymbuf, hbitbuf⟩ := writeLoc_wf l v h.symbuf_wf h.bitbuf_wf
  exact inv_iff.2 ⟨h.errorLegal.of_error (error_writeLoc s l v),
    ⟨hsym, hbit, (portKeeps_maxlen.stored s l v).symm ▸ h.maxlen_le, hsymbuf, hbitbuf⟩,
    h.treeAsSaid.of_treeRegs (portKeeps_treeRegs.stored s l v)⟩

theorem Inv.badCommand (h : Inv s) (w : Word) : Inv (badCommand w s) := by
  by_cases he : s.errcode = 0
  · rw [badCommand_clear w he]
    exact h.raise _ _
  · rwa [badCommand_pending w he]

theorem Inv.writeCommand (h : Inv s) {w : Word} (hx : writeCommand w s = .next t) : Inv t := by
  rcases writeCommand_next.1 hx with ⟨-, rfl⟩ | ⟨i, u, -, hi, rfl⟩
  · exact (h.badCommand w).answered _
  · exact (h.exec hi).answered _

theorem Inv.hostWrite (h : Inv s) {off : Offset} {v : Word} (hx : hostWrite off v s = .next t) : Inv t := by
  rcases hostWrite_next hx with rfl | ⟨-, hc⟩ | ⟨l, -, -, -, hv, rfl⟩
  · exact h.answered _
  · exact h.writeCommand hc
  · exact (h.writeLoc l hv).answered _

end Sys2Proof.Machine
end

section
/-! PROOFS. The statements about the invariant (spec/10_state.md sections 2 to 6), settled. -/

open Sys2Proof Sys2Proof.Machine

/-- Settles O51: a step holds the state, resets it, reads, or writes, and the invariant does not see the event taken off. -/
theorem everyStepKeepsTheInvariant : Obligations.EveryStepKeepsTheInvariant := by
  unfold Obligations.EveryStepKeepsTheInvariant
  intro s t h hstep
  rcases step_next hstep with ⟨-, rfl⟩ | ⟨rest, -, rfl⟩ | ⟨off, rest, -, -, rfl⟩ | ⟨off, v, rest, -, -, hw⟩
  · exact h
  · exact inv_hardReset _
  · exact (h.with_port rest _ _).hostRead off
  · exact (h.with_port rest _ _).hostWrite hw

/-- Settles O50: every part of the invariant holds of zero registers and empty buffers. -/
theorem resetMeetsTheInvariant : Obligations.ResetMeetsTheInvariant := by
  unfold Obligations.ResetMeetsTheInvariant
  exact inv_reset

end

section
/-! PROOFS. What BUILD and GENERATE give together (spec/41_tree_builder.md section 3, spec/42_code_table_generator.md
section 3): the frequency of the root, and that every bit-string begins with a generated code. -/

namespace Sys2Proof.Machine

variable {s : State}

/-! ## The frequency of the root -/

/-- After a BUILD the root's frequency is the sum of the counts: it is all that is left in the queue, whose sum every turn
of the merge loop keeps; over one symbol the wrapper copies the Leaf's. -/
theorem BuiltFrom.freq_root {freq : FreqTable} (hs : BuiltFrom freq s) (h : TreeInv s) :
    (s.node.get s.rootIx).freq.toNat = countTotal freq := by
  have hpos := h.leaves_pos
  rw [hs.nleaves] at hpos
  by_cases h1 : (keysOf freq).length = 1
  · obtain ⟨x, hx⟩ := List.length_eq_one_iff.1 h1
    obtain ⟨hroot, -, hget⟩ := hs.wrapper hx
    have htop : s.node.get s.rootIx = .internal (widen (freq.get x)) 0 1 := by rw [State.rootIx, hroot]; exact hget 2
    simp [htop, Node.freq, countTotal, hx]
  · obtain ⟨m, hinv, hone, hnode, hnext⟩ := hs.exists_merge (by omega)
    obtain ⟨q, hq⟩ := List.length_eq_one_iff.1 hone
    have hlast : s.rootIx ∈ m.queue := by
      have hn := h.nnodes_le
      have hroot := h.root_eq
      rw [hinv.mem_queue_iff_last (seedMerge_leaf freq) hone (by omega), h.rootIx_toNat]
      omega
    obtain rfl : s.rootIx = q := by simpa [hq] using hlast
    simpa [hq, hnode] using hinv.sum

/-! ## Bit-strings and codes -/

/-- Up to its root a tree of two or more leaves has only Leaves and Internal entries (R41). -/
theorem TreeInv.leaf_or_internal (h : TreeInv s) (hk : s.k ≠ 1) {n : NodeIx} (hn : n.toNat ≤ s.root.toNat) :
    (∃ x f, s.node.get n = .leaf x f) ∨ ∃ f l r, s.node.get n = .internal f l r ∧ l.toNat < n.toNat ∧ r.toNat < n.toNat := by
  have hroot := h.root_eq
  rcases Nat.lt_or_ge n.toNat s.k with hlt | hge
  · exact .inl (h.leaf n hlt)
  · obtain ⟨f, l, r, hi, hl, hr, -⟩ := h.internal n hge (by omega) fun hp => hk ((h.placeholder n).1 hp).1
    exact .inr ⟨f, l, r, hi, hl, hr⟩

/-- In a tree of two or more leaves every long enough bit-string leads from a node to a Leaf: each bit goes to an older
entry, so at most as many bits as the node's index are needed. -/
theorem TreeInv.exists_leaf_prefix (h : TreeInv s) (hk : s.k ≠ 1) (n : NodeIx) (hn : n.toNat ≤ s.root.toNat)
    (bits : List Bool) (hbits : n.toNat ≤ bits.length) :
    ∃ j x f c, s.node.get j = .leaf x f ∧ PathTo s.node n j c ∧ c <+: bits := by
  induction bits generalizing n with
  | nil =>
    rcases h.leaf_or_internal hk hn with ⟨x, f, hl⟩ | ⟨f, l, r, -, hl, -⟩
    · exact ⟨n, x, f, [], hl, .root, List.nil_prefix⟩
    · exact absurd (hl.trans_le hbits) (Nat.not_lt_zero _)
  | cons v bits ih =>
    rw [List.length_cons] at hbits
    rcases h.leaf_or_internal hk hn with ⟨x, f, hl⟩ | ⟨f, l, r, hi, hl, hr⟩
    · exact ⟨n, x, f, [], hl, .root, List.nil_prefix⟩
    · cases v with
      | false =>
        obtain ⟨j, x, g, c, hj, hp, hc⟩ := ih l (by omega) (by omega)
        exact ⟨j, x, g, false :: c, hj, pathTo_iff.2 (.inr ⟨f, l, r, hi, .inl ⟨c, rfl, hp⟩⟩),
          List.cons_prefix_cons.2 ⟨rfl, hc⟩⟩
      | true =>
        obtain ⟨j, x, g, c, hj, hp, hc⟩ := ih r (by omega) (by omega)
        exact ⟨j, x, g, true :: c, hj, pathTo_iff.2 (.inr ⟨f, l, r, hi, .inr ⟨c, rfl, hp⟩⟩),
          List.cons_prefix_cons.2 ⟨rfl, hc⟩⟩

/-- A symbol has a code exactly when its bit-string is not empty (R37). -/
theorem codeOf_ne_nil {t : CodeTable} {x : Byte} : codeOf t x ≠ [] ↔ (t.get x).len ≠ 0 := by
  rw [ne_eq, ne_eq, ← List.length_eq_zero_iff, codeOf, code_length, ← BitVec.toNat_inj]
  rfl

/-- Every bit-string of at least `M` bits begins with the code of some symbol (R145). -/
def Complete (t : CodeTable) (M : Nat) : Prop :=
  ∀ bits : List Bool, M ≤ bits.length → ∃ x, (t.get x).len ≠ 0 ∧ codeOf t x <+: bits

/-- The code of a tree of two or more leaves is complete: a bit-string, made long enough, leads to a Leaf, and the Leaf's
code is no longer than the bit-string was (R145). -/
theorem TreeInv.complete_tableOf (h : TreeInv s) (hk : s.k ≠ 1) {codes : List (Byte × List Bool)}
    (hc : s.leafCodes = some codes) {M : Nat} (hM : IsMaxLen (tableOf codes) M) : Complete (tableOf codes) M := by
  intro bits hbits
  obtain ⟨j, x, f, c, hl, hp, hpre⟩ := h.exists_leaf_prefix hk s.rootIx h.rootIx_toNat.le
    (bits ++ List.replicate s.rootIx.toNat false) (by rw [List.length_append, List.length_replicate]; omega)
  obtain ⟨hlen, rfl⟩ := (h.entry_iff_leaf hc).2 ⟨j, f, hl, hp⟩
  have hshort : (codeOf (tableOf codes) x).length ≤ bits.length := by
    rw [codeOf, code_length]
    exact (hM.1 x).trans hbits
  exact ⟨x, hlen, List.prefix_of_prefix_length_le hpre (List.prefix_append _ _) hshort⟩

/-- A bit-string begins with at most one code of a `PrefixFree` table (R144). -/
theorem PrefixFree.code_unique {t : CodeTable} (h : PrefixFree t) {x y : Byte} {bits : List Bool}
    (hx : (t.get x).len ≠ 0) (hy : (t.get y).len ≠ 0) (hpx : codeOf t x <+: bits) (hpy : codeOf t y <+: bits) : x = y := by
  by_contra hne
  rcases List.prefix_or_prefix_of_prefix hpx hpy with hxy | hyx
  · exact h x y hne hx hy hxy
  · exact h y x (Ne.symm hne) hy hx hyx

/-- GENERATE on a tree leaves its table, the longest code in `MAXLEN`, and no error (R142). -/
theorem TreeInv.of_exec_generate_maxlen (h : TreeInv s) {t : State} (he : s.errcode = 0) (ht : s.treeValid = true)
    (hx : exec .generate s = .next t) :
    ∃ codes, s.leafCodes = some codes ∧ t.codetab = tableOf codes ∧ IsMaxLen (tableOf codes) t.maxlen.toNat ∧
      t.errcode = 0 := by
  obtain ⟨codes, hc, hexec⟩ := h.exec_generate he ht
  obtain rfl := Host.Outcome.next.inj (hexec.symm.trans hx)
  have hM := h.isMaxLen_longestOf hc
  have hle : longestOf codes ≤ 255 := hM.unique (longestCode_isMaxLen _) ▸ longestCode_le _
  refine ⟨codes, hc, rfl, ?_, he⟩
  rwa [storeTable_maxlen, BitVec.toNat_ofNat, Nat.mod_eq_of_lt (by omega)]

end Sys2Proof.Machine
end

section
/-! PROOFS. DECODE with a complete code (spec/44_decoder.md section 4): an accumulator never grows past the longest code. -/

namespace Sys2Proof.Machine

variable {t : CodeTable} {M p : Nat} {d : Decoder}

/-- No symbol's code begins the accumulator: a code that did would have been matched before. -/
def NoCodeBegins (t : CodeTable) (acc : List Bool) : Prop :=
  ∀ x, (t.get x).len ≠ 0 → ¬ codeOf t x <+: acc

theorem noCodeBegins_nil : NoCodeBegins t [] :=
  fun _ hlen hpre => codeOf_ne_nil.2 hlen (List.prefix_nil.1 hpre)

theorem NoCodeBegins.concat {acc : List Bool} {v : Bool} (h : NoCodeBegins t acc) (hnone : matchCode t (acc ++ [v]) = none) :
    NoCodeBegins t (acc ++ [v]) := by
  intro x hlen hpre
  rcases List.prefix_concat_iff.1 hpre with heq | hshort
  · exact matchCode_eq_none.1 hnone x (codeIs_iff.2 heq)
  · exact h x hlen hshort

/-- With a complete code the loop never ends with CorruptStreamError: a code begins every accumulator that is long enough,
and none begins one that waits (R175, R176). -/
theorem Complete.decodeLoop_ne_corrupt (hcomplete : Complete t M) {bits : List Bool} (h : NoCodeBegins t d.acc) {e : ErrKind}
    {x : Nat} (hloop : decodeLoop t M p bits d = .error (e, x)) : e ≠ .corruptStream := by
  induction bits generalizing p d with
  | nil => cases hloop
  | cons v bits ih =>
    rw [decodeLoop] at hloop
    rcases decodeStep_cases t M d v p with ⟨y, -, -, hs⟩ | ⟨y, -, -, hs⟩ | ⟨hnone, -, hs⟩ | ⟨hnone, hlen, -⟩
    · rw [hs] at hloop
      exact ih noCodeBegins_nil hloop
    · rw [hs] at hloop
      cases hloop
      decide
    · rw [hs] at hloop
      exact ih (h.concat hnone) hloop
    · obtain ⟨y, hy, hpre⟩ := hcomplete (d.acc ++ [v]) (by rw [List.length_append, List.length_singleton]; omega)
      exact absurd hpre (h.concat hnone y hy)

/-- With a complete code DECODE's errors are TruncatedStreamError and CapacityError (R176). -/
theorem Complete.decodeStream_ne_corrupt (hcomplete : Complete t M) (hM : IsMaxLen t M) {bits : List Bool} {e : ErrKind}
    {x : Nat} (h : decodeStream t bits = .error (e, x)) : e ≠ .corruptStream := by
  obtain rfl := hM.unique (longestCode_isMaxLen t)
  unfold decodeStream at h
  split at h
  · rename_i err hloop
    cases h
    exact hcomplete.decodeLoop_ne_corrupt noCodeBegins_nil hloop
  · split at h <;> cases h
    decide

/-- Of the errors only CorruptStreamError has the code 3 (R200). -/
theorem ErrKind.code_eq_three {e : ErrKind} (h : e.code = 3) : e = .corruptStream := by
  cases e with
  | corruptStream => rfl
  | _ => exact absurd h (by decide)

end Sys2Proof.Machine
end

section
/-! PROOFS. The inferences about the counts, the tree and its code (spec/40_frequency_count.md to
spec/42_code_table_generator.md, spec/44_decoder.md section 4), settled. -/

open Sys2Proof Sys2Proof.Machine

/-- Settles O31: a BUILD of some count takes its second branch, whose arena is a tree over one symbol and over more. -/
theorem buildEstablishesTheTreeInvariants : Obligations.BuildEstablishesTheTreeInvariants := by
  unfold Obligations.BuildEstablishesTheTreeInvariants
  rintro s t he ⟨x, hcount⟩ hx
  have hok := runBuild_ok_of_exec he (fun hnil => hcount (keysOf_eq_nil.1 hnil x)) hx
  obtain ⟨-, hvalid, -⟩ := runBuild_ok_fields hok
  exact ⟨hvalid, runBuild_treeInv hok⟩

/-- Settles O32: the merge loop keeps the sum of its queue, which ends as the root alone; the sum is below `2^40`. -/
theorem rootFrequencyIsTheTotal : Obligations.RootFrequencyIsTheTotal := by
  unfold Obligations.RootFrequencyIsTheTotal
  rintro s t he ⟨x, hcount⟩ hx
  have hok := runBuild_ok_of_exec he (fun hnil => hcount (keysOf_eq_nil.1 hnil x)) hx
  obtain ⟨hbuilt, -⟩ := runBuild_ok_fields hok
  rw [hbuilt.freq_root (runBuild_treeInv hok), countTotal_eq]

/-- Settles O37: a code begins the bit-string because the tree is complete, and only one because no code begins another. -/
theorem generatedCodeIsComplete : Obligations.GeneratedCodeIsComplete := by
  unfold Obligations.GeneratedCodeIsComplete
  intro s t he ht h hk hx bits hbits
  obtain ⟨codes, hc, htab, hM, -⟩ := h.of_exec_generate_maxlen he ht hx
  obtain ⟨x, hlen, hpre⟩ := h.complete_tableOf (by rw [State.k]; omega) hc hM bits hbits
  rw [htab]
  exact ⟨x, ⟨hlen, hpre⟩, fun y hy hprey => (h.prefixFree_tableOf hc).code_unique hy hlen hprey hpre⟩

/-- Settles O48: the table is complete, so DECODE meets a match before an accumulator is too long. -/
theorem generatedTableNeverCorrupt : Obligations.GeneratedTableNeverCorrupt := by
  unfold Obligations.GeneratedTableNeverCorrupt
  intro s t u he ht h hk hg hd
  obtain ⟨codes, hc, htab, hM, het⟩ := h.of_exec_generate_maxlen he ht hg
  have hcomplete := h.complete_tableOf (by rw [State.k]; omega) hc hM
  rw [← htab] at hcomplete hM
  rcases exec_decode_next.1 hd with ⟨hpend, -⟩ | ⟨-, bits, -, rfl⟩
  · exact absurd het hpend
  · rcases runDecode_cases bits t with ⟨out, -, hrun⟩ | ⟨e, x, herr, hrun⟩
    · rw [hrun]
      show t.errcode ≠ 3
      rw [het]
      decide
    · rw [hrun]
      exact fun hcode => hcomplete.decodeStream_ne_corrupt hM herr (ErrKind.code_eq_three hcode)

/-- Settles O25: a count is a number of occurrences, which a rearrangement does not change. -/
theorem countIgnoresTheOrder : Obligations.CountIgnoresTheOrder := by
  unfold Obligations.CountIgnoresTheOrder
  intro s s' t t' msg msg' he he' hm hm' hperm hx hx'
  obtain rfl := Host.Outcome.next.inj ((exec_count_of he hm).symm.trans hx)
  obtain rfl := Host.Outcome.next.inj ((exec_count_of he' hm').symm.trans hx')
  refine Table.ext_get fun x => ?_
  rw [runCount_freq, runCount_freq, get_countSymbols, get_countSymbols, hperm.count_eq]

/-- Settles O36: a Leaf's code is its path, which leaves the root and passes Internal entries only. -/
theorem generatedLengthsAreBounded : Obligations.GeneratedLengthsAreBounded := by
  unfold Obligations.GeneratedLengthsAreBounded
  intro s t he ht h hx i x f hl
  obtain ⟨codes, hc, htab⟩ := h.of_exec_generate he ht hx
  obtain ⟨c, hp⟩ := h.exists_leaf_path hl
  have hlen : (t.codetab.get x).len.toNat = c.length := by
    rw [← (h.codeOf_leaf hc hl hp).2, codeOf, code_length, htab]
  rw [hlen]
  exact ⟨List.length_pos_iff.2 (h.leaf_path_ne_nil hl hp), h.path_length_le hp⟩

end

section
/-! PROOFS. ENCODE as a function of the message (spec/43_encoder_bit_packer.md section 3), and DECODE of what it packed
(spec/44_decoder.md section 5). -/

namespace Sys2Proof.Machine

variable {s s' t t' : State} {msg : List Byte}

/-! ## ENCODE of a known message -/

theorem Message.unique {msg' : List Byte} (h : Message s msg) (h' : Message s msg') : msg = msg' :=
  Option.some.inj ((message_eq_some.2 h).symm.trans (message_eq_some.2 h'))

/-- The state that COUNT of a message and a BUILD that succeeds leave (R112, R121). -/
def countAndBuild (msg : List Byte) (s : State) : State :=
  { s with
    freq := countSymbols msg, node := (buildArena (countSymbols msg)).1
    nleaves := BitVec.ofNat 32 (keysOf (countSymbols msg)).length
    nnodes := BitVec.ofNat 32 (buildArena (countSymbols msg)).2
    root := BitVec.ofNat 32 ((buildArena (countSymbols msg)).2 - 1), treeValid := true }

theorem runBuild_runCount_of_counted (s : State) (hne : keysOf (countSymbols msg) ≠ []) :
    runBuild (runCount msg s) = .ok (countAndBuild msg s) := by
  rcases runBuild_cases (runCount msg s) with ⟨hnil, -⟩ | ⟨-, hok⟩
  · exact absurd hnil hne
  · exact hok

theorem runBuild_runCount_of_uncounted (s : State) (hnil : keysOf (countSymbols msg) = []) :
    runBuild (runCount msg s) = .error (raise .emptyInput 0 (clearTree (runCount msg s))) := by
  rcases runBuild_cases (runCount msg s) with ⟨-, herr⟩ | ⟨hne, -⟩
  · exact herr
  · exact absurd hnil hne

/-- How an ENCODE of the message ends: at BUILD, when nothing is counted, or at PACK with the table of the tree (R156). -/
theorem Message.exec_encode_cases (hm : Message s msg) (he : s.errcode = 0) (hx : exec .encode s = .next t) :
    (keysOf (countSymbols msg) = [] ∧ t = encodeEmpty (raise .emptyInput 0 (clearTree (runCount msg s)))) ∨
      (keysOf (countSymbols msg) ≠ [] ∧ ∃ codes, (countAndBuild msg s).leafCodes = some codes ∧
        t = (runPack msg (storeTable codes (countAndBuild msg s))).state) := by
  rcases exec_encode_next.1 hx with ⟨hpend, -⟩ | ⟨-, msg', hm', hend⟩
  · exact absurd he hpend
  obtain rfl := hm.unique hm'
  by_cases hnil : keysOf (countSymbols msg) = []
  · rw [runBuild_runCount_of_uncounted s hnil] at hend
    rcases hend with ⟨u, hu, rfl⟩ | ⟨u, codes, hu, -⟩ <;> cases hu
    exact .inl ⟨hnil, rfl⟩
  · rw [runBuild_runCount_of_counted s hnil] at hend
    rcases hend with ⟨u, hu, -⟩ | ⟨u, codes, hu, hc, rfl⟩ <;> cases hu
    exact .inr ⟨hnil, codes, hc, rfl⟩

/-! ## Determinism -/

/-- The two engines hold the same counts, tree, table, `MAXLEN` and error code: what ENCODE makes of a message before it
packs. -/
structure SameCode (s s' : State) : Prop where
  codetab : s.codetab = s'.codetab
  node : s.node = s'.node
  root : s.root = s'.root
  maxlen : s.maxlen = s'.maxlen
  freq : s.freq = s'.freq
  errcode : s.errcode = s'.errcode

/-- The two engines hold the same `BITLEN` and, without an error, the same stream bits. -/
structure SameStream (s s' : State) : Prop where
  bitlen : s.bitlen = s'.bitlen
  bits : s.errcode = 0 → ∀ p, p < s.bitlen.toNat → bitGet s.bitbuf p = bitGet s'.bitbuf p

theorem toNat_ofNat_of_packed {c : CodeTable} {out : List Bool} (h : packLoop c 0 msg [] = .ok out) :
    (BitVec.ofNat 32 out.length).toNat = out.length := by
  have hlen : out.length ≤ 32768 := packLoop_length h
  rw [BitVec.toNat_ofNat]
  omega

/-- A packed bit reads back from the buffer, whatever the buffer held (R68, R152). -/
theorem bitGet_streamBytes (m : Memory) {out : List Bool} {p : Nat} (hp : p < out.length) :
    bitGet (m.writeBytes 0 (streamBytes out)) p = some out[p] := by
  obtain ⟨b, hread, hbit⟩ := read_streamBytes m out p (by omega)
  exact bitGet_eq_some.2 ⟨b, hread, hbit.trans (List.getD_eq_getElem _ _ hp)⟩

theorem runPack_of_ok {out : List Bool} (h : packLoop s.codetab 0 msg [] = .ok out) : runPack msg s =
    .ok { s with bitbuf := s.bitbuf.writeBytes 0 (streamBytes out), bitlen := BitVec.ofNat 32 out.length } := by
  rw [runPack, h]

theorem runPack_of_error {e : ErrKind} {i : Nat} (h : packLoop s.codetab 0 msg [] = .error (e, i)) :
    runPack msg s = .error (packFail e i s) := by
  rw [runPack, h]

/-- PACK reads the table and the message only (R152). -/
theorem SameCode.runPack (h : SameCode s s') (msg : List Byte) :
    SameCode (runPack msg s).state (runPack msg s').state ∧ SameStream (runPack msg s).state (runPack msg s').state := by
  cases hloop : packLoop s.codetab 0 msg [] with
  | ok out =>
    rw [runPack_of_ok hloop, runPack_of_ok (h.codetab ▸ hloop)]
    refine ⟨⟨h.codetab, h.node, h.root, h.maxlen, h.freq, h.errcode⟩, ⟨rfl, fun _ p hp => ?_⟩⟩
    replace hp : p < out.length := (toNat_ofNat_of_packed hloop) ▸ hp
    exact (bitGet_streamBytes _ hp).trans (bitGet_streamBytes _ hp).symm
  | error err =>
    obtain ⟨e, i⟩ := err
    rw [runPack_of_error hloop, runPack_of_error (h.codetab ▸ hloop)]
    exact ⟨⟨h.codetab, h.node, h.root, h.maxlen, h.freq, rfl⟩, ⟨rfl, fun he => absurd he e.code_ne_zero⟩⟩

/-- ENCODE of one message ends alike in both engines, whatever else they held: the tree comes from the counts, the codes
from the tree, the stream from the codes (R125, R142, R152). -/
theorem Message.sameCode_of_encode (hm : Message s msg) (hm' : Message s' msg) (he : s.errcode = 0) (he' : s'.errcode = 0)
    (hx : exec .encode s = .next t) (hx' : exec .encode s' = .next t') : SameCode t t' ∧ SameStream t t' := by
  rcases hm.exec_encode_cases he hx with ⟨hnil, rfl⟩ | ⟨hne, codes, hc, rfl⟩ <;>
    rcases hm'.exec_encode_cases he' hx' with ⟨hnil', rfl⟩ | ⟨hne', codes', hc', rfl⟩
  · exact ⟨⟨rfl, rfl, rfl, rfl, rfl, rfl⟩, ⟨rfl, fun h => absurd h ErrKind.emptyInput.code_ne_zero⟩⟩
  · exact absurd hnil hne'
  · exact absurd hnil' hne
  · have hsame : (countAndBuild msg s).leafCodes = (countAndBuild msg s').leafCodes := rfl
    obtain rfl : codes = codes' := Option.some.inj (hc.symm.trans (hsame.trans hc'))
    have htable : SameCode (storeTable codes (countAndBuild msg s)) (storeTable codes (countAndBuild msg s')) :=
      ⟨rfl, rfl, rfl, rfl, rfl, he.trans he'.symm⟩
    exact htable.runPack msg

/-! ## DECODE of packed codes -/

/-- An accumulator shorter than the code it begins waits: no code of a `PrefixFree` table begins another (R144, R173). -/
theorem PrefixFree.parse_within {c : CodeTable} {M : Nat} (hfree : PrefixFree c) (hM : IsMaxLen c M) {x : Byte}
    (hx : (c.get x).len ≠ 0) {out : List Byte} {bits : List Bool} (h : Parse c M out [] bits) (acc : List Bool)
    (hacc : acc <+: codeOf c x) (hlt : acc.length < (codeOf c x).length) : Parse c M out acc (bits ++ acc) := by
  induction acc using List.reverseRecOn with
  | nil => rwa [List.append_nil]
  | append_singleton acc v ih =>
    rw [List.length_append, List.length_singleton] at hlt
    have hpre : acc <+: codeOf c x := (List.prefix_append acc [v]).trans hacc
    rw [← List.append_assoc]
    refine .keep (ih hpre (by omega)) (fun y hy => ?_) ?_
    · have hcode := codeIs_iff.1 hy
      have hylen : (c.get y).len ≠ 0 := codeOf_ne_nil.1 (hcode ▸ List.concat_ne_nil v acc)
      obtain rfl : y = x := by
        by_contra hne
        exact hfree y x hne hylen hx (hcode ▸ hacc)
      rw [hcode, List.length_append, List.length_singleton] at hlt
      omega
    · have := hM.1 x
      rw [codeOf, code_length] at hlt
      omega

/-- The bits of a code, read from a code boundary, emit its symbol (R173). -/
theorem PrefixFree.parse_code {c : CodeTable} {M : Nat} (hfree : PrefixFree c) (hM : IsMaxLen c M) {x : Byte}
    (hx : (c.get x).len ≠ 0) {out : List Byte} {bits : List Bool} (h : Parse c M out [] bits)
    (hroom : out.length < Config.symCap) : Parse c M (out ++ [x]) [] (bits ++ codeOf c x) := by
  rcases List.eq_nil_or_concat' (codeOf c x) with hnil | ⟨acc, v, hcode⟩
  · exact absurd hnil (codeOf_ne_nil.2 hx)
  have hwait := hfree.parse_within hM hx h acc (hcode ▸ List.prefix_append acc [v]) (by simp [hcode])
  rw [hcode, ← List.append_assoc]
  refine hwait.emit ⟨codeIs_iff.2 hcode, fun y hy hcodey => ?_⟩ hroom
  have heq : codeOf c y = codeOf c x := (codeIs_iff.1 hcodey).trans hcode.symm
  have hylen : (c.get y).len ≠ 0 := codeOf_ne_nil.1 (heq ▸ codeOf_ne_nil.2 hx)
  obtain rfl := hfree.code_unique hylen hx (heq ▸ List.prefix_rfl) List.prefix_rfl
  exact absurd hy (Nat.lt_irrefl _)

/-- The codes of a message, one after another, parse as the message (44_decoder.md section 5). -/
theorem PrefixFree.parse_flatMap {c : CodeTable} {M : Nat} (hfree : PrefixFree c) (hM : IsMaxLen c M) (msg : List Byte)
    (hcode : ∀ x ∈ msg, (c.get x).len ≠ 0) (hfit : msg.length ≤ Config.symCap) :
    Parse c M msg [] (msg.flatMap (codeOf c)) := by
  induction msg using List.reverseRecOn with
  | nil => exact .start
  | append_singleton msg x ih =>
    rw [List.length_append, List.length_singleton] at hfit
    rw [List.flatMap_append, List.flatMap_singleton]
    exact hfree.parse_code hM (hcode x (by simp)) (ih (fun y hy => hcode y (List.mem_append_left _ hy)) (by omega)) hfit

/-- PACK leaves the stream of the codes it packed (R152). -/
theorem stream_of_packed {out : List Bool} (h : packLoop s.codetab 0 msg [] = .ok out) :
    Stream { s with bitbuf := s.bitbuf.writeBytes 0 (streamBytes out), bitlen := BitVec.ofNat 32 out.length } out :=
  ⟨(toNat_ofNat_of_packed h).symm, fun _ hp => bitGet_eq_some.1 (bitGet_streamBytes _ hp)⟩

/-- A message that has been written to the start of `SYMBUF` with its length is the message there (R172). -/
theorem message_of_written (hfit : msg.length ≤ Config.symCap) (hbuf : t.symbuf = s.symbuf.writeBytes 0 msg)
    (hlen : t.symlen = BitVec.ofNat 32 msg.length) : Message t msg := by
  refine ⟨?_, fun i hi => ?_⟩
  · simp only [Config.symCap] at hfit
    rw [hlen, BitVec.toNat_ofNat]
    omega
  · rw [hbuf, Memory.read_writeBytes, dif_pos ⟨Nat.zero_le i, by omega⟩]
    rfl

/-- What PACK left when it ended without an error, read back: a `PrefixFree` table packs the message into a
stream from which DECODE gives it back (44_decoder.md section 5). -/
theorem exec_decode_of_packed (he : s.errcode = 0) (hfree : PrefixFree s.codetab)
    (hcode : ∀ x ∈ msg, (s.codetab.get x).len ≠ 0) (hfit : msg.length ≤ Config.symCap)
    (hok : (runPack msg s).state.errcode = 0) :
    ∃ u, exec .decode (runPack msg s).state = .next u ∧ u.errcode = 0 ∧
      u.symlen = BitVec.ofNat 32 msg.length ∧ Message u msg := by
  rcases runPack_cases msg s with ⟨out, hloop, hrun⟩ | ⟨e, i, -, hrun⟩
  · rw [hrun]
    obtain ⟨-, rfl, -⟩ := packLoop_ok.1 hloop
    have hM := longestCode_isMaxLen s.codetab
    have hdec := (hfree.parse_flatMap hM msg hcode hfit).decodeStream_of_boundary hM
    exact ⟨_, exec_decode_of_ok he (stream_of_packed hloop) hM hdec, he, rfl, message_of_written hfit rfl rfl⟩
  · rw [hrun] at hok
    exact absurd hok e.code_ne_zero

end Sys2Proof.Machine
end

section
/-! PROOFS. The inferences about ENCODE and the round trip (spec/43_encoder_bit_packer.md section 3, spec/44_decoder.md
section 5), settled. -/

open Sys2Proof Sys2Proof.Machine

/-- Settles O49: no code of ENCODE's table begins another, so each packed code ends where DECODE first matches. -/
theorem decodeAfterEncodeGivesTheMessageBack : Obligations.DecodeAfterEncodeGivesTheMessageBack := by
  unfold Obligations.DecodeAfterEncodeGivesTheMessageBack
  intro s t msg he _ hfit hm hx hok
  rcases hm.exec_encode_cases he hx with ⟨-, rfl⟩ | ⟨hne, codes, hc, rfl⟩
  · exact absurd hok ErrKind.emptyInput.code_ne_zero
  have hbuild := runBuild_runCount_of_counted s hne
  have hsymlen : s.symlen = BitVec.ofNat 32 msg.length := by rw [hm.1, BitVec.ofNat_toNat, BitVec.setWidth_eq]
  rw [hsymlen]
  exact exec_decode_of_packed (s := storeTable codes (countAndBuild msg s)) he
    ((runBuild_treeInv hbuild).prefixFree_tableOf hc) (hm.coded hbuild hc) hfit hok

/-- Settles O41: the table has a code for every symbol of the message, so PACK can only run out of room. -/
theorem encodeNeverRaisesNoCode : Obligations.EncodeNeverRaisesNoCode := by
  unfold Obligations.EncodeNeverRaisesNoCode
  intro s t he hx
  rcases exec_encode_next.1 hx with ⟨hpend, -⟩ | ⟨-, msg, hm, -⟩
  · exact absurd he hpend
  rcases hm.exec_encode_cases he hx with ⟨-, rfl⟩ | ⟨hne, codes, hc, rfl⟩
  · exact .inr (.inl rfl)
  · have hcode := hm.coded (runBuild_runCount_of_counted s hne) hc
    exact (runPack_errcode_of_coded (s := storeTable codes (countAndBuild msg s)) he hcode).imp_right .inr

/-- Settles O42: each phase of ENCODE reads only what the phase before it made of the message. -/
theorem encodeDependsOnTheMessageOnly : Obligations.EncodeDependsOnTheMessageOnly := by
  unfold Obligations.EncodeDependsOnTheMessageOnly
  intro s s' t t' msg he he' hm hm' hx hx'
  obtain ⟨hcode, hstream⟩ := hm.sameCode_of_encode hm' he he' hx hx'
  exact ⟨hcode.codetab, hcode.node, hcode.root, hcode.maxlen, hstream.bitlen, hcode.freq, hcode.errcode, hstream.bits⟩

end
